-- ==== Sys2Proof/Word.lean ====
section
/-! DEFINITION. The word types of GSPI-BM: the 32-bit word the transport moves, bytes, the five fields of a
CommandWord, and what the `RESULT` port can hold. -/

namespace Sys2Proof

/-- A 32-bit word, "the only unit the transport moves" (00_scope.md R17). -/
abbrev Word := BitVec 32

/-- An 8-bit value of a host byte buffer or of a window byte. -/
abbrev Byte := BitVec 8

/-- The field record of a CommandWord (30_encoding.md R80): what `CW.DEC` returns. -/
structure CommandWord where
  /-- bit 31: 1 = write, 0 = read -/
  write : BitVec 1
  /-- bit 30: auto-increment -/
  increment : BitVec 1
  /-- bits 29:28: the logical sub-bus -/
  function : BitVec 2
  /-- bits 27:11: byte address in the function's space -/
  address : BitVec 17
  /-- bits 10:0: payload length in bytes -/
  length : BitVec 11
deriving DecidableEq, Repr, Inhabited

/-- What the host port's `RESULT` holds (10_state.md R30): a `u32` for the narrow reads, `CW.ENC` and `ROT16`, a
field record for `CW.DEC`, and the sequence of words `T.READ` returns (40_transport.md R118; log 20). -/
inductive OpResult where
  | value (v : Word)
  | fields (c : CommandWord)
  | words (ws : List Word)
deriving DecidableEq, Repr, Inhabited

end Sys2Proof
end

