-- ==== Sys2Proof/Config.lean ====
section
/-! DEFINITION. The implementation parameters of 00_scope.md R7 with their defaults and constraints, and the free
values: opaque constants of which nothing can be proved. -/

namespace Sys2Proof

/-- The order of actions in a read bit-time (00_scope.md R7, 93_implementation_defined.md U3). Only `rsf` is
normative; the other two are the readings 90_conflicts.md C1 sets aside (log 15). -/
inductive ReadFraming where
  | rsf
  | sfr
  | srf
deriving DecidableEq, Repr

/-- The record `Params` of 00_scope.md R7. Times are whole nanoseconds (log 9). -/
structure Params where
  windowMask : Word
  windowSize : Nat
  maxTransferSize : Nat
  access32Flag : Word
  fnBus : Nat
  fnBackplane : Nat
  fnData : Nat
  regWinHigh : Nat
  regWinMid : Nat
  regWinLow : Nat
  windowSentinel : Word
  regBusCtrl : Nat
  regBusTestRo : Nat
  regBusTestRw : Nat
  magic : Word
  testPattern : Word
  busCtrlValue : Word
  maxPolls : Nat
  tPwrLowMin : Nat
  tBootMin : Nat
  /-- `T_HALF`: "no rule depends on it" (00_scope.md R7, 40_transport.md R128; log 13). -/
  tHalf : Nat
  readFraming : ReadFraming
deriving DecidableEq, Repr

/-- The constraints "every rule assumes" (00_scope.md R7, third column). -/
structure Params.Wf (p : Params) : Prop where
  window_mask : p.windowMask.toNat + 1 = p.windowSize
  window_size : ∃ k ∈ List.range 9, p.windowSize = 2 ^ (8 + k)
  max_transfer : p.maxTransferSize % 4 = 0 ∧ 4 ≤ p.maxTransferSize ∧ p.maxTransferSize ≤ 2044
  access32_one_bit : ∃ k ∈ List.range 17, p.access32Flag.toNat = 2 ^ k
  access32_disjoint : p.access32Flag &&& p.windowMask = 0
  functions : p.fnBus ≤ 3 ∧ p.fnBackplane ≤ 3 ∧ p.fnData ≤ 3
  functions_distinct : p.fnBus ≠ p.fnBackplane ∧ p.fnBus ≠ p.fnData ∧ p.fnBackplane ≠ p.fnData
  reg_win : p.regWinHigh < 2 ^ 17 ∧ p.regWinMid < 2 ^ 17 ∧ p.regWinLow < 2 ^ 17
  sentinel : p.windowSentinel &&& p.windowMask ≠ 0
  reg_bus : p.regBusCtrl < 2 ^ 17 ∧ p.regBusTestRo < 2 ^ 17 ∧ p.regBusTestRw < 2 ^ 17
  max_polls : 1 ≤ p.maxPolls
  pwr_low : 20000000 ≤ p.tPwrLowMin
  boot : 250000000 ≤ p.tBootMin
  half : 0 < p.tHalf

/-- `MAX_POLLS` is OPEN ("no default; the model takes it as an argument, `MAX_POLLS >= 1`", 00_scope.md R7): the
polls beyond the first that an implementation allows (log 12). -/
opaque Config.pollsBeyondFirst : Nat

/-- `T_HALF` is OPEN and positive (00_scope.md R7): its nanoseconds beyond the first (log 13). -/
opaque Config.halfBeyondFirst : Nat

/-- Free value: the level the block sees on the data line at its `n`-th sample when the state prescribes none
(10_state.md R23, 93_implementation_defined.md U4 "any value"; log 8). -/
opaque Config.freeLevel (n : Nat) : Bool

/-- Free value: how much longer than its lower bound the `n`-th `Wait` lasts (46_init.md R252; log 9). -/
opaque Config.freeWait (n : Nat) : Nat

/-- Free value: `RESULT` where R296 and U8 leave it unspecified (log 10). -/
opaque Config.freeResult (n : Nat) : OpResult

/-- Free value: `SHREG` after a transport call (10_state.md R26; log 11). -/
opaque Config.freeShreg (n : Nat) : Word

/-- Free value behind `BITCNT` after a transport call (10_state.md R27; log 11). -/
opaque Config.freeBitcnt (n : Nat) : Nat

/-- Free value: `WORDCNT` after a transport call (10_state.md R27; log 11). -/
opaque Config.freeWordcnt (n : Nat) : BitVec 10

/-- The default parameters of 00_scope.md R7. The spec marks each number as general knowledge
(93_implementation_defined.md G1 to G9; log 14); `MAX_POLLS` and `T_HALF` have no default and are opaque. -/
def Config.defaults : Params where
  windowMask := 0x00007FFF#32
  windowSize := 0x00008000
  maxTransferSize := 64
  access32Flag := 0x08000#32
  fnBus := 0
  fnBackplane := 1
  fnData := 2
  regWinHigh := 0x1000C
  regWinMid := 0x1000B
  regWinLow := 0x1000A
  windowSentinel := 0xAAAAAAAA#32
  regBusCtrl := 0x00000
  regBusTestRo := 0x00014
  regBusTestRw := 0x00018
  magic := 0xFEEDBEAD#32
  testPattern := 0x12345678#32
  busCtrlValue := 0x00000011#32
  maxPolls := Config.pollsBeyondFirst + 1
  tPwrLowMin := 20000000
  tBootMin := 250000000
  tHalf := Config.halfBeyondFirst + 1
  readFraming := .rsf

end Sys2Proof
end

