-- ==== Sys2Proof/Syntax.lean ====
section
/-! DEFINITION. The operations of the host port (30_encoding.md R95), one constructor per row of
spec/opcode_table.json, in the table's order. -/

namespace Sys2Proof

/-- A host operation with its operands. An operand the spec calls a natural number or checks against a field's range
(`w`, `i`, `f`, a 17-bit `a`, `l`, the counts) is a `Nat`; a 32-bit backplane address, word or value is a `Word`
(log 17). `buf` and `wbuf` name a host buffer by the index of its first byte or word (10_state.md R33; log 16). -/
inductive Instr where
  /-- `T.WRITE ws` (40_transport.md R112) -/
  | tWrite (ws : List Word)
  /-- `T.READ n` (40_transport.md R118) -/
  | tRead (n : Nat)
  /-- `T.FLUSH` (40_transport.md R123) -/
  | tFlush
  /-- `CW.ENC w, i, f, a, l` (41_cmdword.md R141) -/
  | cwEnc (w i f a l : Nat)
  /-- `CW.DEC c` (41_cmdword.md R145) -/
  | cwDec (c : Word)
  /-- `ROT16 x` (41_cmdword.md R148) -/
  | rot16 (x : Word)
  /-- `RD8 f, a` (42_function_access.md R166) -/
  | rd8 (f a : Nat)
  /-- `RD16 f, a` (42_function_access.md R167) -/
  | rd16 (f a : Nat)
  /-- `RD32 f, a` (42_function_access.md R168) -/
  | rd32 (f a : Nat)
  /-- `WR8 f, a, v` (42_function_access.md R170) -/
  | wr8 (f a : Nat) (v : Word)
  /-- `WR16 f, a, v` (42_function_access.md R171) -/
  | wr16 (f a : Nat) (v : Word)
  /-- `WR32 f, a, v` (42_function_access.md R172) -/
  | wr32 (f a : Nat) (v : Word)
  /-- `RD32S a` (42_function_access.md R175) -/
  | rd32s (a : Nat)
  /-- `WR32S a, v` (42_function_access.md R176) -/
  | wr32s (a : Nat) (v : Word)
  /-- `SETWIN a` (43_window.md R192) -/
  | setWin (a : Word)
  /-- `BP.RD8 a` (43_window.md R204) -/
  | bpRd8 (a : Word)
  /-- `BP.RD16 a` (43_window.md R205) -/
  | bpRd16 (a : Word)
  /-- `BP.RD32 a` (43_window.md R206) -/
  | bpRd32 (a : Word)
  /-- `BP.WR8 a, v` (43_window.md R207) -/
  | bpWr8 (a v : Word)
  /-- `BP.WR16 a, v` (43_window.md R208) -/
  | bpWr16 (a v : Word)
  /-- `BP.WR32 a, v` (43_window.md R209) -/
  | bpWr32 (a v : Word)
  /-- `BP.RDBLK a, buf, n` (44_block.md R224) -/
  | bpRdBlk (a : Word) (buf n : Nat)
  /-- `BP.WRBLK a, buf, n` (44_block.md R228) -/
  | bpWrBlk (a : Word) (buf n : Nat)
  /-- `DATA.RD wbuf, n` (45_datapath.md R242) -/
  | dataRd (wbuf n : Nat)
  /-- `DATA.WR wbuf, m` (45_datapath.md R244) -/
  | dataWr (wbuf m : Nat)
  /-- `INIT` (46_init.md R250) -/
  | init
deriving DecidableEq, Repr

end Sys2Proof
end

