-- ==== Sys2Proof/WellFormed.lean ====
section
/-! DEFINITION. Which operations fit a record of the host port: every natural-number operand and the length of a word
sequence fit the two words the record gives them (log 3). The spec's own operand conditions are no well-formedness: they are
checked by the operation itself and reported (60_exceptions.md R292). -/

namespace Sys2Proof

/-- A natural-number operand that fits the 64 bits a host-port record gives it (log 3). -/
def natFits (n : Nat) : Bool := decide (n < 2 ^ 64)

/-- Every operand of the operation fits its place in a host-port record. -/
def Instr.wellFormed : Instr → Bool
  | .tWrite ws => natFits ws.length
  | .tRead n => natFits n
  | .tFlush => true
  | .cwEnc w i f a l => natFits w && natFits i && natFits f && natFits a && natFits l
  | .cwDec _ => true
  | .rot16 _ => true
  | .rd8 f a => natFits f && natFits a
  | .rd16 f a => natFits f && natFits a
  | .rd32 f a => natFits f && natFits a
  | .wr8 f a _ => natFits f && natFits a
  | .wr16 f a _ => natFits f && natFits a
  | .wr32 f a _ => natFits f && natFits a
  | .rd32s a => natFits a
  | .wr32s a _ => natFits a
  | .setWin _ => true
  | .bpRd8 _ => true
  | .bpRd16 _ => true
  | .bpRd32 _ => true
  | .bpWr8 _ _ => true
  | .bpWr16 _ _ => true
  | .bpWr32 _ _ => true
  | .bpRdBlk _ buf n => natFits buf && natFits n
  | .bpWrBlk _ buf n => natFits buf && natFits n
  | .dataRd wbuf n => natFits wbuf && natFits n
  | .dataWr wbuf m => natFits wbuf && natFits m
  | .init => true

end Sys2Proof
end

