-- ==== Sys2Proof/Decode.lean ====
section
/-! DEFINITION. How an operation stands on the host port as a record of 32-bit words, and the decoder and encoder of such
records. The spec gives host operations no bit encoding (30_encoding.md: "they are method calls"); the only bit patterns it
gives are the headers of spec/opcode_table.json (30_encoding.md R97). A record is

* `0, k, operands`: operation number `k` (1 to 26, the rows of the opcode table in order) with its operands in the order of
  30_encoding.md R95, a `Word` in one word, a natural number in two (low word first), a word sequence as its length and its words;
* `h, 0, operands`: the operation whose table row has the header `h`, the fields read from `h`, what `h` does not hold from the
  operand words.

Words of zeros may follow. The layout is the model's own (log 3); among rows that share a header the one with the most fixed
bits wins (log 4). -/

namespace Sys2Proof

/-- Why a record on the host port is no operation. Every one is reported by `Refusal.badRecord` (log 31). -/
inductive DecodeError where
  /-- fewer than two words: neither a header nor an operation number -/
  | noOperation
  /-- a header that is in no row of the opcode table -/
  | unknownHeader (h : Word)
  /-- an operation number beside a header -/
  | headerAndNumber
  /-- an operation number other than 1 to 26 -/
  | unknownOperation (k : Nat)
  /-- an operand word is missing -/
  | truncated
  /-- a word other than zero after the last operand -/
  | trailing
deriving DecidableEq, Repr

/-- One operand word. -/
def takeWord : List Word → Except DecodeError (Word × List Word)
  | [] => .error .truncated
  | w :: r => .ok (w, r)

/-- A natural-number operand: two words, the low one first. -/
def takeNat : List Word → Except DecodeError (Nat × List Word)
  | lo :: hi :: r => .ok (lo.toNat + 2 ^ 32 * hi.toNat, r)
  | _ => .error .truncated

/-- `n` words. -/
def takeWords : Nat → List Word → Except DecodeError (List Word × List Word)
  | 0, r => .ok ([], r)
  | _ + 1, [] => .error .truncated
  | n + 1, w :: r =>
    match takeWords n r with
    | .ok (ws, r') => .ok (w :: ws, r')
    | .error e => .error e

/-- The operands of operation number `k`, in the order of 30_encoding.md R95. -/
def decodeOperands (k : Nat) (r : List Word) : Except DecodeError (Instr × List Word) :=
  match k with
  | 1 => do
    let (n, r) ← takeNat r
    let (ws, r) ← takeWords n r
    return (.tWrite ws, r)
  | 2 => do
    let (n, r) ← takeNat r
    return (.tRead n, r)
  | 3 => return (.tFlush, r)
  | 4 => do
    let (w, r) ← takeNat r
    let (i, r) ← takeNat r
    let (f, r) ← takeNat r
    let (a, r) ← takeNat r
    let (l, r) ← takeNat r
    return (.cwEnc w i f a l, r)
  | 5 => do
    let (c, r) ← takeWord r
    return (.cwDec c, r)
  | 6 => do
    let (x, r) ← takeWord r
    return (.rot16 x, r)
  | 7 => do
    let (f, r) ← takeNat r
    let (a, r) ← takeNat r
    return (.rd8 f a, r)
  | 8 => do
    let (f, r) ← takeNat r
    let (a, r) ← takeNat r
    return (.rd16 f a, r)
  | 9 => do
    let (f, r) ← takeNat r
    let (a, r) ← takeNat r
    return (.rd32 f a, r)
  | 10 => do
    let (f, r) ← takeNat r
    let (a, r) ← takeNat r
    let (v, r) ← takeWord r
    return (.wr8 f a v, r)
  | 11 => do
    let (f, r) ← takeNat r
    let (a, r) ← takeNat r
    let (v, r) ← takeWord r
    return (.wr16 f a v, r)
  | 12 => do
    let (f, r) ← takeNat r
    let (a, r) ← takeNat r
    let (v, r) ← takeWord r
    return (.wr32 f a v, r)
  | 13 => do
    let (a, r) ← takeNat r
    return (.rd32s a, r)
  | 14 => do
    let (a, r) ← takeNat r
    let (v, r) ← takeWord r
    return (.wr32s a v, r)
  | 15 => do
    let (a, r) ← takeWord r
    return (.setWin a, r)
  | 16 => do
    let (a, r) ← takeWord r
    return (.bpRd8 a, r)
  | 17 => do
    let (a, r) ← takeWord r
    return (.bpRd16 a, r)
  | 18 => do
    let (a, r) ← takeWord r
    return (.bpRd32 a, r)
  | 19 => do
    let (a, r) ← takeWord r
    let (v, r) ← takeWord r
    return (.bpWr8 a v, r)
  | 20 => do
    let (a, r) ← takeWord r
    let (v, r) ← takeWord r
    return (.bpWr16 a v, r)
  | 21 => do
    let (a, r) ← takeWord r
    let (v, r) ← takeWord r
    return (.bpWr32 a v, r)
  | 22 => do
    let (a, r) ← takeWord r
    let (buf, r) ← takeNat r
    let (n, r) ← takeNat r
    return (.bpRdBlk a buf n, r)
  | 23 => do
    let (a, r) ← takeWord r
    let (buf, r) ← takeNat r
    let (n, r) ← takeNat r
    return (.bpWrBlk a buf n, r)
  | 24 => do
    let (wbuf, r) ← takeNat r
    let (n, r) ← takeNat r
    return (.dataRd wbuf n, r)
  | 25 => do
    let (wbuf, r) ← takeNat r
    let (m, r) ← takeNat r
    return (.dataWr wbuf m, r)
  | 26 => return (.init, r)
  | _ => .error (.unknownOperation k)

/-- A row of spec/opcode_table.json that has a header pattern: the bits its `encoding` fixes, their values, and the row's
number. -/
structure HeaderRow where
  mask : Word
  pattern : Word
  number : Nat
deriving DecidableEq, Repr

/-- The rows of spec/opcode_table.json with a header, those with the most fixed bits first (log 4). -/
def headerRows : List HeaderRow :=
  [ ⟨0xFFFFF803#32, 0xE0000000#32, 25⟩,   -- DATA.WR
    ⟨0xFFFFF800#32, 0x60000000#32, 24⟩,   -- DATA.RD
    ⟨0xFC001FFF#32, 0x54000004#32, 18⟩,   -- BP.RD32
    ⟨0xFC001FFF#32, 0xD4000004#32, 21⟩,   -- BP.WR32
    ⟨0xFC000FFF#32, 0x50000002#32, 17⟩,   -- BP.RD16
    ⟨0xFC000FFF#32, 0xD0000002#32, 20⟩,   -- BP.WR16
    ⟨0xFC0007FF#32, 0x50000001#32, 16⟩,   -- BP.RD8
    ⟨0xFC0007FF#32, 0xD0000001#32, 19⟩,   -- BP.WR8
    ⟨0xF00007FF#32, 0x40000004#32, 13⟩,   -- RD32S
    ⟨0xF00007FF#32, 0xC0000004#32, 14⟩,   -- WR32S
    ⟨0xC00007FF#32, 0x40000001#32, 7⟩,    -- RD8
    ⟨0xC00007FF#32, 0x40000002#32, 8⟩,    -- RD16
    ⟨0xC00007FF#32, 0x40000004#32, 9⟩,    -- RD32
    ⟨0xC00007FF#32, 0xC0000001#32, 10⟩,   -- WR8
    ⟨0xC00007FF#32, 0xC0000002#32, 11⟩,   -- WR16
    ⟨0xC00007FF#32, 0xC0000004#32, 12⟩,   -- WR32
    ⟨0xFC001800#32, 0x50000000#32, 22⟩,   -- BP.RDBLK
    ⟨0xFC001800#32, 0xD0000000#32, 23⟩ ]  -- BP.WRBLK

/-- The first row of `headerRows` the header fits. -/
def headerNumber (h : Word) : Option Nat :=
  (headerRows.find? fun row => h &&& row.mask == row.pattern).map (·.number)

/-- `function` of a header, `h[29:28]` (30_encoding.md R86). -/
def headerFunction (h : Word) : Nat := (h.extractLsb' 28 2).toNat

/-- `address` of a header, `h[27:11]` (30_encoding.md R86). -/
def headerAddress (h : Word) : Nat := (h.extractLsb' 11 17).toNat

/-- `length` of a header, `h[10:0]` (30_encoding.md R86). -/
def headerLength (h : Word) : Nat := (h.extractLsb' 0 11).toNat

/-- The backplane address with the offset the header carries (default mask, 30_encoding.md R97) in the window the operand word
`top` lies in. -/
def headerBackplane (h top : Word) : Word :=
  (top &&& ~~~Config.defaults.windowMask) ||| (BitVec.ofNat 32 (headerAddress h) &&& Config.defaults.windowMask)

/-- The operation of the table row number `k` with header `h`: operands from the header's fields, the rest from `r`. -/
def decodeHeader (k : Nat) (h : Word) (r : List Word) : Except DecodeError (Instr × List Word) :=
  match k with
  | 7 => return (.rd8 (headerFunction h) (headerAddress h), r)
  | 8 => return (.rd16 (headerFunction h) (headerAddress h), r)
  | 9 => return (.rd32 (headerFunction h) (headerAddress h), r)
  | 10 => do
    let (v, r) ← takeWord r
    return (.wr8 (headerFunction h) (headerAddress h) v, r)
  | 11 => do
    let (v, r) ← takeWord r
    return (.wr16 (headerFunction h) (headerAddress h) v, r)
  | 12 => do
    let (v, r) ← takeWord r
    return (.wr32 (headerFunction h) (headerAddress h) v, r)
  | 13 => return (.rd32s (headerAddress h), r)
  | 14 => do
    let (v, r) ← takeWord r
    return (.wr32s (headerAddress h) v, r)
  | 16 => do
    let (top, r) ← takeWord r
    return (.bpRd8 (headerBackplane h top), r)
  | 17 => do
    let (top, r) ← takeWord r
    return (.bpRd16 (headerBackplane h top), r)
  | 18 => do
    let (top, r) ← takeWord r
    return (.bpRd32 (headerBackplane h top), r)
  | 19 => do
    let (top, r) ← takeWord r
    let (v, r) ← takeWord r
    return (.bpWr8 (headerBackplane h top) v, r)
  | 20 => do
    let (top, r) ← takeWord r
    let (v, r) ← takeWord r
    return (.bpWr16 (headerBackplane h top) v, r)
  | 21 => do
    let (top, r) ← takeWord r
    let (v, r) ← takeWord r
    return (.bpWr32 (headerBackplane h top) v, r)
  | 22 => do
    let (top, r) ← takeWord r
    let (buf, r) ← takeNat r
    return (.bpRdBlk (headerBackplane h top) buf (headerLength h), r)
  | 23 => do
    let (top, r) ← takeWord r
    let (buf, r) ← takeNat r
    return (.bpWrBlk (headerBackplane h top) buf (headerLength h), r)
  | 24 => do
    let (wbuf, r) ← takeNat r
    return (.dataRd wbuf (headerLength h), r)
  | 25 => do
    let (wbuf, r) ← takeNat r
    return (.dataWr wbuf (headerLength h / 4), r)
  | _ => .error (.unknownHeader h)

/-- The operation at the head of a record and the words after it. -/
def decodePrefix : List Word → Except DecodeError (Instr × List Word)
  | h :: k :: r =>
    if k = 0 then
      match headerNumber h with
      | some n => decodeHeader n h r
      | none => .error (.unknownHeader h)
    else if h = 0 then decodeOperands k.toNat r
    else .error .headerAndNumber
  | _ => .error .noOperation

/-- The operation a host-port record stands for, or the reason it stands for none. -/
def decode (record : List Word) : Except DecodeError Instr := do
  let (i, rest) ← decodePrefix record
  if rest.all (· == 0) then return i else throw .trailing

/-- A natural-number operand as two words, the low one first. -/
def natWords (n : Nat) : List Word := [BitVec.ofNat 32 n, BitVec.ofNat 32 (n / 2 ^ 32)]

/-- The operation number: the row of spec/opcode_table.json, counted from 1. -/
def Instr.number : Instr → Nat
  | .tWrite _ => 1
  | .tRead _ => 2
  | .tFlush => 3
  | .cwEnc _ _ _ _ _ => 4
  | .cwDec _ => 5
  | .rot16 _ => 6
  | .rd8 _ _ => 7
  | .rd16 _ _ => 8
  | .rd32 _ _ => 9
  | .wr8 _ _ _ => 10
  | .wr16 _ _ _ => 11
  | .wr32 _ _ _ => 12
  | .rd32s _ => 13
  | .wr32s _ _ => 14
  | .setWin _ => 15
  | .bpRd8 _ => 16
  | .bpRd16 _ => 17
  | .bpRd32 _ => 18
  | .bpWr8 _ _ => 19
  | .bpWr16 _ _ => 20
  | .bpWr32 _ _ => 21
  | .bpRdBlk _ _ _ => 22
  | .bpWrBlk _ _ _ => 23
  | .dataRd _ _ => 24
  | .dataWr _ _ => 25
  | .init => 26

/-- The operand words of an operation. -/
def encodeOperands : Instr → List Word
  | .tWrite ws => natWords ws.length ++ ws
  | .tRead n => natWords n
  | .tFlush => []
  | .cwEnc w i f a l => natWords w ++ natWords i ++ natWords f ++ natWords a ++ natWords l
  | .cwDec c => [c]
  | .rot16 x => [x]
  | .rd8 f a => natWords f ++ natWords a
  | .rd16 f a => natWords f ++ natWords a
  | .rd32 f a => natWords f ++ natWords a
  | .wr8 f a v => natWords f ++ natWords a ++ [v]
  | .wr16 f a v => natWords f ++ natWords a ++ [v]
  | .wr32 f a v => natWords f ++ natWords a ++ [v]
  | .rd32s a => natWords a
  | .wr32s a v => natWords a ++ [v]
  | .setWin a => [a]
  | .bpRd8 a => [a]
  | .bpRd16 a => [a]
  | .bpRd32 a => [a]
  | .bpWr8 a v => [a, v]
  | .bpWr16 a v => [a, v]
  | .bpWr32 a v => [a, v]
  | .bpRdBlk a buf n => a :: (natWords buf ++ natWords n)
  | .bpWrBlk a buf n => a :: (natWords buf ++ natWords n)
  | .dataRd wbuf n => natWords wbuf ++ natWords n
  | .dataWr wbuf m => natWords wbuf ++ natWords m
  | .init => []

/-- The record of an operation: no header, its number, its operands. -/
def encode (i : Instr) : List Word := 0#32 :: BitVec.ofNat 32 i.number :: encodeOperands i

/-- The record with the `nbits` low bits of `w` in its first words (bit 0 of `w` is bit 0 of the first word) and zeros after
them, up to the longest record with a header. -/
def tableRecord (nbits w : Nat) : List Word :=
  (List.range 12).map fun k => BitVec.ofNat 32 ((w % 2 ^ nbits) / 2 ^ (32 * k))

/-- The operation the decoder reads from a word of spec/opcode_table.json. -/
def decodeTableWord (nbits w : Nat) : Option Instr := (decode (tableRecord nbits w)).toOption

end Sys2Proof
end

