-- ==== Sys2Proof/Machine/State.lean ====
section
/-! DEFINITION. The state of GSPI-BM (10_state.md R20), the arguments of its step (10_state.md R46), and the state after
reset (10_state.md R45). -/

namespace Sys2Proof.Machine

/-- An event of the trace (00_scope.md R13). -/
inductive Event where
  /-- the block sets `DIO_OUT` to `b` with `DIO_OE = 1` -/
  | drive (b : Bool)
  /-- `DIO_OE <- 0` -/
  | release
  /-- `DIO_OE <- 1` -/
  | take
  /-- `CLK` 0 to 1 -/
  | rise
  /-- `CLK` 1 to 0 -/
  | fall
  /-- the block reads level `b` from the data line -/
  | sample (b : Bool)
  /-- `PWR <- b` -/
  | pwr (b : Bool)
  /-- `t` nanoseconds pass with no line changing -/
  | wait (t : Nat)
deriving DecidableEq, Repr

/-- The classes of 60_exceptions.md R280. -/
inductive ErrClass where
  | handshake
  | precondition
  | transport
deriving DecidableEq, Repr

/-- The causes of 60_exceptions.md R280, in the order of their codes. -/
inductive ErrCause where
  | timeout
  | patternSwapped
  | magicNormal
  | patternNormal
  | misaligned
  | addressRange
  | lengthRange
  | fieldRange
  /-- reserved: "no rule of this spec raises it" (60_exceptions.md R288) -/
  | transportFailure
deriving DecidableEq, Repr

/-- The `info` of an error record (60_exceptions.md R280, column `info`). -/
inductive ErrInfo where
  /-- the value read -/
  | value (v : Word)
  /-- the address -/
  | address (a : Word)
  /-- the address and the byte count -/
  | addressCount (a : Word) (n : Nat)
  /-- the length -/
  | length (n : Nat)
  /-- the operand that does not fit -/
  | operand (n : Nat)
deriving DecidableEq, Repr

/-- The error record `(class, cause, info)` (60_exceptions.md R280). -/
structure ErrRecord where
  cls : ErrClass
  cause : ErrCause
  info : ErrInfo
deriving DecidableEq, Repr

/-- The sequencer position (10_state.md R28). An operation is one atomic step of the model, which R28 allows, so the
position has two values: no operation runs, or one does (log 2, 29). -/
inductive Seq where
  | idle
  | running
deriving DecidableEq, Repr

/-- What the host does next (10_state.md R46). -/
inductive HostInput where
  /-- present a record on the host port -/
  | request (record : List Word)
  /-- pulse the reset input (70_reset_and_hazards.md R320) between two operations -/
  | reset
  /-- present a record, and pulse the reset input while its operation runs (70_reset_and_hazards.md R345): when the operation has made
  `events` events and `stores` of the host-buffer stores that stand between the last of these and the next; where it makes fewer, right
  after its end (log 23) -/
  | requestThenReset (record : List Word) (events stores : Nat)
deriving DecidableEq, Repr

/-- A sparse host buffer store: pairs of index and value, indices strictly rising, none with the value 0, which is what an
unlisted index reads as (log 16). `Memory 8` is a list of `Host.Cell`. -/
abbrev Memory (w : Nat) := List (Nat × BitVec w)

/-- The whole state. `CLK` to `ERR` are 10_state.md R20; `bytes` to `waitIn` are the host's buffers and the arguments of the step
(10_state.md R33, R46; log 1); `log` to `draws` are the model's own (log 7, 23, 26). -/
structure State where
  /-- `CLK` (R21) -/
  clk : Bool
  /-- `DIO_OUT` (R22) -/
  dioOut : Bool
  /-- `DIO_OE` (R22) -/
  dioOe : Bool
  /-- `DIO_IN` (R23): the levels the device presents at the next samples, the next one first; past the end a free level -/
  dioIn : List Bool
  /-- `PWR` (R24) -/
  pwr : Bool
  /-- `WINDOW` (R25) -/
  window : Word
  /-- `SHREG` (R26) -/
  shreg : Word
  /-- `BITCNT` (R27) -/
  bitcnt : BitVec 6
  /-- `WORDCNT` (R27) -/
  wordcnt : BitVec 10
  /-- `SEQ` (R28) -/
  seq : Seq
  /-- `POLLCNT` (R29) -/
  pollcnt : Nat
  /-- `BUSY` (R30) -/
  busy : Bool
  /-- `OP` (R30): the operation last accepted, also after its end (log 35) -/
  op : Option Instr
  /-- `RESULT` (R30) -/
  result : OpResult
  /-- `ERR` (R30) -/
  err : Option ErrRecord
  /-- the host's byte buffers (R33) -/
  bytes : Memory 8
  /-- the host's word buffers (R33) -/
  words : Memory 32
  /-- the parameters (00_scope.md R7) -/
  params : Params
  /-- what the host presents next, first one first (R46) -/
  inputs : List HostInput
  /-- how much longer than their bounds the next waits last; past the end a free length -/
  waitIn : List Nat
  /-- the events so far, the latest first (00_scope.md R13); `State.trace` is the trace in time order -/
  log : List Event
  /-- the length of the trace after each pulse of the reset input, the latest first (log 23, 26) -/
  resets : List Nat
  /-- samples taken: the index of the next free level -/
  samples : Nat
  /-- waits made: the index of the next free wait -/
  waits : Nat
  /-- the index of the next free value of `RESULT`, `SHREG`, `BITCNT`, `WORDCNT` -/
  draws : Nat
deriving DecidableEq, Repr

/-- No step of GSPI-BM stops with a fault: every error is a report on the host port after which "the block goes on"
(60_exceptions.md R296, R297) and the transport cannot fail (40_transport.md R127). -/
inductive Fault where
deriving DecidableEq, Repr

/-- Why a step has no next state. -/
inductive Refusal where
  /-- raised by `exec`'s arm of an operation that has no meaning yet: safe, the model stops -/
  | notModelled (mnemonic : String)
  /-- raised by every operation while `BUSY = 1`: "The model gives such a request no step (it is refused)" (60_exceptions.md
  R300): safe, the model stops -/
  | requestWhileBusy
  /-- raised by `step` on a host-port record that is no operation; the record layout is the model's own (log 31): safe, the
  model stops -/
  | badRecord (e : DecodeError)
deriving DecidableEq, Repr

/-- The state after reset (10_state.md R45, 70_reset_and_hazards.md R321). `DIO_OUT`, `SHREG`, `BITCNT`, `WORDCNT`, `POLLCNT` and
`RESULT` are unspecified there: DESIGN CHOICE, zero (log 6). The fields that are no state of the block start empty (log 7). -/
def State.reset : State where
  clk := false
  dioOut := false
  dioOe := false
  dioIn := []
  pwr := false
  window := Config.defaults.windowSentinel
  shreg := 0
  bitcnt := 0
  wordcnt := 0
  seq := .idle
  pollcnt := 0
  busy := false
  op := none
  result := .value 0
  err := none
  bytes := []
  words := []
  params := Config.defaults
  inputs := []
  waitIn := []
  log := []
  resets := []
  samples := 0
  waits := 0
  draws := 0

end Sys2Proof.Machine
end

