-- ==== Sys2Proof/Machine/Operands.lean ====
section
/-! DEFINITION. Operand assembly: the CommandWord's fields, the rotation, the split of a backplane address, the chunk plan
of a block, and the packing of bytes into words. All pure functions. -/

namespace Sys2Proof.Machine

/-- `ceil4(n)`: the number of 32-bit words that hold `n` bytes (00_scope.md R9). -/
def ceil4 (n : Nat) : Nat := (n + 3) / 4

/-- `CW(w, i, f, a, l)` (30_encoding.md R85), for field values in range. -/
def cw (w i f a l : Nat) : Word :=
  (BitVec.ofNat 32 w <<< 31) ||| (BitVec.ofNat 32 i <<< 30) ||| (BitVec.ofNat 32 f <<< 28) |||
    (BitVec.ofNat 32 a <<< 11) ||| BitVec.ofNat 32 l

/-- The five fields of a word (30_encoding.md R86, 41_cmdword.md R145). -/
def cwFields (c : Word) : CommandWord where
  write := c.extractLsb' 31 1
  increment := c.extractLsb' 30 1
  function := c.extractLsb' 28 2
  address := c.extractLsb' 11 17
  length := c.extractLsb' 0 11

/-- `ROT16(x)` (41_cmdword.md R148). -/
def rotate16 (x : Word) : Word := (x <<< 16) ||| (x >>> 16)

/-- `window(a)` (20_memory.md R52, 43_window.md R190). -/
def windowOf (p : Params) (a : Word) : Word := a &&& ~~~p.windowMask

/-- `offset(a)` (20_memory.md R52, 43_window.md R190). -/
def offsetOf (p : Params) (a : Word) : Word := a &&& p.windowMask

/-- `window_remaining(a)` (43_window.md R190). -/
def windowRemaining (p : Params) (a : Word) : Nat := p.windowSize - (offsetOf p a).toNat

/-- `top(x)` (43_window.md R191). -/
def topByte (x : Word) : Byte := x.extractLsb' 24 8

/-- `mid(x)` (43_window.md R191). -/
def midByte (x : Word) : Byte := x.extractLsb' 16 8

/-- `low(x)` (43_window.md R191). -/
def lowByte (x : Word) : Byte := x.extractLsb' 8 8

/-- `busaddr(a, n)` (43_window.md R201, 30_encoding.md R98). -/
def busAddr (p : Params) (a : Word) (n : Nat) : Nat :=
  if n = 4 then (offsetOf p a ||| p.access32Flag).toNat else (offsetOf p a).toNat

/-- `t` of a read transaction (30_encoding.md R94): one turnaround word on the backplane function, none elsewhere
(42_function_access.md R162). -/
def turnaround (p : Params) (f : Nat) : Nat := if f = p.fnBackplane then 1 else 0

/-- `trunc_{8n}(v)` as a 32-bit value, for an access of `n` bytes (42_function_access.md R164). -/
def truncBytes (n : Nat) (v : Word) : Word :=
  match n with
  | 1 => (v.setWidth 8).setWidth 32
  | 2 => (v.setWidth 16).setWidth 32
  | _ => v

/-- The chunk length at `addr` with `rem` bytes to move (44_block.md R222). -/
def chunkLength (p : Params) (addr rem : Nat) : Nat :=
  min rem (min p.maxTransferSize (windowRemaining p (BitVec.ofNat 32 addr)))

/-- The chunks of `n` bytes from `addr`, at most `fuel` of them (44_block.md R223). -/
def chunksUpTo (p : Params) : Nat → Nat → Nat → List (Nat × Nat)
  | 0, _, _ => []
  | fuel + 1, addr, n =>
    if n = 0 then []
    else
      let c := chunkLength p addr n
      (addr, c) :: chunksUpTo p fuel (addr + c) (n - c)

/-- `chunks(a, n)` (44_block.md R223): every chunk moves a byte or more, so `n` chunks are enough. -/
def chunks (p : Params) (a n : Nat) : List (Nat × Nat) := chunksUpTo p n a n

/-- Byte `j` of a payload: bits `8*(j & 3) + 7` down to `8*(j & 3)` of word `j >> 2` (44_block.md R225, 20_memory.md R57). -/
def payloadByte (ws : List Word) (j : Nat) : Byte := (ws.getD (j / 4) 0).extractLsb' (8 * (j % 4)) 8

/-- The first `c` bytes of a payload (44_block.md R225). -/
def unpackBytes (ws : List Word) (c : Nat) : List Byte := (List.range c).map (payloadByte ws)

/-- Payload word `m` of the bytes `bs`: byte `4m` in bits 7:0, bytes beyond the end zero (44_block.md R228, R229). -/
def payloadWord (bs : List Byte) (m : Nat) : Word :=
  (bs.getD (4 * m + 3) 0) ++ (bs.getD (4 * m + 2) 0) ++ (bs.getD (4 * m + 1) 0) ++ (bs.getD (4 * m) 0)

/-- The payload words of the bytes `bs` (44_block.md R229). -/
def packBytes (bs : List Byte) : List Word := (List.range (ceil4 bs.length)).map (payloadWord bs)

end Sys2Proof.Machine
end

