-- ==== Sys2Proof/Machine/Flags.lean ====
section
/-! DEFINITION. GSPI-BM has no flag and no condition code (10_state.md R31). What stands here is what takes their place: the
conditions the operations test before any line action (60_exceptions.md R292) and the error records they report (R280). -/

namespace Sys2Proof.Machine

/-- The class of a cause (60_exceptions.md R280). -/
def errClassOf : ErrCause → ErrClass
  | .timeout | .patternSwapped | .magicNormal | .patternNormal => .handshake
  | .misaligned | .addressRange | .lengthRange | .fieldRange => .precondition
  | .transportFailure => .transport

/-- The numeric code of a cause (60_exceptions.md R280). -/
def errCodeOf : ErrCause → Nat
  | .timeout => 0x10
  | .patternSwapped => 0x11
  | .magicNormal => 0x12
  | .patternNormal => 0x13
  | .misaligned => 0x20
  | .addressRange => 0x21
  | .lengthRange => 0x22
  | .fieldRange => 0x23
  | .transportFailure => 0x30

/-- The code the host reads from `ERR`: 0x00 after an operation that completes (60_exceptions.md R280). -/
def errCode : Option ErrRecord → Nat
  | none => 0x00
  | some e => errCodeOf e.cause

/-- The error record of a cause. -/
def errRecord (cause : ErrCause) (info : ErrInfo) : ErrRecord := ⟨errClassOf cause, cause, info⟩

/-- The first of two checks that fails. -/
def firstOf (a b : Option ErrRecord) : Option ErrRecord :=
  match a with
  | some e => some e
  | none => b

/-- `require v <= max else raise Precondition(FieldRange)` (41_cmdword.md R141). -/
def checkField (v max : Nat) : Option ErrRecord :=
  if v ≤ max then none else some (errRecord .fieldRange (.operand v))

/-- The checks of `CW.ENC` (41_cmdword.md R141, R142), in operand order (log 18). -/
def checkCommand (w i f a l : Nat) : Option ErrRecord :=
  firstOf (checkField w 1) (firstOf (checkField i 1) (firstOf (checkField f 3)
    (firstOf (checkField a 0x1FFFF) (checkField l 0x7FF))))

/-- The checks of a function-addressed read: function, then address (42_function_access.md R163). -/
def checkRead (f a : Nat) : Option ErrRecord := firstOf (checkField f 3) (checkField a 0x1FFFF)

/-- The check of a written value against its width of `n` bytes (42_function_access.md R163, 43_window.md R202). -/
def checkValue (n : Nat) (v : Word) : Option ErrRecord := checkField v.toNat (2 ^ (8 * n) - 1)

/-- The checks of a function-addressed write: function, address, value (42_function_access.md R163). -/
def checkWrite (f a n : Nat) (v : Word) : Option ErrRecord := firstOf (checkRead f a) (checkValue n v)

/-- Natural alignment of an `n`-byte backplane access (43_window.md R202, 20_memory.md R61). -/
def checkAligned (n : Nat) (a : Word) : Option ErrRecord :=
  if a.toNat % n = 0 then none else some (errRecord .misaligned (.address a))

/-- The checks of a narrow backplane write: alignment, then value (43_window.md R202, 60_exceptions.md R292). -/
def checkBackplaneWrite (n : Nat) (a v : Word) : Option ErrRecord := firstOf (checkAligned n a) (checkValue n v)

/-- The checks of a block operation: alignment, then address range (44_block.md R221). -/
def checkBlock (a : Word) (n : Nat) : Option ErrRecord :=
  firstOf (if a.extractLsb' 0 2 = 0 then none else some (errRecord .misaligned (.address a)))
    (if a.toNat + n ≤ 2 ^ 32 then none else some (errRecord .addressRange (.addressCount a n)))

/-- The check of a data-path length, in bytes for `DATA.RD` and in words for `DATA.WR`: `1 <= n <= max` (45_datapath.md R243). `info` is the number
checked, for `DATA.WR` the word count `m` and not `4 * m`: DESIGN CHOICE, R280 says "the length" (log 19). -/
def checkLength (n max : Nat) : Option ErrRecord :=
  if 1 ≤ n ∧ n ≤ max then none else some (errRecord .lengthRange (.length n))

end Sys2Proof.Machine
end

