-- ==== Sys2Proof/Machine/Ops.lean ====
section
/-! DEFINITION. The named operations every meaning is made of: the host buffers, the line actions (40_transport.md R110), the two
transport loops (R112, R118), the transaction formats (30_encoding.md R94), the acceptance and the report of an operation
(60_exceptions.md R296), and the reset input (70_reset_and_hazards.md R320). -/

namespace Sys2Proof.Machine

/-! ### Host buffers -/

/-- What index `k` of a host buffer store reads as; an unlisted index reads 0 (log 16). -/
def Memory.read {w : Nat} : Memory w → Nat → BitVec w
  | [], _ => 0
  | (j, v) :: m, k => if j = k then v else Memory.read m k

/-- The store with `v` at index `k`, in canonical form. -/
def Memory.write {w : Nat} : Memory w → Nat → BitVec w → Memory w
  | [], k, v => if v = 0 then [] else [(k, v)]
  | (j, u) :: m, k, v =>
    if k < j then (if v = 0 then (j, u) :: m else (k, v) :: (j, u) :: m)
    else if k = j then (if v = 0 then m else (k, v) :: m)
    else (j, u) :: Memory.write m k v

/-- The store with the values `vs` from index `k` on, stored in increasing index order (10_state.md R33). -/
def Memory.writeList {w : Nat} (m : Memory w) (k : Nat) : List (BitVec w) → Memory w
  | [] => m
  | v :: vs => Memory.writeList (Memory.write m k v) (k + 1) vs

/-- The `n` values from index `k` on. -/
def Memory.readList {w : Nat} (m : Memory w) (k n : Nat) : List (BitVec w) :=
  (List.range n).map fun j => Memory.read m (k + j)

/-- The canonical form: indices strictly rising, no entry that reads as an unlisted index does. -/
abbrev Memory.wf {w : Nat} (m : Memory w) : Prop :=
  m.Pairwise (fun x y => x.1 < y.1) ∧ ∀ c ∈ m, c.2 ≠ 0

/-! ### Line actions -/

/-- The trace: the events in time order (00_scope.md R13). -/
def State.trace (s : State) : List Event := s.log.reverse

/-- The event `e` at the end of the trace (00_scope.md R13). -/
def emit (e : Event) (s : State) : State := { s with log := e :: s.log }

/-- `CLK <- 1` (40_transport.md R110): an event only when the clock was low. -/
def clockHigh (s : State) : State := if s.clk then s else emit .rise { s with clk := true }

/-- `CLK <- 0` (40_transport.md R110): an event only when the clock was high. -/
def clockLow (s : State) : State := if s.clk then emit .fall { s with clk := false } else s

/-- `DIO_OE <- 1` (40_transport.md R110, R113). -/
def takeLine (s : State) : State := if s.dioOe then s else emit .take { s with dioOe := true }

/-- `DIO_OE <- 0` (40_transport.md R110, R116). -/
def releaseLine (s : State) : State := if s.dioOe then emit .release { s with dioOe := false } else s

/-- `DIO_OUT <- b` (40_transport.md R110): with `DIO_OE = 1` an event even when the level stays the same. -/
def driveLine (b : Bool) (s : State) : State :=
  if s.dioOe then emit (.drive b) { s with dioOut := b } else { s with dioOut := b }

/-- The level of `DIO_IN` at the `k`-th sample from now: what `dioIn` prescribes, else a free value (10_state.md R23; log 8). -/
def State.deviceLevel (s : State) (k : Nat) : Bool := (s.dioIn[k]?).getD (Config.freeLevel (s.samples + k))

/-- The level on the data line: `DIO_OUT` when the block drives it, else the device's (10_state.md R22). -/
def State.lineLevel (s : State) : Bool := if s.dioOe then s.dioOut else s.deviceLevel 0

/-- `sample()` (40_transport.md R110): the level on the line; the device's next level is for the next sample. -/
def sampleLine (s : State) : State × Bool :=
  (emit (.sample s.lineLevel) { s with dioIn := s.dioIn.tail, samples := s.samples + 1 }, s.lineLevel)

/-- `PWR <- b` (46_init.md R252): an event even when the level stays the same. -/
def setPower (b : Bool) (s : State) : State := emit (.pwr b) { s with pwr := b }

/-- How long the next `Wait` with the lower bound `least` lasts (46_init.md R252): the excess that `waitIn` prescribes, else a free
one (log 9). -/
def State.waitLength (s : State) (least : Nat) : Nat := least + (s.waitIn.head?).getD (Config.freeWait s.waits)

/-- `Wait(t)` with `t >= least` (46_init.md R252). -/
def waitAtLeast (least : Nat) (s : State) : State :=
  emit (.wait (s.waitLength least)) { s with waitIn := s.waitIn.tail, waits := s.waits + 1 }

/-! ### The transport loops -/

/-- Leaving the loops of a transport call: from here on the values of `SHREG`, `BITCNT` and `WORDCNT` are unspecified
(10_state.md R26, R27): free values, `BITCNT` in its range 0 to 32 (log 11). -/
def leaveLoops (s : State) : State :=
  { s with
    shreg := Config.freeShreg s.draws
    bitcnt := BitVec.ofNat 6 (Config.freeBitcnt s.draws % 33)
    wordcnt := Config.freeWordcnt s.draws
    draws := s.draws + 1 }

/-- `SHREG <- (SHREG << 1) | b`. -/
def shiftIn (b : Bool) (s : State) : State :=
  { s with shreg := (s.shreg <<< 1) ||| (BitVec.ofBool b).setWidth 32 }

/-- One bit-time is done. -/
def countBit (s : State) : State := { s with bitcnt := s.bitcnt + 1 }

/-- One word is done. -/
def countWord (s : State) : State := { s with wordcnt := s.wordcnt + 1 }

/-- One write bit-time (40_transport.md R112, R114): `Drive(SHREG[31])`, `Rise`, `Fall`, shift. -/
def writeBit (s : State) : State :=
  countBit (shiftIn false (clockLow (clockHigh (driveLine s.shreg.msb s))))

/-- `k` write bit-times. -/
def writeBits : Nat → State → State
  | 0, s => s
  | k + 1, s => writeBits k (writeBit s)

/-- The 32 bit-times of a written word (40_transport.md R112). -/
def writeWord (w : Word) (s : State) : State := countWord (writeBits 32 { s with shreg := w, bitcnt := 0 })

/-- The words of a write, with no action between them (40_transport.md R115). -/
def writeWords : List Word → State → State
  | [], s => s
  | w :: ws, s => writeWords ws (writeWord w s)

/-- `T.WRITE ws`, `TxWords(ws)` (40_transport.md R112, R117). -/
def txWords (ws : List Word) (s : State) : State :=
  match ws with
  | [] => s
  | w :: rest => leaveLoops (releaseLine (writeWords (w :: rest) { takeLine s with wordcnt := 0 }))

/-- `b <- sample(); SHREG <- (SHREG << 1) | b` (40_transport.md R118). -/
def sampleShift (s : State) : State := shiftIn (sampleLine s).2 (sampleLine s).1

/-- One read bit-time: `Rise, Sample, Fall` under `RSF` (40_transport.md R120), the other orders as 93_implementation_defined.md U3
spells them out (log 15). -/
def readBit (s : State) : State :=
  match s.params.readFraming with
  | .rsf => countBit (clockLow (sampleShift (clockHigh s)))
  | .sfr => countBit (clockHigh (clockLow (sampleShift s)))
  | .srf => countBit (clockLow (clockHigh (sampleShift s)))

/-- `k` read bit-times. -/
def readBits : Nat → State → State
  | 0, s => s
  | k + 1, s => readBits k (readBit s)

/-- The 32 bit-times of a received word, left in `SHREG` (40_transport.md R118, R121). -/
def readWord (s : State) : State := countWord (readBits 32 { s with shreg := 0, bitcnt := 0 })

/-- `n` received words, each taken from `SHREG` (40_transport.md R118). -/
def readWords : Nat → State → State × List Word
  | 0, s => (s, [])
  | n + 1, s =>
    let s1 := readWord s
    let r := readWords n s1
    (r.1, s1.shreg :: r.2)

/-- The clock edge a read call of framing `SFR` needs before its first bit-time (93_implementation_defined.md U3; log 15). -/
def enterRead (s : State) : State :=
  match s.params.readFraming with
  | .sfr => clockHigh s
  | _ => s

/-- The clock edge a read call of framing `SFR` needs after its last bit-time (93_implementation_defined.md U3; log 15). -/
def leaveRead (s : State) : State :=
  match s.params.readFraming with
  | .sfr => clockLow s
  | _ => s

/-- `T.READ n`, `RxWords(n)` (40_transport.md R118, R122). -/
def rxWords (n : Nat) (s : State) : State × List Word :=
  match n with
  | 0 => (s, [])
  | k + 1 =>
    let r := readWords (k + 1) { enterRead s with wordcnt := 0 }
    (leaveLoops (leaveRead r.1), r.2)

/-! ### Transactions -/

/-- A read transaction (30_encoding.md R94, format `R`): the header, then `t + ceil4(len)` words of which the first `t` are
dropped. The payload words. -/
def readTransaction (f a len : Nat) (s : State) : State × List Word :=
  let t := turnaround s.params f
  let r := rxWords (t + ceil4 len) (txWords [cw 0 1 f a len] s)
  (r.1, r.2.drop t)

/-- A write transaction (30_encoding.md R94, format `W`): header and payload in one `TxWords` call. -/
def writeTransaction (f a len : Nat) (payload : List Word) (s : State) : State :=
  txWords (cw 1 1 f a len :: payload) s

/-- `MemRead(f, a, n)` after its checks (42_function_access.md R161). -/
def memRead (f a n : Nat) (s : State) : State × Word :=
  let r := readTransaction f a n s
  (r.1, r.2.headD 0)

/-- `MemWrite(f, a, n, v)` after its checks (42_function_access.md R165). -/
def memWrite (f a n : Nat) (v : Word) (s : State) : State := writeTransaction f a n [v] s

/-- `RD32S a` after its check (42_function_access.md R175). -/
def memReadRotated (a : Nat) (s : State) : State × Word :=
  let r := rxWords 1 (txWords [rotate16 (cw 0 1 s.params.fnBus a 4)] s)
  (r.1, rotate16 (r.2.headD 0))

/-- `WR32S a, v` after its check (42_function_access.md R176). -/
def memWriteRotated (a : Nat) (v : Word) (s : State) : State :=
  txWords [rotate16 (cw 1 1 s.params.fnBus a 4), rotate16 v] s

/-! ### The host port -/

/-- How an operation ends: with a result, with none, or by `raise` (60_exceptions.md R296). -/
inductive Completion where
  | done (r : OpResult)
  | doneNothing
  | raised (e : ErrRecord)
deriving DecidableEq, Repr

/-- The acceptance of an operation (10_state.md R30). Nothing but the next acceptance and a reset changes `OP`, so it names the operation also
after it has completed or been rejected: DESIGN CHOICE, the spec gives `OP` no value then (log 35). -/
def accept (i : Instr) (s : State) : State := { s with busy := true, op := some i, seq := .running }

/-- The block is idle again and reports `e` in `ERR` (60_exceptions.md R296). -/
def reportErr (e : Option ErrRecord) (s : State) : State := { s with busy := false, seq := .idle, err := e }

/-- `RESULT` takes an unspecified value (60_exceptions.md R296, 93_implementation_defined.md U8): a free value (log 10). -/
def freeResult (s : State) : State := { s with result := Config.freeResult s.draws, draws := s.draws + 1 }

/-- The report of completion and of error, the one way an operation ends (60_exceptions.md R296, R297). Nothing is saved, nothing
is vectored and there is no return from it (R298). -/
def report (c : Completion) (s : State) : State :=
  match c with
  | .done r => reportErr none { s with result := r }
  | .doneNothing => reportErr none (freeResult s)
  | .raised e => reportErr (some e) (freeResult s)

/-- An operation run from acceptance to report (10_state.md R28, R30); refused while `BUSY = 1` (60_exceptions.md R300). -/
def runOp (i : Instr) (body : State → State × Completion) (s : State) : Host.Outcome State Fault Refusal :=
  if s.busy then .refused .requestWhileBusy
  else .next (report (body (accept i s)).2 (body (accept i s)).1)

/-- A body behind its operand checks, which come before any line action (60_exceptions.md R292). -/
def checked (check : Option ErrRecord) (body : State → State × Completion) (s : State) : State × Completion :=
  match check with
  | some e => (s, .raised e)
  | none => body s

/-! ### The reset input -/

/-- The events a reset causes on the lines (10_state.md R45, 70_reset_and_hazards.md R345): the edge to the idle level of each line
that was not idle; in this order by DESIGN CHOICE (log 23). -/
def resetEvents (s : State) : List Event :=
  (if s.clk then [.fall] else []) ++ (if s.dioOe then [.release] else []) ++ (if s.pwr then [.pwr false] else [])

/-- The reset input (70_reset_and_hazards.md R320, R321): the block's state is the reset state; what is no state of the block, the
host's buffers and the arguments of the step among them, stays (log 23). -/
def resetBlock (s : State) : State :=
  let log := (resetEvents s).reverse ++ s.log
  { State.reset with
    dioIn := s.dioIn
    bytes := s.bytes
    words := s.words
    params := s.params
    window := s.params.windowSentinel
    inputs := s.inputs
    waitIn := s.waitIn
    log := log
    resets := log.length :: s.resets
    samples := s.samples
    waits := s.waits
    draws := s.draws }

end Sys2Proof.Machine
end

