-- ==== Sys2Proof/Machine/Window.lean ====
section
/-! DEFINITION. The window unit and narrow backplane access (spec/43_window.md). -/

namespace Sys2Proof.Machine

/-- One line of `SETWIN`: the `WR8` of a window byte to its register, made only when the byte differs from the cached one
(43_window.md R192, R193). -/
def writeWindowByte (reg : Nat) (new cached : Byte) (s : State) : State :=
  if new = cached then s else memWrite s.params.fnBackplane reg 1 (new.setWidth 32) s

/-- `SETWIN(a)` (43_window.md R192): high, mid, low, each compared with the cached byte; then `WINDOW <- window(a)` (R194). -/
def setWindow (a : Word) (s : State) : State :=
  let new := windowOf s.params a
  let s1 := writeWindowByte s.params.regWinHigh (topByte new) (topByte s.window) s
  let s2 := writeWindowByte s.params.regWinMid (midByte new) (midByte s.window) s1
  let s3 := writeWindowByte s.params.regWinLow (lowByte new) (lowByte s.window) s2
  { s3 with window := new }

/-- The two-word messages of `SETWIN`'s byte writes, in order, when the cached window is `cached` (43_window.md R193, R195). -/
def windowWrites (p : Params) (cached a : Word) : List (List Word) :=
  let message (reg : Nat) (new old : Byte) : List (List Word) :=
    if new = old then [] else [[cw 1 1 p.fnBackplane reg 1, new.setWidth 32]]
  message p.regWinHigh (topByte (windowOf p a)) (topByte cached) ++
    message p.regWinMid (midByte (windowOf p a)) (midByte cached) ++
    message p.regWinLow (lowByte (windowOf p a)) (lowByte cached)

/-- A narrow backplane read of `n` bytes: checks, `SETWIN`, one read (43_window.md R202, R204, R210). -/
def readBackplane (a : Word) (n : Nat) : State → State × Completion :=
  checked (checkAligned n a) fun s =>
    let r := memRead s.params.fnBackplane (busAddr s.params a n) n (setWindow a s)
    (r.1, .done (.value (truncBytes n r.2)))

/-- A narrow backplane write of `n` bytes: checks, `SETWIN`, one write (43_window.md R202, R207, R210). -/
def writeBackplane (a : Word) (n : Nat) (v : Word) : State → State × Completion :=
  checked (checkBackplaneWrite n a v) fun s =>
    (memWrite s.params.fnBackplane (busAddr s.params a n) n v (setWindow a s), .doneNothing)

/-- `SETWIN a` (43_window.md R192). -/
def execSetWin (a : Word) (s : State) : Host.Outcome State Fault Refusal :=
  runOp (.setWin a) (fun s => (setWindow a s, .doneNothing)) s

/-- `BP.RD8 a` (43_window.md R204). -/
def execBpRd8 (a : Word) (s : State) : Host.Outcome State Fault Refusal :=
  runOp (.bpRd8 a) (readBackplane a 1) s

/-- `BP.RD16 a` (43_window.md R205). -/
def execBpRd16 (a : Word) (s : State) : Host.Outcome State Fault Refusal :=
  runOp (.bpRd16 a) (readBackplane a 2) s

/-- `BP.RD32 a` (43_window.md R206). -/
def execBpRd32 (a : Word) (s : State) : Host.Outcome State Fault Refusal :=
  runOp (.bpRd32 a) (readBackplane a 4) s

/-- `BP.WR8 a, v` (43_window.md R207). -/
def execBpWr8 (a v : Word) (s : State) : Host.Outcome State Fault Refusal :=
  runOp (.bpWr8 a v) (writeBackplane a 1 v) s

/-- `BP.WR16 a, v` (43_window.md R208). -/
def execBpWr16 (a v : Word) (s : State) : Host.Outcome State Fault Refusal :=
  runOp (.bpWr16 a v) (writeBackplane a 2 v) s

/-- `BP.WR32 a, v` (43_window.md R209). -/
def execBpWr32 (a v : Word) (s : State) : Host.Outcome State Fault Refusal :=
  runOp (.bpWr32 a v) (writeBackplane a 4 v) s

end Sys2Proof.Machine
end

