-- ==== Sys2Proof/Machine/Block.lean ====
section
/-! DEFINITION. Block backplane access (spec/44_block.md): the chunk plan of Operands.lean run chunk by chunk. -/

namespace Sys2Proof.Machine

/-- What one chunk of a block read receives (44_block.md R224, R225): `SETWIN`, the transaction, the `c` bytes of its payload. -/
def receiveChunk (addr c : Nat) (s : State) : State × List Byte :=
  let a := BitVec.ofNat 32 addr
  let r := readTransaction s.params.fnBackplane (offsetOf s.params a).toNat c (setWindow a s)
  (r.1, unpackBytes r.2 c)

/-- One chunk of a block read (44_block.md R224): its bytes go into the buffer from index `dst` on. -/
def readChunk (addr c dst : Nat) (s : State) : State :=
  let r := receiveChunk addr c s
  { r.1 with bytes := Memory.writeList r.1.bytes dst r.2 }

/-- The chunks of a block read, the buffer cursor moving by each chunk's length (44_block.md R224). -/
def readChunks : List (Nat × Nat) → Nat → State → State
  | [], _, s => s
  | (addr, c) :: rest, dst, s => readChunks rest (dst + c) (readChunk addr c dst s)

/-- One chunk of a block write (44_block.md R228): `SETWIN`, then header and packed bytes in one call (R229). -/
def writeChunk (addr c src : Nat) (s : State) : State :=
  let a := BitVec.ofNat 32 addr
  writeTransaction s.params.fnBackplane (offsetOf s.params a).toNat c (packBytes (Memory.readList s.bytes src c)) (setWindow a s)

/-- The chunks of a block write (44_block.md R228). -/
def writeChunks : List (Nat × Nat) → Nat → State → State
  | [], _, s => s
  | (addr, c) :: rest, src, s => writeChunks rest (src + c) (writeChunk addr c src s)

/-- `BP.RDBLK a, buf, n` (44_block.md R224). The bytes are delivered into the buffer; `RESULT` holds no value (10_state.md R30). -/
def execBpRdBlk (a : Word) (buf n : Nat) (s : State) : Host.Outcome State Fault Refusal :=
  runOp (.bpRdBlk a buf n) (checked (checkBlock a n) fun s =>
    (readChunks (chunks s.params a.toNat n) buf s, .doneNothing)) s

/-- `BP.WRBLK a, buf, n` (44_block.md R228). -/
def execBpWrBlk (a : Word) (buf n : Nat) (s : State) : Host.Outcome State Fault Refusal :=
  runOp (.bpWrBlk a buf n) (checked (checkBlock a n) fun s =>
    (writeChunks (chunks s.params a.toNat n) buf s, .doneNothing)) s

end Sys2Proof.Machine
end

