-- ==== Sys2Proof/Machine/CommandUnit.lean ====
section
/-! DEFINITION. Unit U2: `CW.ENC`, `CW.DEC`, `ROT16` (spec/41_cmdword.md). Pure operations: "they produce an empty trace" (R140). -/

namespace Sys2Proof.Machine

/-- `CW.ENC w, i, f, a, l` (41_cmdword.md R141, R142). -/
def execCwEnc (w i f a l : Nat) (s : State) : Host.Outcome State Fault Refusal :=
  runOp (.cwEnc w i f a l) (checked (checkCommand w i f a l) fun s => (s, .done (.value (cw w i f a l)))) s

/-- `CW.DEC c` (41_cmdword.md R145). -/
def execCwDec (c : Word) (s : State) : Host.Outcome State Fault Refusal :=
  runOp (.cwDec c) (fun s => (s, .done (.fields (cwFields c)))) s

/-- `ROT16 x` (41_cmdword.md R148). -/
def execRot16 (x : Word) (s : State) : Host.Outcome State Fault Refusal :=
  runOp (.rot16 x) (fun s => (s, .done (.value (rotate16 x)))) s

end Sys2Proof.Machine
end

