-- ==== Sys2Proof/Machine/DataPath.lean ====
section
/-! DEFINITION. Data-path access (spec/45_datapath.md): one transaction on the data function, address field 0, no window step. -/

namespace Sys2Proof.Machine

/-- `DATA.RD wbuf, n` (45_datapath.md R242). The words are delivered into the buffer; `RESULT` holds no value (10_state.md R30). -/
def execDataRd (wbuf n : Nat) (s : State) : Host.Outcome State Fault Refusal :=
  runOp (.dataRd wbuf n) (checked (checkLength n 2047) fun s =>
    let r := readTransaction s.params.fnData 0 n s
    ({ r.1 with words := Memory.writeList r.1.words wbuf r.2 }, .doneNothing)) s

/-- `DATA.WR wbuf, m` (45_datapath.md R244). -/
def execDataWr (wbuf m : Nat) (s : State) : Host.Outcome State Fault Refusal :=
  runOp (.dataWr wbuf m) (checked (checkLength m 511) fun s =>
    (writeTransaction s.params.fnData 0 (4 * m) (Memory.readList s.words wbuf m) s, .doneNothing)) s

end Sys2Proof.Machine
end

