-- ==== Sys2Proof/Machine/FunctionAccess.lean ====
section
/-! DEFINITION. Function-addressed access (spec/42_function_access.md): one transaction each. -/

namespace Sys2Proof.Machine

/-- A function-addressed read of `n` bytes behind its checks (42_function_access.md R161, R163, R164). -/
def readFunction (f a n : Nat) : State → State × Completion :=
  checked (checkRead f a) fun s =>
    let r := memRead f a n s
    (r.1, .done (.value (truncBytes n r.2)))

/-- A function-addressed write of `n` bytes behind its checks (42_function_access.md R163, R165). -/
def writeFunction (f a n : Nat) (v : Word) : State → State × Completion :=
  checked (checkWrite f a n v) fun s => (memWrite f a n v s, .doneNothing)

/-- `RD8 f, a` (42_function_access.md R166). -/
def execRd8 (f a : Nat) (s : State) : Host.Outcome State Fault Refusal :=
  runOp (.rd8 f a) (readFunction f a 1) s

/-- `RD16 f, a` (42_function_access.md R167). -/
def execRd16 (f a : Nat) (s : State) : Host.Outcome State Fault Refusal :=
  runOp (.rd16 f a) (readFunction f a 2) s

/-- `RD32 f, a` (42_function_access.md R168). -/
def execRd32 (f a : Nat) (s : State) : Host.Outcome State Fault Refusal :=
  runOp (.rd32 f a) (readFunction f a 4) s

/-- `WR8 f, a, v` (42_function_access.md R170). -/
def execWr8 (f a : Nat) (v : Word) (s : State) : Host.Outcome State Fault Refusal :=
  runOp (.wr8 f a v) (writeFunction f a 1 v) s

/-- `WR16 f, a, v` (42_function_access.md R171). -/
def execWr16 (f a : Nat) (v : Word) (s : State) : Host.Outcome State Fault Refusal :=
  runOp (.wr16 f a v) (writeFunction f a 2 v) s

/-- `WR32 f, a, v` (42_function_access.md R172). -/
def execWr32 (f a : Nat) (v : Word) (s : State) : Host.Outcome State Fault Refusal :=
  runOp (.wr32 f a v) (writeFunction f a 4 v) s

/-- `RD32S a` (42_function_access.md R175). -/
def execRd32s (a : Nat) (s : State) : Host.Outcome State Fault Refusal :=
  runOp (.rd32s a) (checked (checkField a 0x1FFFF) fun s =>
    let r := memReadRotated a s
    (r.1, .done (.value r.2))) s

/-- `WR32S a, v` (42_function_access.md R176). -/
def execWr32s (a : Nat) (v : Word) (s : State) : Host.Outcome State Fault Refusal :=
  runOp (.wr32s a v) (checked (checkField a 0x1FFFF) fun s => (memWriteRotated a v s, .doneNothing)) s

end Sys2Proof.Machine
end

