-- ==== Sys2Proof/Machine/Init.lean ====
section
/-! DEFINITION. The bring-up handshake (spec/46_init.md). -/

namespace Sys2Proof.Machine

/-- A step of the handshake: the state after it and the error it raised, if any. -/
abbrev Handshake := State × Option ErrRecord

/-- The next step of the handshake, unless an error was raised (60_exceptions.md R293). -/
def andThen (h : Handshake) (next : State → Handshake) : Handshake :=
  match h.2 with
  | some _ => h
  | none => next h.1

/-- The value read must be `want`, else `raise Handshake(cause)` with the value read (60_exceptions.md R280 to R283). -/
def expectValue (want : Word) (cause : ErrCause) (r : State × Word) : Handshake :=
  if r.2 = want then (r.1, none) else (r.1, some (errRecord cause (.value r.2)))

/-- Before step 1: `WINDOW <- WINDOW_SENTINEL`, `POLLCNT <- 0` (46_init.md R250, R251). -/
def initCache (s : State) : State := { s with window := s.params.windowSentinel, pollcnt := 0 }

/-- Step 1, power (46_init.md R252). -/
def powerPulse (s : State) : State :=
  let s1 := waitAtLeast s.params.tPwrLowMin (setPower false s)
  waitAtLeast s.params.tBootMin (setPower true s1)

/-- One poll (46_init.md R254): the read, then `POLLCNT <- POLLCNT + 1`. -/
def pollOnce (s : State) : State × Word :=
  let r := memReadRotated s.params.regBusTestRo s
  ({ r.1 with pollcnt := r.1.pollcnt + 1 }, r.2)

/-- Step 2, the poll loop (46_init.md R254), with `MAX_POLLS` polls as the bound of the recursion: the test `POLLCNT = MAX_POLLS`
ends it before the bound does whenever `MAX_POLLS >= 1` (00_scope.md R7; log 30). -/
def pollLoop : Nat → State → Handshake
  | 0, s => (s, none)
  | fuel + 1, s =>
    let r := pollOnce s
    if r.2 = r.1.params.magic then (r.1, none)
    else if r.1.pollcnt = r.1.params.maxPolls then (r.1, some (errRecord .timeout (.value r.2)))
    else pollLoop fuel r.1

/-- Step 3, pattern write and read-back in rotated form (46_init.md R255). -/
def patternSwapped (s : State) : Handshake :=
  let s1 := memWriteRotated s.params.regBusTestRw s.params.testPattern s
  expectValue s.params.testPattern .patternSwapped (memReadRotated s1.params.regBusTestRw s1)

/-- Step 4, configure (46_init.md R256). -/
def configure (s : State) : Handshake :=
  (memWriteRotated s.params.regBusCtrl s.params.busCtrlValue s, none)

/-- Step 5, first half: the magic constant in normal form (46_init.md R257). -/
def magicNormal (s : State) : Handshake :=
  expectValue s.params.magic .magicNormal (memRead s.params.fnBus s.params.regBusTestRo 4 s)

/-- Step 5, second half: the test pattern in normal form (46_init.md R257). -/
def patternNormal (s : State) : Handshake :=
  expectValue s.params.testPattern .patternNormal (memRead s.params.fnBus s.params.regBusTestRw 4 s)

/-- The handshake (46_init.md R250). -/
def handshake (s : State) : Handshake :=
  andThen (andThen (andThen (andThen (pollLoop s.params.maxPolls (powerPulse (initCache s)))
    patternSwapped) configure) magicNormal) patternNormal

/-- How the handshake ends the operation (60_exceptions.md R296). -/
def handshakeCompletion : Option ErrRecord → Completion
  | none => .doneNothing
  | some e => .raised e

/-- `INIT` (46_init.md R250). -/
def execInit (s : State) : Host.Outcome State Fault Refusal :=
  runOp .init (fun s => ((handshake s).1, handshakeCompletion (handshake s).2)) s

end Sys2Proof.Machine
end

