-- ==== Sys2Proof/Machine/Transport.lean ====
section
/-! DEFINITION. Unit U1: `T.WRITE`, `T.READ`, `T.FLUSH` (spec/40_transport.md), and the line-level traces of written and received
words (R124). -/

namespace Sys2Proof.Machine

/-- `bits(w)`: `w[31], w[30], ..., w[0]` (40_transport.md R124). -/
def wordBits (w : Word) : List Bool := (List.range 32).map fun j => w.getLsbD (31 - j)

/-- The events of one written word: `Drive(b), Rise, Fall` for each bit (40_transport.md R114, R124). -/
def writtenWordEvents (w : Word) : List Event := (wordBits w).flatMap fun b => [.drive b, .rise, .fall]

/-- The events of one received word: `Rise, Sample(b), Fall` for each bit (40_transport.md R120, R124). -/
def receivedWordEvents (w : Word) : List Event := (wordBits w).flatMap fun b => [.rise, .sample b, .fall]

/-- The trace of `T.WRITE ws` (40_transport.md R124, R117). -/
def txEvents (ws : List Word) : List Event :=
  match ws with
  | [] => []
  | w :: rest => .take :: (w :: rest).flatMap writtenWordEvents ++ [.release]

/-- The trace of a read call that returns the words `rs` (40_transport.md R124). -/
def rxEvents (rs : List Word) : List Event := rs.flatMap receivedWordEvents

/-- The word whose bits, bit 31 first, are the 32 levels from the `k`-th on (40_transport.md R118: "word `k` is `sum over j of b(k, j) <<
(31 - j)`"). -/
def levelsWord (level : Nat → Bool) (k : Nat) : Word :=
  (List.range 32).foldl (fun acc j => (acc <<< 1) ||| (BitVec.ofBool (level (k + j))).setWidth 32) 0

/-- The `n` words the device's next `32 * n` levels make (40_transport.md R118, R121). -/
def State.deviceWords (s : State) (n : Nat) : List Word := (List.range n).map fun k => levelsWord s.deviceLevel (32 * k)

/-- `T.WRITE ws` (40_transport.md R112). -/
def execTWrite (ws : List Word) (s : State) : Host.Outcome State Fault Refusal :=
  runOp (.tWrite ws) (fun s => (txWords ws s, .doneNothing)) s

/-- `T.READ n` (40_transport.md R118); the words are the result (log 20). -/
def execTRead (n : Nat) (s : State) : Host.Outcome State Fault Refusal :=
  runOp (.tRead n) (fun s => ((rxWords n s).1, .done (.words (rxWords n s).2))) s

/-- `T.FLUSH` (40_transport.md R123): "no-op (the link has no buffering)". -/
def execTFlush (s : State) : Host.Outcome State Fault Refusal :=
  runOp .tFlush (fun s => (s, .doneNothing)) s

end Sys2Proof.Machine
end

