-- ==== Sys2Proof/Machine/Dispatch.lean ====
section
/-! DEFINITION. One arm per operation: a direct call of its meaning. -/

namespace Sys2Proof.Machine

def exec (i : Instr) (s : State) : Host.Outcome State Fault Refusal :=
  match i with
  | .tWrite ws => Sys2Proof.Machine.execTWrite ws s
  | .tRead n => Sys2Proof.Machine.execTRead n s
  | .tFlush => Sys2Proof.Machine.execTFlush s
  | .cwEnc w i' f a l => Sys2Proof.Machine.execCwEnc w i' f a l s
  | .cwDec c => Sys2Proof.Machine.execCwDec c s
  | .rot16 x => Sys2Proof.Machine.execRot16 x s
  | .rd8 f a => Sys2Proof.Machine.execRd8 f a s
  | .rd16 f a => Sys2Proof.Machine.execRd16 f a s
  | .rd32 f a => Sys2Proof.Machine.execRd32 f a s
  | .wr8 f a v => Sys2Proof.Machine.execWr8 f a v s
  | .wr16 f a v => Sys2Proof.Machine.execWr16 f a v s
  | .wr32 f a v => Sys2Proof.Machine.execWr32 f a v s
  | .rd32s a => Sys2Proof.Machine.execRd32s a s
  | .wr32s a v => Sys2Proof.Machine.execWr32s a v s
  | .setWin a => Sys2Proof.Machine.execSetWin a s
  | .bpRd8 a => Sys2Proof.Machine.execBpRd8 a s
  | .bpRd16 a => Sys2Proof.Machine.execBpRd16 a s
  | .bpRd32 a => Sys2Proof.Machine.execBpRd32 a s
  | .bpWr8 a v => Sys2Proof.Machine.execBpWr8 a v s
  | .bpWr16 a v => Sys2Proof.Machine.execBpWr16 a v s
  | .bpWr32 a v => Sys2Proof.Machine.execBpWr32 a v s
  | .bpRdBlk a buf n => Sys2Proof.Machine.execBpRdBlk a buf n s
  | .bpWrBlk a buf n => Sys2Proof.Machine.execBpWrBlk a buf n s
  | .dataRd wbuf n => Sys2Proof.Machine.execDataRd wbuf n s
  | .dataWr wbuf m => Sys2Proof.Machine.execDataWr wbuf m s
  | .init => Sys2Proof.Machine.execInit s

end Sys2Proof.Machine
end

