-- ==== Sys2Proof/Machine/ResetInput.lean ====
section
/-! DEFINITION. The reset input while an operation runs (spec/70_reset_and_hazards.md R345): "A reset of the block while `BUSY = 1` abandons
the transaction at an arbitrary bit." What the reset finds is what the operation's events and stores so far have made of the lines, the
environment and the host's buffers; everything else of the block takes its reset value (`resetBlock`, R321). -/

namespace Sys2Proof.Machine

/-- The event `e` as it happens: what it makes of the lines, and what it takes from the environment (00_scope.md R13, R46 of 10_state.md). -/
def happen (e : Event) (s : State) : State :=
  match e with
  | .drive b => emit (.drive b) { s with dioOut := b }
  | .release => emit .release { s with dioOe := false }
  | .take => emit .take { s with dioOe := true }
  | .rise => emit .rise { s with clk := true }
  | .fall => emit .fall { s with clk := false }
  | .sample b => emit (.sample b) { s with dioIn := s.dioIn.tail, samples := s.samples + 1 }
  | .pwr b => emit (.pwr b) { s with pwr := b }
  | .wait t => emit (.wait t) { s with waitIn := s.waitIn.tail, waits := s.waits + 1 }

/-- The events `es` as they happen, one after the other. -/
def happenAll (es : List Event) (s : State) : State := es.foldl (fun s e => happen e s) s

/-- The store when of the values `vs`, which go to index `k` on when `made` events have happened, a reset after `events` events and `stores` stores
leaves those stored before it, in increasing index order (10_state.md R33). That the stores stand after all events that receive the values is
DEDUCED from the order of the pseudocode (log 23). -/
def Memory.writeUntil {w : Nat} (m : Memory w) (k : Nat) (vs : List (BitVec w)) (made events stores : Nat) : Memory w :=
  Memory.writeList m k (if made < events then vs else if made = events then vs.take stores else [])

/-- The host's bytes when a reset stops the chunks of a block read (44_block.md R224): the bytes of every chunk whose stores came before it. -/
def chunksUntil (events stores : Nat) : List (Nat × Nat) → Nat → State → Memory 8
  | [], _, s => s.bytes
  | (addr, c) :: rest, dst, s =>
    let r := receiveChunk addr c s
    if r.1.log.length < events then chunksUntil events stores rest (dst + c) (readChunk addr c dst s)
    else Memory.writeUntil s.bytes dst r.2 r.1.log.length events stores

/-- The host's bytes when a reset stops the operation `i` where the trace has `events` events and `stores` stores have followed the last: only
`BP.RDBLK` stores bytes (10_state.md R33). -/
def bytesUntil (i : Instr) (events stores : Nat) (s : State) : Memory 8 :=
  match i with
  | .bpRdBlk a buf n =>
    if checkBlock a n = none then chunksUntil events stores (chunks s.params a.toNat n) buf (accept i s) else s.bytes
  | _ => s.bytes

/-- The host's words when a reset stops the operation `i`: only `DATA.RD` stores words (10_state.md R33, 45_datapath.md R242). -/
def wordsUntil (i : Instr) (events stores : Nat) (s : State) : Memory 32 :=
  match i with
  | .dataRd wbuf n =>
    if checkLength n 2047 = none then
      let r := readTransaction s.params.fnData 0 n (accept i s)
      Memory.writeUntil s.words wbuf r.2 r.1.log.length events stores
    else s.words
  | _ => s.words

/-- What a reset finds after the first `events` events of the operation `i` and `stores` of the stores that follow, where `t` is the state the operation
would have ended in (log 23). -/
def stopped (i : Instr) (events stores : Nat) (s t : State) : State :=
  { happenAll ((t.trace.drop s.trace.length).take events) s with
    bytes := bytesUntil i (s.log.length + events) stores s
    words := wordsUntil i (s.log.length + events) stores s
    draws := t.draws }

/-- The operation `i`, stopped by the reset input (60_exceptions.md R301: "The only way to stop an operation is a reset of the block";
70_reset_and_hazards.md R345): the part of it that has happened stays happened, and the block is reset (R321). -/
def execThenReset (i : Instr) (events stores : Nat) (s : State) : Host.Outcome State Fault Refusal :=
  match exec i s with
  | .next t => .next (resetBlock (stopped i events stores s t))
  | .fault f => .fault f
  | .refused r => .refused r

end Sys2Proof.Machine
end

