-- ==== Sys2Proof/Machine/Step.lean ====
section
/-! DEFINITION. One step: the block takes what the host presents next. -/

namespace Sys2Proof.Machine

/-- One step. With nothing presented the block "waits with `BUSY = 0` for the host's first operation" (70_reset_and_hazards.md
R323; log 27); a pulse of the reset input resets it (R320); a record on the host port is decoded and its operation run to completion
or abort (10_state.md R28, R30; 60_exceptions.md R301), or until the reset input stops it (70_reset_and_hazards.md R345). -/
def step (s : State) : Host.Outcome State Fault Refusal :=
  match s.inputs with
  | [] => .next s
  | .reset :: rest => .next (resetBlock { s with inputs := rest })
  | .request record :: rest =>
    match decode record with
    | .ok i => exec i { s with inputs := rest }
    | .error e => .refused (.badRecord e)
  | .requestThenReset record events stores :: rest =>
    match decode record with
    | .ok i => execThenReset i events stores { s with inputs := rest }
    | .error e => .refused (.badRecord e)

/-- The state with the record of an opcode-table word presented next on the host port: the step's fetch reads the head of
`inputs` (log 5). -/
def State.withFetchWord (s : State) (nbits w : Nat) : State :=
  { s with inputs := .request (tableRecord nbits w) :: s.inputs }

end Sys2Proof.Machine
end

