-- ==== Sys2Proof/Safety.lean ====
section
/-! DEFINITION. What claims about GSPI-BM are stated in: the idle block, the wire discipline a legal trace keeps, the invariant every
step keeps, how an operation ends, and what it leaves unchanged. -/

namespace Sys2Proof.Machine

/-! ### The idle block -/

/-- "Whenever `BUSY = 0`": `CLK = 0`, `DIO_OE = 0`, `SEQ` idle (10_state.md R34). -/
def Quiet (s : State) : Prop := s.busy = false ∧ s.clk = false ∧ s.dioOe = false ∧ s.seq = .idle

/-- The legal values of `WINDOW` (10_state.md R25): the sentinel, or a value with the masked bits zero. -/
def WindowLegal (s : State) : Prop := s.window = s.params.windowSentinel ∨ s.window &&& s.params.windowMask = 0

/-! ### The wire discipline -/

/-- The lines as a reader of the trace knows them: the clock, the block's hold on the data line, whether this bit-time's data action has
happened, and the pulses made of the current word. -/
structure Wire where
  clk : Bool
  oe : Bool
  fresh : Bool
  bits : Nat
deriving DecidableEq, Repr

/-- The idle wire: clock low, data line released, no word begun (10_state.md R34). -/
def Wire.idle : Wire := ⟨false, false, false, 0⟩

/-- One event on the wire, if the discipline allows it: `Take` and `Release` between words with the clock low; in a write one `Drive`, then
`Rise`, then `Fall` (40_transport.md R114); in a read `Rise`, one `Sample`, then `Fall` (R120); 32 pulses a word (R125); power changes and
waits on the idle wire only (46_init.md R252). -/
def wireStep (w : Wire) (e : Event) : Option Wire :=
  match e with
  | .take => if !w.clk && !w.oe && !w.fresh && w.bits == 0 then some { w with oe := true } else none
  | .release => if !w.clk && w.oe && !w.fresh && w.bits == 0 then some { w with oe := false } else none
  | .drive _ => if !w.clk && w.oe && !w.fresh then some { w with fresh := true } else none
  | .rise => if !w.clk && w.fresh == w.oe then some { w with clk := true } else none
  | .sample _ => if w.clk && !w.oe && !w.fresh then some { w with fresh := true } else none
  | .fall => if w.clk && w.fresh then some ⟨false, w.oe, false, (w.bits + 1) % 32⟩ else none
  | .pwr _ => if w == Wire.idle then some w else none
  | .wait _ => if w == Wire.idle then some w else none

/-- A list of events on the wire, if the discipline allows every one of them. -/
def wireRun (w : Wire) : List Event → Option Wire
  | [] => some w
  | e :: es =>
    match wireStep w e with
    | some w' => wireRun w' es
    | none => none

/-- The edges with which a reset returns lines at these levels to their idle level (10_state.md R45, 70_reset_and_hazards.md R345);
their order is a DESIGN CHOICE (log 23). -/
def idleEdges (clk oe pwr : Bool) : List Event :=
  (if clk then [.fall] else []) ++ (if oe then [.release] else []) ++ (if pwr then [.pwr false] else [])

/-- A trace that the resets cut after the lengths `resets`, the latest first: from the start and from every reset on it is work that keeps the wire
discipline and leaves the wire idle; a reset may stop such work after any event (70_reset_and_hazards.md R345), and then only the edges that return
the lines to idle follow it, in the order the model chose (log 23). After the latest reset nothing is cut: no word is partial. -/
inductive Disciplined : List Nat → List Event → Prop
  | start : Disciplined [] []
  | work {resets : List Nat} {es fs : List Event} :
      Disciplined resets es → wireRun Wire.idle fs = some Wire.idle → Disciplined resets (es ++ fs)
  | reset {resets : List Nat} {es fs : List Event} {w : Wire} (pwr : Bool) :
      Disciplined resets es → wireRun Wire.idle fs = some w →
        Disciplined ((es ++ fs ++ idleEdges w.clk w.oe pwr).length :: resets) (es ++ fs ++ idleEdges w.clk w.oe pwr)

/-- The trace so far keeps the wire discipline between resets and leaves the wire idle. -/
def WireDisciplined (s : State) : Prop := Disciplined s.resets s.trace

/-- The clock edges among events (40_transport.md R125). -/
def clockEdges (es : List Event) : List Event := es.filter fun e => e == .rise || e == .fall

/-- The line actions that are neither `Take` nor `Release` (40_transport.md R115). -/
def withoutHold (es : List Event) : List Event := es.filter fun e => e != .take && e != .release

/-! ### The invariant -/

/-- What every step keeps: parameters within their constraints and the normative framing (00_scope.md R7), the idle block (10_state.md
R34), a legal window (R25), `BITCNT` in its range (R27), canonical host buffers, a trace disciplined between resets (log 23), and an error
report of a cause that some rule raises, with that cause's class (60_exceptions.md R280, R288). -/
structure Inv (s : State) : Prop where
  params : s.params.Wf
  framing : s.params.readFraming = .rsf
  quiet : Quiet s
  window : WindowLegal s
  bitcnt : s.bitcnt.toNat ≤ 32
  bytes : Memory.wf s.bytes
  words : Memory.wf s.words
  wire : WireDisciplined s
  err : ∀ e, s.err = some e → e.cls = errClassOf e.cause ∧ e.cause ≠ .transportFailure

/-! ### How an operation ends -/

/-- An operation has completed: the block is idle and reports no error (60_exceptions.md R296). -/
def Completed (t : State) : Prop := Quiet t ∧ t.err = none

/-- An operation has ended with an error, and the block is idle (60_exceptions.md R296, R297). -/
def Reported (cause : ErrCause) (info : ErrInfo) (t : State) : Prop :=
  Quiet t ∧ t.err = some ⟨errClassOf cause, cause, info⟩

/-! ### What an operation leaves unchanged -/

/-- The level of the last `Drive` among events, or `b` if there is none (40_transport.md R116). -/
def lastDriven (b : Bool) (es : List Event) : Bool :=
  es.foldl (fun b e => match e with | .drive c => c | _ => b) b

/-- The clock after the events `es`, `clk` before them (00_scope.md R13). -/
def clockAfter (clk : Bool) (es : List Event) : Bool :=
  es.foldl (fun b e => match e with | .rise => true | .fall => false | _ => b) clk

/-- Whether the block holds the data line after the events `es` (00_scope.md R13). -/
def heldAfter (oe : Bool) (es : List Event) : Bool :=
  es.foldl (fun b e => match e with | .take => true | .release => false | _ => b) oe

/-- `PWR` after the events `es` (00_scope.md R13). -/
def powerAfter (pwr : Bool) (es : List Event) : Bool :=
  es.foldl (fun b e => match e with | .pwr c => c | _ => b) pwr

/-- How many of the events `es` are samples. -/
def sampleCount (es : List Event) : Nat := es.countP fun e => match e with | .sample _ => true | _ => false

/-- From `s` to `t` exactly the events `es` happened on the lines, among them `n` samples: the trace, `DIO_OUT` and the device's coming levels
say so. -/
def Exchange (s t : State) (es : List Event) (n : Nat) : Prop :=
  t.trace = s.trace ++ es ∧ t.dioOut = lastDriven s.dioOut es ∧ t.dioIn = s.dioIn.drop n ∧ t.samples = s.samples + n

/-- No line, no transport register and no event: an operation with an empty trace (60_exceptions.md R292). -/
def KeepsTransport (s t : State) : Prop :=
  t.clk = s.clk ∧ t.dioOut = s.dioOut ∧ t.dioOe = s.dioOe ∧ t.dioIn = s.dioIn ∧ t.shreg = s.shreg ∧ t.bitcnt = s.bitcnt ∧
    t.wordcnt = s.wordcnt ∧ t.trace = s.trace ∧ t.samples = s.samples

/-- What no operation but `INIT` changes (46_init.md R262): `PWR` and `POLLCNT`, the waits, and, with every operation, the parameters and
what the host presents next. -/
def KeepsOutside (s t : State) : Prop :=
  t.pwr = s.pwr ∧ t.pollcnt = s.pollcnt ∧ t.params = s.params ∧ t.inputs = s.inputs ∧ t.waitIn = s.waitIn ∧ t.waits = s.waits

/-- Every host byte reads as before (10_state.md R33). -/
def KeepsBytes (s t : State) : Prop := ∀ k, Memory.read t.bytes k = Memory.read s.bytes k

/-- Every host word reads as before (10_state.md R33). -/
def KeepsWords (s t : State) : Prop := ∀ k, Memory.read t.words k = Memory.read s.words k

/-- The frame of an operation on the link that stores nothing and leaves the window alone. -/
def KeepsRest (s t : State) : Prop := KeepsOutside s t ∧ KeepsBytes s t ∧ KeepsWords s t ∧ t.window = s.window

/-! ### The expected traffic of the operations that repeat transactions -/

/-- The events of `SETWIN`'s byte writes (43_window.md R192, R193). -/
def windowEvents (p : Params) (cached a : Word) : List Event := (windowWrites p cached a).flatMap txEvents

/-- The events of the chunks of a block write whose bytes are `byte i`, from cursor `cur` on (44_block.md R228). -/
def blockWriteEvents (p : Params) (byte : Nat → Byte) : Word → Nat → List (Nat × Nat) → List Event
  | _, _, [] => []
  | cached, cur, (addr, c) :: rest =>
    let a := BitVec.ofNat 32 addr
    windowEvents p cached a ++
      txEvents (cw 1 1 p.fnBackplane (offsetOf p a).toNat c :: packBytes ((List.range c).map fun j => byte (cur + j))) ++
      blockWriteEvents p byte (windowOf p a) (cur + c) rest

/-- The words the device's levels make from word `k` on (40_transport.md R118). -/
def wordsFrom (level : Nat → Bool) (k n : Nat) : List Word := (List.range n).map fun j => levelsWord level (32 * (k + j))

/-- The events of the chunks of a block read, when `k` words have been received before (44_block.md R224, R226). -/
def blockReadEvents (p : Params) (level : Nat → Bool) : Word → Nat → List (Nat × Nat) → List Event
  | _, _, [] => []
  | cached, k, (addr, c) :: rest =>
    let a := BitVec.ofNat 32 addr
    windowEvents p cached a ++ txEvents [cw 0 1 p.fnBackplane (offsetOf p a).toNat c] ++
      rxEvents (wordsFrom level k (1 + ceil4 c)) ++
      blockReadEvents p level (windowOf p a) (k + (1 + ceil4 c)) rest

/-- The bytes the chunks of a block read deliver, in order, when `k` words have been received before: of each chunk the first word is
dropped (44_block.md R225, R226). -/
def blockReadBytes (level : Nat → Bool) : Nat → List (Nat × Nat) → List Byte
  | _, [] => []
  | k, (_, c) :: rest =>
    unpackBytes ((wordsFrom level k (1 + ceil4 c)).drop 1) c ++ blockReadBytes level (k + (1 + ceil4 c)) rest

/-- The words the chunks of a block read receive (44_block.md R226). -/
def blockReadCount : List (Nat × Nat) → Nat
  | [] => 0
  | (_, c) :: rest => (1 + ceil4 c) + blockReadCount rest

/-- The window after a block (44_block.md R231): that of the last chunk, unchanged when there is none. -/
def blockWindow (p : Params) (cached : Word) : List (Nat × Nat) → Word
  | [] => cached
  | (addr, _) :: rest => blockWindow p (windowOf p (BitVec.ofNat 32 addr)) rest

/-- The traffic of a rotated read of a register: the header's rotation sent, `w` received (42_function_access.md R175). -/
def rotatedReadEvents (p : Params) (reg : Nat) (w : Word) : List Event :=
  txEvents [rotate16 (cw 0 1 p.fnBus reg 4)] ++ rxEvents [w]

/-- The traffic of a rotated write of a register (42_function_access.md R176). -/
def rotatedWriteEvents (p : Params) (reg : Nat) (v : Word) : List Event :=
  txEvents [rotate16 (cw 1 1 p.fnBus reg 4), rotate16 v]

/-- The traffic of a read of a register of `FN_BUS` in normal form (42_function_access.md R168). -/
def busReadEvents (p : Params) (reg : Nat) (w : Word) : List Event := txEvents [cw 0 1 p.fnBus reg 4] ++ rxEvents [w]

/-- Step 1 of `INIT` (46_init.md R252) with the waits `t1` and `t2`. -/
def powerEvents (t1 t2 : Nat) : List Event := [.pwr false, .wait t1, .pwr true, .wait t2]

/-- The traffic of the polls that receive the words `rs` (46_init.md R254). -/
def pollEvents (p : Params) (rs : List Word) : List Event := rs.flatMap (rotatedReadEvents p p.regBusTestRo)

end Sys2Proof.Machine
end

