-- ==== Sys2Proof/Certificates/Slice0/Obligations.lean ====
section
/-! DEFINITION. The statements about GSPI-BM, one definition each. Each docstring names the rule of spec/ it formalises, or the log entry for
what is the model's choice. A statement about a read supposes the normative framing `RSF` (40_transport.md R120; log 15). -/

open Sys2Proof Sys2Proof.Machine

/-! ### Reset, step, host port -/

/-- 70_reset_and_hazards.md R321: the items that rule gives a value. -/
def Obligations.ResetLeavesStatedValues : Prop :=
  State.reset.window = State.reset.params.windowSentinel ∧ State.reset.clk = false ∧ State.reset.dioOe = false ∧
    State.reset.pwr = false ∧ State.reset.busy = false ∧ State.reset.err = none ∧ State.reset.seq = .idle

/-- 70_reset_and_hazards.md R320, R321, R345: a pulse of the reset input leaves those values, in any state and also
while an operation runs. Then the operation's events up to the reset stay happened, the edges that return the lines to idle follow them, and
of the bytes and words the operation stores the first ones are stored, all of them when it had ended before. What else stays (the
parameters, the host's buffers, what the host presents after it, the device's later levels) and the order of the edges are the model's
choice (log 23). -/
def Obligations.ResetInputResetsBlock : Prop :=
  (∀ (s : State) (rest : List HostInput), s.inputs = .reset :: rest →
    ∃ t, step s = .next t ∧ t.window = s.params.windowSentinel ∧ Quiet t ∧ t.pwr = false ∧ t.err = none ∧
      t.trace = s.trace ++ idleEdges s.clk s.dioOe s.pwr ∧
      t.params = s.params ∧ t.inputs = rest ∧ KeepsBytes s t ∧ KeepsWords s t ∧ t.dioIn = s.dioIn) ∧
  ∀ (s : State) (record : List Word) (events stores : Nat) (rest : List HostInput) (i : Instr),
    s.inputs = .requestThenReset record events stores :: rest → decode record = .ok i → s.busy = false →
    Memory.wf s.bytes → Memory.wf s.words →
    ∃ t u es, exec i { s with inputs := rest } = .next u ∧ u.trace = s.trace ++ es ∧ step s = .next t ∧
      t.window = s.params.windowSentinel ∧ Quiet t ∧ t.pwr = false ∧ t.err = none ∧
      t.trace = s.trace ++ es.take events ++ idleEdges (clockAfter s.clk (es.take events)) (heldAfter s.dioOe (es.take events))
        (powerAfter s.pwr (es.take events)) ∧
      t.params = s.params ∧ t.inputs = rest ∧ t.dioIn = s.dioIn.drop (sampleCount (es.take events)) ∧
      (∃ n, ∀ k, Memory.read t.bytes k = Memory.read (if k < n then u.bytes else s.bytes) k) ∧
      (∃ n, ∀ k, Memory.read t.words k = Memory.read (if k < n then u.words else s.words) k) ∧
      (es.length < events → KeepsBytes u t ∧ KeepsWords u t)

/-- 70_reset_and_hazards.md R323: with nothing presented the block waits (log 27). -/
def Obligations.StepWaitsForHost : Prop := ∀ s : State, s.inputs = [] → step s = .next s

/-- 10_state.md R28, R30: a step takes the record the host presents and runs the operation it stands for; the record is gone from
`inputs`. -/
def Obligations.StepRunsPresentedOperation : Prop :=
  ∀ (s : State) (record : List Word) (rest : List HostInput) (i : Instr),
    s.inputs = .request record :: rest → decode record = .ok i → step s = exec i { s with inputs := rest }

/-- 60_exceptions.md R300: a request while `BUSY = 1` has no step. -/
def Obligations.BusyRequestIsRefused : Prop :=
  ∀ (i : Instr) (s : State), s.busy = true → exec i s = .refused .requestWhileBusy

/-- 60_exceptions.md R297, R301: an accepted operation runs to completion or to its own report, and the block is ready for the next. That `op` still
names it is the model's choice (log 35). -/
def Obligations.EveryOperationEndsReady : Prop :=
  ∀ (i : Instr) (s : State), s.busy = false →
    ∃ t, exec i s = .next t ∧ t.busy = false ∧ t.seq = .idle ∧ t.op = some i

/-- 30_encoding.md R95 in the record layout of log 3: decoding what was encoded gives the operation back, every operand at every value the layout
admits. -/
def Obligations.DecodeOfEncodeIsIdentity : Prop := ∀ i : Instr, i.wellFormed = true → decode (encode i) = .ok i

/-- Header words of 30_encoding.md R97 and records in the layout of log 3, written out by hand, decode to what they stand for. -/
def Obligations.DecodeReadsHandWrittenWords : Prop :=
  decode [0x40000801#32, 0#32] = .ok (.rd8 0 0x00001) ∧
    decode [0xD8006001#32, 0#32, 0x18#32] = .ok (.wr8 1 0x1000C 0x18#32) ∧
    decode [0x53FFF801#32, 0#32, 0xFFFF8000#32] = .ok (.bpRd8 0xFFFFFFFF#32) ∧
    decode [0x6000000A#32, 0#32, 7#32, 0#32] = .ok (.dataRd 7 10) ∧
    decode [0#32, 15#32, 0x18008004#32] = .ok (.setWin 0x18008004#32) ∧
    decode [0#32, 26#32] = .ok .init

/-! ### The invariant -/

/-- The state after reset meets the invariant. -/
def Obligations.ResetMeetsInvariant : Prop := Inv State.reset

/-- Every step keeps the invariant: parameters and framing, the idle block of 10_state.md R34, a legal `WINDOW` (R25), `BITCNT` in its
range (R27), canonical host buffers, a trace that keeps the wire discipline (40_transport.md R114, R120, R125) from each reset to the next, which may
cut it after any event (70_reset_and_hazards.md R345), and no `Transport(Failure)` (60_exceptions.md R288). That the edges a reset causes
come in the order `Fall`, `Release`, `Pwr(0)` is the model's choice (log 23): neither R345 nor 10_state.md R45 orders them. -/
def Obligations.StepKeepsInvariant : Prop := ∀ s t : State, Inv s → step s = .next t → Inv t

/-! ### Unit U1, the transport -/

/-- 40_transport.md R112, R117. -/
def Obligations.TransportWriteEmitsBitTimes : Prop :=
  ∀ (ws : List Word) (s : State), Quiet s →
    ∃ t, exec (.tWrite ws) s = .next t ∧ Completed t ∧ Exchange s t (txEvents ws) 0 ∧ KeepsRest s t ∧
      (ws = [] → KeepsTransport s t)

/-- 40_transport.md R118, R121, R122: the `j`-th level of the `k`-th group of 32 is bit `31 - j` of word `k`. (`RESULT` as a list: log 20.) -/
def Obligations.TransportReadReturnsSampledWords : Prop :=
  ∀ (n : Nat) (s : State), Quiet s → s.params.readFraming = .rsf →
    ∃ t ws, exec (.tRead n) s = .next t ∧ Completed t ∧ t.result = .words ws ∧ ws.length = n ∧
      (∀ k < n, ∀ j < 32, (ws.getD k 0).getLsbD (31 - j) = s.deviceLevel (32 * k + j)) ∧
      Exchange s t (rxEvents ws) (32 * n) ∧ KeepsRest s t ∧ (n = 0 → KeepsTransport s t)

/-- 40_transport.md R123. -/
def Obligations.FlushHasNoEffectOnLink : Prop :=
  ∀ s : State, Quiet s → ∃ t, exec .tFlush s = .next t ∧ Completed t ∧ KeepsTransport s t ∧ KeepsRest s t

/-- 40_transport.md R115: apart from `Take` and `Release`, one write of `xs ++ ys` has the line actions of a write of `xs` and a write of
`ys`. -/
def Obligations.SplitWriteHasSameLineActions : Prop :=
  ∀ (xs ys : List Word) (s : State), Quiet s →
    ∃ t u v es fs, exec (.tWrite (xs ++ ys)) s = .next t ∧ exec (.tWrite xs) s = .next u ∧ exec (.tWrite ys) u = .next v ∧
      t.trace = s.trace ++ es ∧ v.trace = s.trace ++ fs ∧ withoutHold es = withoutHold fs

/-- 40_transport.md R125: `s` words sent and `r` words received are exactly `32 * (s + r)` pulses, `Rise` and `Fall` in turn. -/
def Obligations.TransactionHasExactPulses : Prop :=
  ∀ (f a len : Nat) (payload : List Word) (s : State), Quiet s → s.params.readFraming = .rsf →
    (∃ es, (writeTransaction f a len payload s).trace = s.trace ++ es ∧
      clockEdges es = (List.replicate (32 * (1 + payload.length)) [Event.rise, Event.fall]).flatten) ∧
    (∃ es, (readTransaction f a len s).1.trace = s.trace ++ es ∧
      clockEdges es =
        (List.replicate (32 * (1 + (turnaround s.params f + ceil4 len))) [Event.rise, Event.fall]).flatten)

/-! ### Unit U2, the command-word unit -/

/-- 41_cmdword.md R141, R142: with `w` and `i` "one bit each", the encoder's answer, or the report of the first of `f`, `a`, `l` that does not
fit. -/
def Obligations.EncoderAssemblesOrRejects : Prop :=
  ∀ (w i f a l : Nat) (s : State), Quiet s → w ≤ 1 → i ≤ 1 →
    ∃ t, exec (.cwEnc w i f a l) s = .next t ∧ KeepsTransport s t ∧ KeepsRest s t ∧
      if 3 < f then Reported .fieldRange (.operand f) t
      else if 0x1FFFF < a then Reported .fieldRange (.operand a) t
      else if 0x7FF < l then Reported .fieldRange (.operand l) t
      else Completed t ∧
        t.result = .value (BitVec.ofNat 32 (w * 2 ^ 31 + i * 2 ^ 30 + f * 2 ^ 28 + a * 2 ^ 11 + l))

/-- 41_cmdword.md R145: `c[31]`, `c[30]`, `c[29:28]`, `c[27:11]`, `c[10:0]`. -/
def Obligations.DecoderExtractsFields : Prop :=
  ∀ (c : Word) (s : State), Quiet s →
    ∃ t r, exec (.cwDec c) s = .next t ∧ Completed t ∧ KeepsTransport s t ∧ KeepsRest s t ∧ t.result = .fields r ∧
      r.write.toNat = c.toNat / 2 ^ 31 ∧ r.increment.toNat = c.toNat / 2 ^ 30 % 2 ∧ r.function.toNat = c.toNat / 2 ^ 28 % 4 ∧
      r.address.toNat = c.toNat / 2 ^ 11 % 2 ^ 17 ∧ r.length.toNat = c.toNat % 2 ^ 11

/-- 41_cmdword.md R143: encoding then decoding reproduces the fields. -/
def Obligations.EncodeThenDecodeFields : Prop :=
  ∀ (w i f a l : Nat) (s : State), Quiet s → w ≤ 1 → i ≤ 1 → f ≤ 3 → a ≤ 0x1FFFF → l ≤ 0x7FF →
    ∃ t c u r, exec (.cwEnc w i f a l) s = .next t ∧ t.result = .value c ∧ exec (.cwDec c) t = .next u ∧ u.result = .fields r ∧
      r.write.toNat = w ∧ r.increment.toNat = i ∧ r.function.toNat = f ∧ r.address.toNat = a ∧ r.length.toNat = l

/-- 41_cmdword.md R144: decoding then encoding reproduces the word, and two valid tuples that encode to one word are one tuple. -/
def Obligations.DecodeThenEncodeWord : Prop :=
  (∀ (c : Word) (s : State), Quiet s →
    ∃ t r u, exec (.cwDec c) s = .next t ∧ t.result = .fields r ∧
      exec (.cwEnc r.write.toNat r.increment.toNat r.function.toNat r.address.toNat r.length.toNat) t = .next u ∧ u.err = none ∧
      u.result = .value c) ∧
    ∀ (w i f a l w' i' f' a' l' : Nat) (s t t' : State), Quiet s → w ≤ 1 → i ≤ 1 → f ≤ 3 → a ≤ 0x1FFFF → l ≤ 0x7FF → w' ≤ 1 → i' ≤ 1 →
      f' ≤ 3 → a' ≤ 0x1FFFF → l' ≤ 0x7FF → exec (.cwEnc w i f a l) s = .next t → exec (.cwEnc w' i' f' a' l') s = .next t' →
      t.result = t'.result → (w, i, f, a, l) = (w', i', f', a', l')

/-- 41_cmdword.md R146: changing one bit changes exactly one field. -/
def Obligations.OneBitChangesOneField : Prop :=
  ∀ (c : Word) (k : Nat), k < 32 →
    let r := cwFields c
    let q := cwFields (c ^^^ (1#32 <<< k))
    [decide (r.write ≠ q.write), decide (r.increment ≠ q.increment), decide (r.function ≠ q.function),
      decide (r.address ≠ q.address), decide (r.length ≠ q.length)].count true = 1

/-- 41_cmdword.md R148: `x[15:0] ++ x[31:16]`. -/
def Obligations.RotationExchangesHalves : Prop :=
  ∀ (x : Word) (s : State), Quiet s →
    ∃ t, exec (.rot16 x) s = .next t ∧ Completed t ∧ KeepsTransport s t ∧ KeepsRest s t ∧
      t.result = .value (x.extractLsb' 0 16 ++ x.extractLsb' 16 16)

/-- 41_cmdword.md R149. -/
def Obligations.RotationTwiceIsIdentity : Prop := ∀ x : Word, rotate16 (rotate16 x) = x

/-! ### Function-addressed access -/

/-- 42_function_access.md R166, R167, R168 with R162 and R164: one word received, two of which the first is dropped on the backplane function; the low
`8n` bits of the last. -/
def Obligations.FunctionReadReturnsPayload : Prop :=
  ∀ (f a : Nat) (s : State), Quiet s → s.params.readFraming = .rsf → f ≤ 3 → a ≤ 0x1FFFF →
    ∀ p ∈ [(Instr.rd8 f a, 1), (Instr.rd16 f a, 2), (Instr.rd32 f a, 4)],
      ∃ t ws, exec p.1 s = .next t ∧ Completed t ∧ KeepsRest s t ∧
        ws = s.deviceWords (if f = s.params.fnBackplane then 2 else 1) ∧
        Exchange s t (txEvents [cw 0 1 f a p.2] ++ rxEvents ws) (32 * ws.length) ∧
        t.result = .value (BitVec.ofNat 32 ((ws.getLastD 0).toNat % 2 ^ (8 * p.2)))

/-- 42_function_access.md R170, R171, R172: header and zero-extended value in one write, nothing received. -/
def Obligations.FunctionWriteSendsValue : Prop :=
  ∀ (f a : Nat) (v : Word) (s : State), Quiet s → f ≤ 3 → a ≤ 0x1FFFF →
    ∀ p ∈ [(Instr.wr8 f a v, 1), (Instr.wr16 f a v, 2), (Instr.wr32 f a v, 4)], v.toNat < 2 ^ (8 * p.2) →
      ∃ t, exec p.1 s = .next t ∧ Completed t ∧ KeepsRest s t ∧ Exchange s t (txEvents [cw 1 1 f a p.2, v]) 0

/-- 42_function_access.md R163: function, then address, then value; nothing on the link. -/
def Obligations.FunctionAccessChecksInOrder : Prop :=
  ∀ (f a : Nat) (v : Word) (s : State), Quiet s →
    ∀ p ∈ [(Instr.rd8 f a, none), (Instr.rd16 f a, none), (Instr.rd32 f a, none), (Instr.wr8 f a v, some 1),
        (Instr.wr16 f a v, some 2), (Instr.wr32 f a v, some 4)],
      ∀ bad : Nat,
        (3 < f ∧ bad = f) ∨ (f ≤ 3 ∧ 0x1FFFF < a ∧ bad = a) ∨
          (f ≤ 3 ∧ a ≤ 0x1FFFF ∧ (∃ n, p.2 = some n ∧ 2 ^ (8 * n) ≤ v.toNat) ∧ bad = v.toNat) →
        ∃ t, exec p.1 s = .next t ∧ Reported .fieldRange (.operand bad) t ∧ KeepsTransport s t ∧ KeepsRest s t

/-- 42_function_access.md R175: the header rotated, the received word rotated. -/
def Obligations.RotatedReadExchangesHalves : Prop :=
  ∀ (a : Nat) (s : State), Quiet s → s.params.readFraming = .rsf → a ≤ 0x1FFFF →
    ∃ t w, exec (.rd32s a) s = .next t ∧ Completed t ∧ KeepsRest s t ∧ s.deviceWords 1 = [w] ∧
      Exchange s t (txEvents [rotate16 (cw 0 1 s.params.fnBus a 4)] ++ rxEvents [w]) 32 ∧ t.result = .value (rotate16 w)

/-- 42_function_access.md R176: header and payload rotated. -/
def Obligations.RotatedWriteExchangesHalves : Prop :=
  ∀ (a : Nat) (v : Word) (s : State), Quiet s → a ≤ 0x1FFFF →
    ∃ t, exec (.wr32s a v) s = .next t ∧ Completed t ∧ KeepsRest s t ∧
      Exchange s t (txEvents [rotate16 (cw 1 1 s.params.fnBus a 4), rotate16 v]) 0

/-- 42_function_access.md R175, R176: an address that does not fit 17 bits is rejected. -/
def Obligations.RotatedAccessRejectsWideAddress : Prop :=
  ∀ (a : Nat) (v : Word) (s : State), Quiet s → 0x1FFFF < a → ∀ i ∈ [Instr.rd32s a, Instr.wr32s a v],
    ∃ t, exec i s = .next t ∧ Reported .fieldRange (.operand a) t ∧ KeepsTransport s t ∧ KeepsRest s t

/-- 42_function_access.md R162: "The value of the throwaway word is ignored whatever it is." -/
def Obligations.TurnaroundWordIsIgnored : Prop :=
  ∀ (a : Nat) (b : Word) (s s' : State), Quiet s → Quiet s' → s'.params = s.params → s.params.readFraming = .rsf →
    (∀ k, 32 ≤ k → s'.deviceLevel k = s.deviceLevel k) → s.params.fnBackplane ≤ 3 → a ≤ 0x1FFFF → b.toNat % 4 = 0 →
    ∀ i ∈ [Instr.rd8 s.params.fnBackplane a, .rd16 s.params.fnBackplane a, .rd32 s.params.fnBackplane a, .bpRd8 b, .bpRd16 b, .bpRd32 b],
      ∃ t t', exec i s = .next t ∧ exec i s' = .next t' ∧ t'.result = t.result

/-! ### Unit U3, the window -/

/-- 43_window.md R192, R193, R194: high, mid, low, each written only where it differs from the cached byte; then the new window. -/
def Obligations.SetWindowWritesDifferingBytes : Prop :=
  ∀ (a : Word) (s : State), Quiet s →
    let new := a &&& ~~~s.params.windowMask
    let message (reg : Nat) (x y : Byte) : List Event :=
      if x = y then [] else txEvents [cw 1 1 s.params.fnBackplane reg 1, x.setWidth 32]
    ∃ t, exec (.setWin a) s = .next t ∧ Completed t ∧ t.window = new ∧
      Exchange s t (message s.params.regWinHigh (topByte new) (topByte s.window) ++
        message s.params.regWinMid (midByte new) (midByte s.window) ++
        message s.params.regWinLow (lowByte new) (lowByte s.window)) 0 ∧
      KeepsOutside s t ∧ KeepsBytes s t ∧ KeepsWords s t

/-- 43_window.md R195: the number of byte writes is the number of differing bytes, 0 to 3; twice as many words are sent and none is
received. -/
def Obligations.SetWindowCountsDifferingBytes : Prop :=
  ∀ (a : Word) (s t : State), Quiet s → exec (.setWin a) s = .next t →
    ∃ es, t.trace = s.trace ++ es ∧
      let d := [decide (topByte (windowOf s.params a) ≠ topByte s.window), decide (midByte (windowOf s.params a) ≠ midByte s.window),
        decide (lowByte (windowOf s.params a) ≠ lowByte s.window)].count true
      d ≤ 3 ∧ es.count .take = d ∧ (clockEdges es).length = 64 * (2 * d) ∧ ∀ b, Event.sample b ∉ es

/-- 43_window.md R196: after `SETWIN a`, `SETWIN b` writes exactly the bytes in which the two windows differ; in the same window, nothing. -/
def Obligations.SetWindowAgainWritesDifference : Prop :=
  ∀ (a b : Word) (s t : State), Quiet s → exec (.setWin a) s = .next t →
    ∃ u, exec (.setWin b) t = .next u ∧ u.trace = t.trace ++ windowEvents s.params (windowOf s.params a) b ∧
      (windowOf s.params b = windowOf s.params a → u.trace = t.trace ∧ u.window = t.window)

/-- 43_window.md R199: two addresses with the same window are the same request. The equality of the whole states covers `RESULT`, `SHREG`, `BITCNT` and
`WORDCNT` too, which the spec leaves unspecified: that is the model's choice, whose free values are indexed by a counter of the state and not by the
operation (log 10, 11); `OP` alone differs (log 35). -/
def Obligations.SameWindowIsSameRequest : Prop :=
  ∀ (a b : Word) (s t : State), Quiet s → windowOf s.params a = windowOf s.params b → exec (.setWin a) s = .next t →
    exec (.setWin b) s = .next { t with op := some (.setWin b) }

/-- 10_state.md R35: a completed `SETWIN` leaves the masked bits of `WINDOW` zero, and every operation but `INIT` keeps them so. -/
def Obligations.MaskedWindowBitsStayZero : Prop :=
  (∀ (a : Word) (s t : State), exec (.setWin a) s = .next t → t.window &&& t.params.windowMask = 0) ∧
    ∀ (i : Instr) (s t : State), i ≠ .init → s.window &&& s.params.windowMask = 0 → exec i s = .next t →
      t.window &&& t.params.windowMask = 0

/-- 43_window.md R198, in the one state after reset and with the default parameters (general knowledge, log 14): the first `SETWIN` after
reset always writes the low byte, skips the top byte exactly when `a[31:24] = 0xAA` and the middle byte exactly when `a[23:16] = 0xAA`. -/
def Obligations.FirstSetWindowSkipsSentinelBytes : Prop :=
  ∀ a : Word, ∃ t, exec (.setWin a) State.reset = .next t ∧
    t.trace = (if a.extractLsb' 24 8 = 0xAA#8 then [] else txEvents [0xD8006001#32, (a.extractLsb' 24 8).setWidth 32]) ++
      (if a.extractLsb' 16 8 = 0xAA#8 then [] else txEvents [0xD8005801#32, (a.extractLsb' 16 8).setWidth 32]) ++
      txEvents [0xD8005001#32, if a.getLsbD 15 then 0x80#32 else 0#32]

/-- 43_window.md R204, R205, R206 with R201: `SETWIN`, then one read at the offset, with the flag for 4 bytes only; the low `8n` bits of the
second word. -/
def Obligations.BackplaneReadReturnsPayload : Prop :=
  ∀ (a : Word) (s : State), Quiet s → s.params.readFraming = .rsf →
    ∀ p ∈ [(Instr.bpRd8 a, 1), (Instr.bpRd16 a, 2), (Instr.bpRd32 a, 4)], a.toNat % p.2 = 0 →
      ∃ t w0 w1, exec p.1 s = .next t ∧ Completed t ∧ s.deviceWords 2 = [w0, w1] ∧
        Exchange s t (windowEvents s.params s.window a ++
          txEvents [cw 0 1 s.params.fnBackplane
            (if p.2 = 4 then (a &&& s.params.windowMask) ||| s.params.access32Flag else a &&& s.params.windowMask).toNat p.2] ++
          rxEvents [w0, w1]) 64 ∧
        t.window = windowOf s.params a ∧ t.result = .value (BitVec.ofNat 32 (w1.toNat % 2 ^ (8 * p.2))) ∧
        KeepsOutside s t ∧ KeepsBytes s t ∧ KeepsWords s t

/-- 43_window.md R207, R208, R209 with R201. -/
def Obligations.BackplaneWriteSendsValue : Prop :=
  ∀ (a v : Word) (s : State), Quiet s →
    ∀ p ∈ [(Instr.bpWr8 a v, 1), (Instr.bpWr16 a v, 2), (Instr.bpWr32 a v, 4)], a.toNat % p.2 = 0 → v.toNat < 2 ^ (8 * p.2) →
      ∃ t, exec p.1 s = .next t ∧ Completed t ∧
        Exchange s t (windowEvents s.params s.window a ++
          txEvents [cw 1 1 s.params.fnBackplane
            (if p.2 = 4 then (a &&& s.params.windowMask) ||| s.params.access32Flag else a &&& s.params.windowMask).toNat p.2, v]) 0 ∧
        t.window = windowOf s.params a ∧ KeepsOutside s t ∧ KeepsBytes s t ∧ KeepsWords s t

/-- 43_window.md R202, 60_exceptions.md R292: alignment before value, `WINDOW` and the link untouched. -/
def Obligations.BackplaneAccessChecksInOrder : Prop :=
  ∀ (a v : Word) (s : State), Quiet s →
    (∀ p ∈ [(Instr.bpRd16 a, 2), (Instr.bpRd32 a, 4), (Instr.bpWr16 a v, 2), (Instr.bpWr32 a v, 4)], a.toNat % p.2 ≠ 0 →
      ∃ t, exec p.1 s = .next t ∧ Reported .misaligned (.address a) t ∧ KeepsTransport s t ∧ KeepsRest s t) ∧
    (∀ p ∈ [(Instr.bpWr8 a v, 1), (Instr.bpWr16 a v, 2)], a.toNat % p.2 = 0 → 2 ^ (8 * p.2) ≤ v.toNat →
      ∃ t, exec p.1 s = .next t ∧ Reported .fieldRange (.operand v.toNat) t ∧ KeepsTransport s t ∧ KeepsRest s t)

/-- 43_window.md R203 and R201: an aligned narrow access ends inside its window, and its bus address fits 17 bits. -/
def Obligations.NarrowAccessStaysInWindow : Prop :=
  ∀ (p : Params) (a : Word) (n : Nat), p.Wf → n = 1 ∨ n = 2 ∨ n = 4 → a.toNat % n = 0 →
    (offsetOf p a).toNat + n ≤ p.windowSize ∧ busAddr p a n ≤ 0x1FFFF

/-! ### Block transfers -/

/-- 44_block.md R223: the chunk plan unfolds as that rule writes it. -/
def Obligations.ChunkPlanUnfolds : Prop :=
  ∀ (p : Params) (a n : Nat), p.Wf →
    chunks p a n =
      if n = 0 then []
      else
        let c := min n (min p.maxTransferSize (p.windowSize - (BitVec.ofNat 32 a &&& p.windowMask).toNat))
        (a, c) :: chunks p (a + c) (n - c)

/-- 44_block.md R222: every chunk moves a byte or more, no more than the maximum transfer and no further than its window's end; from an aligned start
every chunk starts aligned. -/
def Obligations.ChunksStayWithinLimits : Prop :=
  ∀ (p : Params) (a n : Nat), p.Wf → a + n ≤ 2 ^ 32 →
    ∀ x ∈ chunks p a n, 1 ≤ x.2 ∧ x.2 ≤ p.maxTransferSize ∧ x.2 ≤ 2044 ∧
      (offsetOf p (BitVec.ofNat 32 x.1)).toNat + x.2 ≤ p.windowSize ∧ a ≤ x.1 ∧ x.1 + x.2 ≤ a + n ∧ (a % 4 = 0 → x.1 % 4 = 0)

/-- 44_block.md R223, laws: the lengths sum to `n`, each chunk starts where the one before ends, and there are at least
`n / MAX_TRANSFER_SIZE` of them. -/
def Obligations.ChunksCoverTransfer : Prop :=
  ∀ (p : Params) (a n : Nat), p.Wf →
    ((chunks p a n).map (·.2)).sum = n ∧
      (∀ (k : Nat) (h : k < (chunks p a n).length), ((chunks p a n)[k]).1 = a + (((chunks p a n).take k).map (·.2)).sum) ∧
      n ≤ (chunks p a n).length * p.maxTransferSize

/-- 44_block.md R223, laws: "no chunk contains two addresses with different `window(.)`". -/
def Obligations.ChunkLiesInOneWindow : Prop :=
  ∀ (p : Params) (a n : Nat), p.Wf → a + n ≤ 2 ^ 32 → ∀ x ∈ chunks p a n, ∀ j < x.2,
    windowOf p (BitVec.ofNat 32 (x.1 + j)) = windowOf p (BitVec.ofNat 32 x.1)

/-- 44_block.md R224, R225, R226: the traffic of the chunks, the `n` bytes in the buffer, every other byte as before. -/
def Obligations.BlockReadDeliversBytes : Prop :=
  ∀ (a : Word) (buf n : Nat) (s : State), Quiet s → s.params.readFraming = .rsf → s.params.Wf → Memory.wf s.bytes →
    a.toNat % 4 = 0 → a.toNat + n ≤ 2 ^ 32 →
    let plan := chunks s.params a.toNat n
    let bs := blockReadBytes s.deviceLevel 0 plan
    ∃ t, exec (.bpRdBlk a buf n) s = .next t ∧ Completed t ∧ bs.length = n ∧
      Exchange s t (blockReadEvents s.params s.deviceLevel s.window 0 plan) (32 * blockReadCount plan) ∧
      t.window = blockWindow s.params s.window plan ∧
      (∀ k, Memory.read t.bytes k = if buf ≤ k ∧ k < buf + n then bs.getD (k - buf) 0 else Memory.read s.bytes k) ∧
      KeepsOutside s t ∧ KeepsWords s t

/-- 44_block.md R228, R229: the traffic of the chunks, the buffer only read. -/
def Obligations.BlockWriteSendsBytes : Prop :=
  ∀ (a : Word) (buf n : Nat) (s : State), Quiet s → a.toNat % 4 = 0 → a.toNat + n ≤ 2 ^ 32 →
    let plan := chunks s.params a.toNat n
    ∃ t, exec (.bpWrBlk a buf n) s = .next t ∧ Completed t ∧
      Exchange s t (blockWriteEvents s.params (fun k => Memory.read s.bytes (buf + k)) s.window 0 plan) 0 ∧
      t.window = blockWindow s.params s.window plan ∧ KeepsOutside s t ∧ KeepsBytes s t ∧ KeepsWords s t

/-- 44_block.md R221: alignment, whatever the count, then the address range. -/
def Obligations.BlockChecksInOrder : Prop :=
  ∀ (a : Word) (buf n : Nat) (s : State), Quiet s → ∀ i ∈ [Instr.bpRdBlk a buf n, Instr.bpWrBlk a buf n],
    (a.toNat % 4 ≠ 0 →
      ∃ t, exec i s = .next t ∧ Reported .misaligned (.address a) t ∧ KeepsTransport s t ∧ KeepsRest s t) ∧
    (a.toNat % 4 = 0 → 2 ^ 32 < a.toNat + n →
      ∃ t, exec i s = .next t ∧ Reported .addressRange (.addressCount a n) t ∧ KeepsTransport s t ∧ KeepsRest s t)

/-- 44_block.md R230: an empty block does nothing. -/
def Obligations.EmptyBlockDoesNothing : Prop :=
  ∀ (a : Word) (buf : Nat) (s : State), Quiet s → a.toNat % 4 = 0 → ∀ i ∈ [Instr.bpRdBlk a buf 0, Instr.bpWrBlk a buf 0],
    ∃ t, exec i s = .next t ∧ Completed t ∧ KeepsTransport s t ∧ KeepsRest s t

/-! ### Data path -/

/-- 45_datapath.md R242, R241: the header with the byte length, `ceil4(n)` words received, none dropped, stored unchanged. -/
def Obligations.DataReadStoresWords : Prop :=
  ∀ (wbuf n : Nat) (s : State), Quiet s → s.params.readFraming = .rsf → s.params.Wf → Memory.wf s.words → 1 ≤ n → n ≤ 2047 →
    ∃ t ws, exec (.dataRd wbuf n) s = .next t ∧ Completed t ∧ ws = s.deviceWords ((n + 3) / 4) ∧
      Exchange s t (txEvents [cw 0 1 s.params.fnData 0 n] ++ rxEvents ws) (32 * ws.length) ∧
      (∀ k, Memory.read t.words k = if wbuf ≤ k ∧ k < wbuf + ws.length then ws.getD (k - wbuf) 0 else Memory.read s.words k) ∧
      t.window = s.window ∧ KeepsOutside s t ∧ KeepsBytes s t

/-- 45_datapath.md R244, R241: the header with length `4 * m` and the `m` words unchanged, in one call. -/
def Obligations.DataWriteSendsWords : Prop :=
  ∀ (wbuf m : Nat) (s : State), Quiet s → 1 ≤ m → m ≤ 511 →
    ∃ t, exec (.dataWr wbuf m) s = .next t ∧ Completed t ∧ KeepsRest s t ∧
      Exchange s t (txEvents (cw 1 1 s.params.fnData 0 (4 * m) :: (List.range m).map fun k => Memory.read s.words (wbuf + k))) 0

/-- 45_datapath.md R243. That `info` for `DATA.WR` is the word count and not the length in bytes is the model's choice (log 19). -/
def Obligations.DataLengthIsChecked : Prop :=
  ∀ (wbuf n : Nat) (s : State), Quiet s →
    ∀ p ∈ [(Instr.dataRd wbuf n, 2047), (Instr.dataWr wbuf n, 511)], n = 0 ∨ p.2 < n →
      ∃ t, exec p.1 s = .next t ∧ Reported .lengthRange (.length n) t ∧ KeepsTransport s t ∧ KeepsRest s t

/-! ### Bring-up -/

/-- 46_init.md R259: the trace of a successful `INIT` whose `n`-th poll is the first to return `MAGIC`. -/
def Obligations.InitSucceedsOnNthPoll : Prop :=
  ∀ (n : Nat) (s : State), Quiet s → s.params.readFraming = .rsf → s.params.Wf → 1 ≤ n → n ≤ s.params.maxPolls →
    let p := s.params
    let w : Nat → Word := fun k => levelsWord s.deviceLevel (32 * k)
    (∀ k, k + 1 < n → rotate16 (w k) ≠ p.magic) → rotate16 (w (n - 1)) = p.magic → rotate16 (w n) = p.testPattern →
    w (n + 1) = p.magic → w (n + 2) = p.testPattern →
    ∃ t t1 t2, exec .init s = .next t ∧ Completed t ∧ p.tPwrLowMin ≤ t1 ∧ p.tBootMin ≤ t2 ∧
      Exchange s t (powerEvents t1 t2 ++ pollEvents p (s.deviceWords n) ++ rotatedWriteEvents p p.regBusTestRw p.testPattern ++
        rotatedReadEvents p p.regBusTestRw (w n) ++ rotatedWriteEvents p p.regBusCtrl p.busCtrlValue ++
        busReadEvents p p.regBusTestRo (w (n + 1)) ++ busReadEvents p p.regBusTestRw (w (n + 2))) (32 * (n + 3)) ∧
      t.pwr = true ∧ t.window = p.windowSentinel ∧ t.pollcnt = n ∧ t.params = p ∧ t.inputs = s.inputs ∧ KeepsBytes s t ∧ KeepsWords s t

/-- 60_exceptions.md R281, 46_init.md R254: exactly `MAX_POLLS` polls, then `Handshake(Timeout)` with the last value read. -/
def Obligations.InitTimesOutAfterMaxPolls : Prop :=
  ∀ s : State, Quiet s → s.params.readFraming = .rsf → s.params.Wf →
    let p := s.params
    let w : Nat → Word := fun k => levelsWord s.deviceLevel (32 * k)
    (∀ k < p.maxPolls, rotate16 (w k) ≠ p.magic) →
    ∃ t t1 t2, exec .init s = .next t ∧ Reported .timeout (.value (rotate16 (w (p.maxPolls - 1)))) t ∧
      p.tPwrLowMin ≤ t1 ∧ p.tBootMin ≤ t2 ∧
      Exchange s t (powerEvents t1 t2 ++ pollEvents p (s.deviceWords p.maxPolls)) (32 * p.maxPolls) ∧
      t.pwr = true ∧ t.window = p.windowSentinel ∧ t.pollcnt = p.maxPolls ∧ t.params = p ∧ t.inputs = s.inputs ∧
      KeepsBytes s t ∧ KeepsWords s t

/-- 60_exceptions.md R282, 46_init.md R255: a rotated read-back other than `TEST_PATTERN` ends `INIT`. -/
def Obligations.InitReportsPatternSwapped : Prop :=
  ∀ (n : Nat) (s : State), Quiet s → s.params.readFraming = .rsf → s.params.Wf → 1 ≤ n → n ≤ s.params.maxPolls →
    let p := s.params
    let w : Nat → Word := fun k => levelsWord s.deviceLevel (32 * k)
    (∀ k, k + 1 < n → rotate16 (w k) ≠ p.magic) → rotate16 (w (n - 1)) = p.magic → rotate16 (w n) ≠ p.testPattern →
    ∃ t t1 t2, exec .init s = .next t ∧ Reported .patternSwapped (.value (rotate16 (w n))) t ∧
      p.tPwrLowMin ≤ t1 ∧ p.tBootMin ≤ t2 ∧
      Exchange s t (powerEvents t1 t2 ++ pollEvents p (s.deviceWords n) ++ rotatedWriteEvents p p.regBusTestRw p.testPattern ++
        rotatedReadEvents p p.regBusTestRw (w n)) (32 * (n + 1)) ∧
      t.pwr = true ∧ t.window = p.windowSentinel ∧ t.pollcnt = n

/-- 60_exceptions.md R283, 46_init.md R257: in step 5 the magic constant is checked first, then the pattern; the first mismatch ends `INIT`. -/
def Obligations.InitReportsNormalMismatch : Prop :=
  ∀ (n : Nat) (s : State), Quiet s → s.params.readFraming = .rsf → s.params.Wf → 1 ≤ n → n ≤ s.params.maxPolls →
    let p := s.params
    let w : Nat → Word := fun k => levelsWord s.deviceLevel (32 * k)
    (∀ k, k + 1 < n → rotate16 (w k) ≠ p.magic) → rotate16 (w (n - 1)) = p.magic → rotate16 (w n) = p.testPattern →
    (w (n + 1) ≠ p.magic →
      ∃ t t1 t2, exec .init s = .next t ∧ Reported .magicNormal (.value (w (n + 1))) t ∧
        Exchange s t (powerEvents t1 t2 ++ pollEvents p (s.deviceWords n) ++ rotatedWriteEvents p p.regBusTestRw p.testPattern ++
          rotatedReadEvents p p.regBusTestRw (w n) ++ rotatedWriteEvents p p.regBusCtrl p.busCtrlValue ++
          busReadEvents p p.regBusTestRo (w (n + 1))) (32 * (n + 2)) ∧
        t.pwr = true ∧ t.window = p.windowSentinel ∧ t.pollcnt = n) ∧
    (w (n + 1) = p.magic → w (n + 2) ≠ p.testPattern →
      ∃ t t1 t2, exec .init s = .next t ∧ Reported .patternNormal (.value (w (n + 2))) t ∧
        Exchange s t (powerEvents t1 t2 ++ pollEvents p (s.deviceWords n) ++ rotatedWriteEvents p p.regBusTestRw p.testPattern ++
          rotatedReadEvents p p.regBusTestRw (w n) ++ rotatedWriteEvents p p.regBusCtrl p.busCtrlValue ++
          busReadEvents p p.regBusTestRo (w (n + 1)) ++ busReadEvents p p.regBusTestRw (w (n + 2))) (32 * (n + 3)) ∧
        t.pwr = true ∧ t.window = p.windowSentinel ∧ t.pollcnt = n)

/-- 46_init.md R258, R261, 60_exceptions.md R296: however the device answers, `INIT` ends after at most `MAX_POLLS` polls and three further
words received, with the device powered, the cache invalidated and the block idle; an error is of class `Handshake`. -/
def Obligations.InitAlwaysEndsWithinPolls : Prop :=
  ∀ s : State, Quiet s → s.params.readFraming = .rsf → s.params.Wf →
    ∃ t, exec .init s = .next t ∧ Quiet t ∧ t.pwr = true ∧ t.window = s.params.windowSentinel ∧ 1 ≤ t.pollcnt ∧
      t.pollcnt ≤ s.params.maxPolls ∧ t.samples ≤ s.samples + 32 * (t.pollcnt + 3) ∧ ∀ e, t.err = some e → e.cls = .handshake

/-! ### Rules about every operation -/

/-- 46_init.md R262, 10_state.md R24, R29: only `INIT` changes `PWR` and `POLLCNT` and waits; no operation changes the parameters or what the host
presents next. -/
def Obligations.OnlyInitDrivesPower : Prop :=
  ∀ (i : Instr) (s t : State), exec i s = .next t →
    (i ≠ .init → KeepsOutside s t) ∧ t.params = s.params ∧ t.inputs = s.inputs

/-- 10_state.md R25 and 45_datapath.md R241: `WINDOW` changes in `SETWIN`, in the backplane operations and in `INIT` only. -/
def Obligations.OnlyBackplaneAndInitChangeWindow : Prop :=
  ∀ (i : Instr) (s t : State), exec i s = .next t →
    (match i with
      | .setWin _ | .bpRd8 _ | .bpRd16 _ | .bpRd32 _ | .bpWr8 _ _ | .bpWr16 _ _ | .bpWr32 _ _ | .bpRdBlk _ _ _ | .bpWrBlk _ _ _ | .init => True
      | _ => t.window = s.window)

/-- 10_state.md R33: only `BP.RDBLK` stores bytes and only `DATA.RD` stores words. -/
def Obligations.OnlyReadsStoreIntoBuffers : Prop :=
  ∀ (i : Instr) (s t : State), exec i s = .next t →
    ((∀ a buf n, i ≠ .bpRdBlk a buf n) → KeepsBytes s t) ∧ ((∀ wbuf n, i ≠ .dataRd wbuf n) → KeepsWords s t)

/-- 60_exceptions.md R292: an operation rejected by a `Precondition` check has an empty trace and changes nothing but the host port. -/
def Obligations.RejectedOperationChangesNothing : Prop :=
  ∀ (i : Instr) (s t : State) (e : ErrRecord), exec i s = .next t → t.err = some e → e.cls = .precondition →
    KeepsTransport s t ∧ KeepsRest s t ∧ t.busy = false

/-- 00_scope.md R13, 20_memory.md R66: what has happened on the lines stays happened; an operation only adds events after it. -/
def Obligations.OperationsOnlyExtendTrace : Prop :=
  ∀ (i : Instr) (s t : State), exec i s = .next t → ∃ es, t.trace = s.trace ++ es
end

