-- ==== Sys2Proof/Laws/State.lean ====
section
/-! SUPPORT. One lemma per field of the state per named update: what the field is after it. -/

namespace Sys2Proof.Machine

/-! ### emit -/

@[simp] theorem emit_clk (e : Event) (s : State) : (emit e s).clk = s.clk := rfl
@[simp] theorem emit_dioOut (e : Event) (s : State) : (emit e s).dioOut = s.dioOut := rfl
@[simp] theorem emit_dioOe (e : Event) (s : State) : (emit e s).dioOe = s.dioOe := rfl
@[simp] theorem emit_dioIn (e : Event) (s : State) : (emit e s).dioIn = s.dioIn := rfl
@[simp] theorem emit_pwr (e : Event) (s : State) : (emit e s).pwr = s.pwr := rfl
@[simp] theorem emit_window (e : Event) (s : State) : (emit e s).window = s.window := rfl
@[simp] theorem emit_shreg (e : Event) (s : State) : (emit e s).shreg = s.shreg := rfl
@[simp] theorem emit_bitcnt (e : Event) (s : State) : (emit e s).bitcnt = s.bitcnt := rfl
@[simp] theorem emit_wordcnt (e : Event) (s : State) : (emit e s).wordcnt = s.wordcnt := rfl
@[simp] theorem emit_seq (e : Event) (s : State) : (emit e s).seq = s.seq := rfl
@[simp] theorem emit_pollcnt (e : Event) (s : State) : (emit e s).pollcnt = s.pollcnt := rfl
@[simp] theorem emit_busy (e : Event) (s : State) : (emit e s).busy = s.busy := rfl
@[simp] theorem emit_op (e : Event) (s : State) : (emit e s).op = s.op := rfl
@[simp] theorem emit_result (e : Event) (s : State) : (emit e s).result = s.result := rfl
@[simp] theorem emit_err (e : Event) (s : State) : (emit e s).err = s.err := rfl
@[simp] theorem emit_bytes (e : Event) (s : State) : (emit e s).bytes = s.bytes := rfl
@[simp] theorem emit_words (e : Event) (s : State) : (emit e s).words = s.words := rfl
@[simp] theorem emit_params (e : Event) (s : State) : (emit e s).params = s.params := rfl
@[simp] theorem emit_inputs (e : Event) (s : State) : (emit e s).inputs = s.inputs := rfl
@[simp] theorem emit_waitIn (e : Event) (s : State) : (emit e s).waitIn = s.waitIn := rfl
@[simp] theorem emit_log (e : Event) (s : State) : (emit e s).log = e :: s.log := rfl
@[simp] theorem emit_resets (e : Event) (s : State) : (emit e s).resets = s.resets := rfl
@[simp] theorem emit_samples (e : Event) (s : State) : (emit e s).samples = s.samples := rfl
@[simp] theorem emit_waits (e : Event) (s : State) : (emit e s).waits = s.waits := rfl
@[simp] theorem emit_draws (e : Event) (s : State) : (emit e s).draws = s.draws := rfl

/-! ### shiftIn -/

@[simp] theorem shiftIn_clk (b : Bool) (s : State) : (shiftIn b s).clk = s.clk := rfl
@[simp] theorem shiftIn_dioOut (b : Bool) (s : State) : (shiftIn b s).dioOut = s.dioOut := rfl
@[simp] theorem shiftIn_dioOe (b : Bool) (s : State) : (shiftIn b s).dioOe = s.dioOe := rfl
@[simp] theorem shiftIn_dioIn (b : Bool) (s : State) : (shiftIn b s).dioIn = s.dioIn := rfl
@[simp] theorem shiftIn_pwr (b : Bool) (s : State) : (shiftIn b s).pwr = s.pwr := rfl
@[simp] theorem shiftIn_window (b : Bool) (s : State) : (shiftIn b s).window = s.window := rfl
@[simp] theorem shiftIn_shreg (b : Bool) (s : State) : (shiftIn b s).shreg = (s.shreg <<< 1) ||| (BitVec.ofBool b).setWidth 32 := rfl
@[simp] theorem shiftIn_bitcnt (b : Bool) (s : State) : (shiftIn b s).bitcnt = s.bitcnt := rfl
@[simp] theorem shiftIn_wordcnt (b : Bool) (s : State) : (shiftIn b s).wordcnt = s.wordcnt := rfl
@[simp] theorem shiftIn_seq (b : Bool) (s : State) : (shiftIn b s).seq = s.seq := rfl
@[simp] theorem shiftIn_pollcnt (b : Bool) (s : State) : (shiftIn b s).pollcnt = s.pollcnt := rfl
@[simp] theorem shiftIn_busy (b : Bool) (s : State) : (shiftIn b s).busy = s.busy := rfl
@[simp] theorem shiftIn_op (b : Bool) (s : State) : (shiftIn b s).op = s.op := rfl
@[simp] theorem shiftIn_result (b : Bool) (s : State) : (shiftIn b s).result = s.result := rfl
@[simp] theorem shiftIn_err (b : Bool) (s : State) : (shiftIn b s).err = s.err := rfl
@[simp] theorem shiftIn_bytes (b : Bool) (s : State) : (shiftIn b s).bytes = s.bytes := rfl
@[simp] theorem shiftIn_words (b : Bool) (s : State) : (shiftIn b s).words = s.words := rfl
@[simp] theorem shiftIn_params (b : Bool) (s : State) : (shiftIn b s).params = s.params := rfl
@[simp] theorem shiftIn_inputs (b : Bool) (s : State) : (shiftIn b s).inputs = s.inputs := rfl
@[simp] theorem shiftIn_waitIn (b : Bool) (s : State) : (shiftIn b s).waitIn = s.waitIn := rfl
@[simp] theorem shiftIn_log (b : Bool) (s : State) : (shiftIn b s).log = s.log := rfl
@[simp] theorem shiftIn_resets (b : Bool) (s : State) : (shiftIn b s).resets = s.resets := rfl
@[simp] theorem shiftIn_samples (b : Bool) (s : State) : (shiftIn b s).samples = s.samples := rfl
@[simp] theorem shiftIn_waits (b : Bool) (s : State) : (shiftIn b s).waits = s.waits := rfl
@[simp] theorem shiftIn_draws (b : Bool) (s : State) : (shiftIn b s).draws = s.draws := rfl

/-! ### countBit -/

@[simp] theorem countBit_clk (s : State) : (countBit s).clk = s.clk := rfl
@[simp] theorem countBit_dioOut (s : State) : (countBit s).dioOut = s.dioOut := rfl
@[simp] theorem countBit_dioOe (s : State) : (countBit s).dioOe = s.dioOe := rfl
@[simp] theorem countBit_dioIn (s : State) : (countBit s).dioIn = s.dioIn := rfl
@[simp] theorem countBit_pwr (s : State) : (countBit s).pwr = s.pwr := rfl
@[simp] theorem countBit_window (s : State) : (countBit s).window = s.window := rfl
@[simp] theorem countBit_shreg (s : State) : (countBit s).shreg = s.shreg := rfl
@[simp] theorem countBit_bitcnt (s : State) : (countBit s).bitcnt = s.bitcnt + 1 := rfl
@[simp] theorem countBit_wordcnt (s : State) : (countBit s).wordcnt = s.wordcnt := rfl
@[simp] theorem countBit_seq (s : State) : (countBit s).seq = s.seq := rfl
@[simp] theorem countBit_pollcnt (s : State) : (countBit s).pollcnt = s.pollcnt := rfl
@[simp] theorem countBit_busy (s : State) : (countBit s).busy = s.busy := rfl
@[simp] theorem countBit_op (s : State) : (countBit s).op = s.op := rfl
@[simp] theorem countBit_result (s : State) : (countBit s).result = s.result := rfl
@[simp] theorem countBit_err (s : State) : (countBit s).err = s.err := rfl
@[simp] theorem countBit_bytes (s : State) : (countBit s).bytes = s.bytes := rfl
@[simp] theorem countBit_words (s : State) : (countBit s).words = s.words := rfl
@[simp] theorem countBit_params (s : State) : (countBit s).params = s.params := rfl
@[simp] theorem countBit_inputs (s : State) : (countBit s).inputs = s.inputs := rfl
@[simp] theorem countBit_waitIn (s : State) : (countBit s).waitIn = s.waitIn := rfl
@[simp] theorem countBit_log (s : State) : (countBit s).log = s.log := rfl
@[simp] theorem countBit_resets (s : State) : (countBit s).resets = s.resets := rfl
@[simp] theorem countBit_samples (s : State) : (countBit s).samples = s.samples := rfl
@[simp] theorem countBit_waits (s : State) : (countBit s).waits = s.waits := rfl
@[simp] theorem countBit_draws (s : State) : (countBit s).draws = s.draws := rfl

/-! ### countWord -/

@[simp] theorem countWord_clk (s : State) : (countWord s).clk = s.clk := rfl
@[simp] theorem countWord_dioOut (s : State) : (countWord s).dioOut = s.dioOut := rfl
@[simp] theorem countWord_dioOe (s : State) : (countWord s).dioOe = s.dioOe := rfl
@[simp] theorem countWord_dioIn (s : State) : (countWord s).dioIn = s.dioIn := rfl
@[simp] theorem countWord_pwr (s : State) : (countWord s).pwr = s.pwr := rfl
@[simp] theorem countWord_window (s : State) : (countWord s).window = s.window := rfl
@[simp] theorem countWord_shreg (s : State) : (countWord s).shreg = s.shreg := rfl
@[simp] theorem countWord_bitcnt (s : State) : (countWord s).bitcnt = s.bitcnt := rfl
@[simp] theorem countWord_wordcnt (s : State) : (countWord s).wordcnt = s.wordcnt + 1 := rfl
@[simp] theorem countWord_seq (s : State) : (countWord s).seq = s.seq := rfl
@[simp] theorem countWord_pollcnt (s : State) : (countWord s).pollcnt = s.pollcnt := rfl
@[simp] theorem countWord_busy (s : State) : (countWord s).busy = s.busy := rfl
@[simp] theorem countWord_op (s : State) : (countWord s).op = s.op := rfl
@[simp] theorem countWord_result (s : State) : (countWord s).result = s.result := rfl
@[simp] theorem countWord_err (s : State) : (countWord s).err = s.err := rfl
@[simp] theorem countWord_bytes (s : State) : (countWord s).bytes = s.bytes := rfl
@[simp] theorem countWord_words (s : State) : (countWord s).words = s.words := rfl
@[simp] theorem countWord_params (s : State) : (countWord s).params = s.params := rfl
@[simp] theorem countWord_inputs (s : State) : (countWord s).inputs = s.inputs := rfl
@[simp] theorem countWord_waitIn (s : State) : (countWord s).waitIn = s.waitIn := rfl
@[simp] theorem countWord_log (s : State) : (countWord s).log = s.log := rfl
@[simp] theorem countWord_resets (s : State) : (countWord s).resets = s.resets := rfl
@[simp] theorem countWord_samples (s : State) : (countWord s).samples = s.samples := rfl
@[simp] theorem countWord_waits (s : State) : (countWord s).waits = s.waits := rfl
@[simp] theorem countWord_draws (s : State) : (countWord s).draws = s.draws := rfl

/-! ### leaveLoops -/

@[simp] theorem leaveLoops_clk (s : State) : (leaveLoops s).clk = s.clk := rfl
@[simp] theorem leaveLoops_dioOut (s : State) : (leaveLoops s).dioOut = s.dioOut := rfl
@[simp] theorem leaveLoops_dioOe (s : State) : (leaveLoops s).dioOe = s.dioOe := rfl
@[simp] theorem leaveLoops_dioIn (s : State) : (leaveLoops s).dioIn = s.dioIn := rfl
@[simp] theorem leaveLoops_pwr (s : State) : (leaveLoops s).pwr = s.pwr := rfl
@[simp] theorem leaveLoops_window (s : State) : (leaveLoops s).window = s.window := rfl
@[simp] theorem leaveLoops_shreg (s : State) : (leaveLoops s).shreg = Config.freeShreg s.draws := rfl
@[simp] theorem leaveLoops_bitcnt (s : State) : (leaveLoops s).bitcnt = BitVec.ofNat 6 (Config.freeBitcnt s.draws % 33) := rfl
@[simp] theorem leaveLoops_wordcnt (s : State) : (leaveLoops s).wordcnt = Config.freeWordcnt s.draws := rfl
@[simp] theorem leaveLoops_seq (s : State) : (leaveLoops s).seq = s.seq := rfl
@[simp] theorem leaveLoops_pollcnt (s : State) : (leaveLoops s).pollcnt = s.pollcnt := rfl
@[simp] theorem leaveLoops_busy (s : State) : (leaveLoops s).busy = s.busy := rfl
@[simp] theorem leaveLoops_op (s : State) : (leaveLoops s).op = s.op := rfl
@[simp] theorem leaveLoops_result (s : State) : (leaveLoops s).result = s.result := rfl
@[simp] theorem leaveLoops_err (s : State) : (leaveLoops s).err = s.err := rfl
@[simp] theorem leaveLoops_bytes (s : State) : (leaveLoops s).bytes = s.bytes := rfl
@[simp] theorem leaveLoops_words (s : State) : (leaveLoops s).words = s.words := rfl
@[simp] theorem leaveLoops_params (s : State) : (leaveLoops s).params = s.params := rfl
@[simp] theorem leaveLoops_inputs (s : State) : (leaveLoops s).inputs = s.inputs := rfl
@[simp] theorem leaveLoops_waitIn (s : State) : (leaveLoops s).waitIn = s.waitIn := rfl
@[simp] theorem leaveLoops_log (s : State) : (leaveLoops s).log = s.log := rfl
@[simp] theorem leaveLoops_resets (s : State) : (leaveLoops s).resets = s.resets := rfl
@[simp] theorem leaveLoops_samples (s : State) : (leaveLoops s).samples = s.samples := rfl
@[simp] theorem leaveLoops_waits (s : State) : (leaveLoops s).waits = s.waits := rfl
@[simp] theorem leaveLoops_draws (s : State) : (leaveLoops s).draws = s.draws + 1 := rfl

/-! ### setPower -/

@[simp] theorem setPower_clk (b : Bool) (s : State) : (setPower b s).clk = s.clk := rfl
@[simp] theorem setPower_dioOut (b : Bool) (s : State) : (setPower b s).dioOut = s.dioOut := rfl
@[simp] theorem setPower_dioOe (b : Bool) (s : State) : (setPower b s).dioOe = s.dioOe := rfl
@[simp] theorem setPower_dioIn (b : Bool) (s : State) : (setPower b s).dioIn = s.dioIn := rfl
@[simp] theorem setPower_pwr (b : Bool) (s : State) : (setPower b s).pwr = b := rfl
@[simp] theorem setPower_window (b : Bool) (s : State) : (setPower b s).window = s.window := rfl
@[simp] theorem setPower_shreg (b : Bool) (s : State) : (setPower b s).shreg = s.shreg := rfl
@[simp] theorem setPower_bitcnt (b : Bool) (s : State) : (setPower b s).bitcnt = s.bitcnt := rfl
@[simp] theorem setPower_wordcnt (b : Bool) (s : State) : (setPower b s).wordcnt = s.wordcnt := rfl
@[simp] theorem setPower_seq (b : Bool) (s : State) : (setPower b s).seq = s.seq := rfl
@[simp] theorem setPower_pollcnt (b : Bool) (s : State) : (setPower b s).pollcnt = s.pollcnt := rfl
@[simp] theorem setPower_busy (b : Bool) (s : State) : (setPower b s).busy = s.busy := rfl
@[simp] theorem setPower_op (b : Bool) (s : State) : (setPower b s).op = s.op := rfl
@[simp] theorem setPower_result (b : Bool) (s : State) : (setPower b s).result = s.result := rfl
@[simp] theorem setPower_err (b : Bool) (s : State) : (setPower b s).err = s.err := rfl
@[simp] theorem setPower_bytes (b : Bool) (s : State) : (setPower b s).bytes = s.bytes := rfl
@[simp] theorem setPower_words (b : Bool) (s : State) : (setPower b s).words = s.words := rfl
@[simp] theorem setPower_params (b : Bool) (s : State) : (setPower b s).params = s.params := rfl
@[simp] theorem setPower_inputs (b : Bool) (s : State) : (setPower b s).inputs = s.inputs := rfl
@[simp] theorem setPower_waitIn (b : Bool) (s : State) : (setPower b s).waitIn = s.waitIn := rfl
@[simp] theorem setPower_log (b : Bool) (s : State) : (setPower b s).log = Event.pwr b :: s.log := rfl
@[simp] theorem setPower_resets (b : Bool) (s : State) : (setPower b s).resets = s.resets := rfl
@[simp] theorem setPower_samples (b : Bool) (s : State) : (setPower b s).samples = s.samples := rfl
@[simp] theorem setPower_waits (b : Bool) (s : State) : (setPower b s).waits = s.waits := rfl
@[simp] theorem setPower_draws (b : Bool) (s : State) : (setPower b s).draws = s.draws := rfl

/-! ### waitAtLeast -/

@[simp] theorem waitAtLeast_clk (n : Nat) (s : State) : (waitAtLeast n s).clk = s.clk := rfl
@[simp] theorem waitAtLeast_dioOut (n : Nat) (s : State) : (waitAtLeast n s).dioOut = s.dioOut := rfl
@[simp] theorem waitAtLeast_dioOe (n : Nat) (s : State) : (waitAtLeast n s).dioOe = s.dioOe := rfl
@[simp] theorem waitAtLeast_dioIn (n : Nat) (s : State) : (waitAtLeast n s).dioIn = s.dioIn := rfl
@[simp] theorem waitAtLeast_pwr (n : Nat) (s : State) : (waitAtLeast n s).pwr = s.pwr := rfl
@[simp] theorem waitAtLeast_window (n : Nat) (s : State) : (waitAtLeast n s).window = s.window := rfl
@[simp] theorem waitAtLeast_shreg (n : Nat) (s : State) : (waitAtLeast n s).shreg = s.shreg := rfl
@[simp] theorem waitAtLeast_bitcnt (n : Nat) (s : State) : (waitAtLeast n s).bitcnt = s.bitcnt := rfl
@[simp] theorem waitAtLeast_wordcnt (n : Nat) (s : State) : (waitAtLeast n s).wordcnt = s.wordcnt := rfl
@[simp] theorem waitAtLeast_seq (n : Nat) (s : State) : (waitAtLeast n s).seq = s.seq := rfl
@[simp] theorem waitAtLeast_pollcnt (n : Nat) (s : State) : (waitAtLeast n s).pollcnt = s.pollcnt := rfl
@[simp] theorem waitAtLeast_busy (n : Nat) (s : State) : (waitAtLeast n s).busy = s.busy := rfl
@[simp] theorem waitAtLeast_op (n : Nat) (s : State) : (waitAtLeast n s).op = s.op := rfl
@[simp] theorem waitAtLeast_result (n : Nat) (s : State) : (waitAtLeast n s).result = s.result := rfl
@[simp] theorem waitAtLeast_err (n : Nat) (s : State) : (waitAtLeast n s).err = s.err := rfl
@[simp] theorem waitAtLeast_bytes (n : Nat) (s : State) : (waitAtLeast n s).bytes = s.bytes := rfl
@[simp] theorem waitAtLeast_words (n : Nat) (s : State) : (waitAtLeast n s).words = s.words := rfl
@[simp] theorem waitAtLeast_params (n : Nat) (s : State) : (waitAtLeast n s).params = s.params := rfl
@[simp] theorem waitAtLeast_inputs (n : Nat) (s : State) : (waitAtLeast n s).inputs = s.inputs := rfl
@[simp] theorem waitAtLeast_waitIn (n : Nat) (s : State) : (waitAtLeast n s).waitIn = s.waitIn.tail := rfl
@[simp] theorem waitAtLeast_log (n : Nat) (s : State) : (waitAtLeast n s).log = Event.wait (s.waitLength n) :: s.log := rfl
@[simp] theorem waitAtLeast_resets (n : Nat) (s : State) : (waitAtLeast n s).resets = s.resets := rfl
@[simp] theorem waitAtLeast_samples (n : Nat) (s : State) : (waitAtLeast n s).samples = s.samples := rfl
@[simp] theorem waitAtLeast_waits (n : Nat) (s : State) : (waitAtLeast n s).waits = s.waits + 1 := rfl
@[simp] theorem waitAtLeast_draws (n : Nat) (s : State) : (waitAtLeast n s).draws = s.draws := rfl

/-! ### accept -/

@[simp] theorem accept_clk (i : Instr) (s : State) : (accept i s).clk = s.clk := rfl
@[simp] theorem accept_dioOut (i : Instr) (s : State) : (accept i s).dioOut = s.dioOut := rfl
@[simp] theorem accept_dioOe (i : Instr) (s : State) : (accept i s).dioOe = s.dioOe := rfl
@[simp] theorem accept_dioIn (i : Instr) (s : State) : (accept i s).dioIn = s.dioIn := rfl
@[simp] theorem accept_pwr (i : Instr) (s : State) : (accept i s).pwr = s.pwr := rfl
@[simp] theorem accept_window (i : Instr) (s : State) : (accept i s).window = s.window := rfl
@[simp] theorem accept_shreg (i : Instr) (s : State) : (accept i s).shreg = s.shreg := rfl
@[simp] theorem accept_bitcnt (i : Instr) (s : State) : (accept i s).bitcnt = s.bitcnt := rfl
@[simp] theorem accept_wordcnt (i : Instr) (s : State) : (accept i s).wordcnt = s.wordcnt := rfl
@[simp] theorem accept_seq (i : Instr) (s : State) : (accept i s).seq = Seq.running := rfl
@[simp] theorem accept_pollcnt (i : Instr) (s : State) : (accept i s).pollcnt = s.pollcnt := rfl
@[simp] theorem accept_busy (i : Instr) (s : State) : (accept i s).busy = true := rfl
@[simp] theorem accept_op (i : Instr) (s : State) : (accept i s).op = some i := rfl
@[simp] theorem accept_result (i : Instr) (s : State) : (accept i s).result = s.result := rfl
@[simp] theorem accept_err (i : Instr) (s : State) : (accept i s).err = s.err := rfl
@[simp] theorem accept_bytes (i : Instr) (s : State) : (accept i s).bytes = s.bytes := rfl
@[simp] theorem accept_words (i : Instr) (s : State) : (accept i s).words = s.words := rfl
@[simp] theorem accept_params (i : Instr) (s : State) : (accept i s).params = s.params := rfl
@[simp] theorem accept_inputs (i : Instr) (s : State) : (accept i s).inputs = s.inputs := rfl
@[simp] theorem accept_waitIn (i : Instr) (s : State) : (accept i s).waitIn = s.waitIn := rfl
@[simp] theorem accept_log (i : Instr) (s : State) : (accept i s).log = s.log := rfl
@[simp] theorem accept_resets (i : Instr) (s : State) : (accept i s).resets = s.resets := rfl
@[simp] theorem accept_samples (i : Instr) (s : State) : (accept i s).samples = s.samples := rfl
@[simp] theorem accept_waits (i : Instr) (s : State) : (accept i s).waits = s.waits := rfl
@[simp] theorem accept_draws (i : Instr) (s : State) : (accept i s).draws = s.draws := rfl

/-! ### reportErr -/

@[simp] theorem reportErr_clk (e : Option ErrRecord) (s : State) : (reportErr e s).clk = s.clk := rfl
@[simp] theorem reportErr_dioOut (e : Option ErrRecord) (s : State) : (reportErr e s).dioOut = s.dioOut := rfl
@[simp] theorem reportErr_dioOe (e : Option ErrRecord) (s : State) : (reportErr e s).dioOe = s.dioOe := rfl
@[simp] theorem reportErr_dioIn (e : Option ErrRecord) (s : State) : (reportErr e s).dioIn = s.dioIn := rfl
@[simp] theorem reportErr_pwr (e : Option ErrRecord) (s : State) : (reportErr e s).pwr = s.pwr := rfl
@[simp] theorem reportErr_window (e : Option ErrRecord) (s : State) : (reportErr e s).window = s.window := rfl
@[simp] theorem reportErr_shreg (e : Option ErrRecord) (s : State) : (reportErr e s).shreg = s.shreg := rfl
@[simp] theorem reportErr_bitcnt (e : Option ErrRecord) (s : State) : (reportErr e s).bitcnt = s.bitcnt := rfl
@[simp] theorem reportErr_wordcnt (e : Option ErrRecord) (s : State) : (reportErr e s).wordcnt = s.wordcnt := rfl
@[simp] theorem reportErr_seq (e : Option ErrRecord) (s : State) : (reportErr e s).seq = Seq.idle := rfl
@[simp] theorem reportErr_pollcnt (e : Option ErrRecord) (s : State) : (reportErr e s).pollcnt = s.pollcnt := rfl
@[simp] theorem reportErr_busy (e : Option ErrRecord) (s : State) : (reportErr e s).busy = false := rfl
@[simp] theorem reportErr_op (e : Option ErrRecord) (s : State) : (reportErr e s).op = s.op := rfl
@[simp] theorem reportErr_result (e : Option ErrRecord) (s : State) : (reportErr e s).result = s.result := rfl
@[simp] theorem reportErr_err (e : Option ErrRecord) (s : State) : (reportErr e s).err = e := rfl
@[simp] theorem reportErr_bytes (e : Option ErrRecord) (s : State) : (reportErr e s).bytes = s.bytes := rfl
@[simp] theorem reportErr_words (e : Option ErrRecord) (s : State) : (reportErr e s).words = s.words := rfl
@[simp] theorem reportErr_params (e : Option ErrRecord) (s : State) : (reportErr e s).params = s.params := rfl
@[simp] theorem reportErr_inputs (e : Option ErrRecord) (s : State) : (reportErr e s).inputs = s.inputs := rfl
@[simp] theorem reportErr_waitIn (e : Option ErrRecord) (s : State) : (reportErr e s).waitIn = s.waitIn := rfl
@[simp] theorem reportErr_log (e : Option ErrRecord) (s : State) : (reportErr e s).log = s.log := rfl
@[simp] theorem reportErr_resets (e : Option ErrRecord) (s : State) : (reportErr e s).resets = s.resets := rfl
@[simp] theorem reportErr_samples (e : Option ErrRecord) (s : State) : (reportErr e s).samples = s.samples := rfl
@[simp] theorem reportErr_waits (e : Option ErrRecord) (s : State) : (reportErr e s).waits = s.waits := rfl
@[simp] theorem reportErr_draws (e : Option ErrRecord) (s : State) : (reportErr e s).draws = s.draws := rfl

/-! ### freeResult -/

@[simp] theorem freeResult_clk (s : State) : (freeResult s).clk = s.clk := rfl
@[simp] theorem freeResult_dioOut (s : State) : (freeResult s).dioOut = s.dioOut := rfl
@[simp] theorem freeResult_dioOe (s : State) : (freeResult s).dioOe = s.dioOe := rfl
@[simp] theorem freeResult_dioIn (s : State) : (freeResult s).dioIn = s.dioIn := rfl
@[simp] theorem freeResult_pwr (s : State) : (freeResult s).pwr = s.pwr := rfl
@[simp] theorem freeResult_window (s : State) : (freeResult s).window = s.window := rfl
@[simp] theorem freeResult_shreg (s : State) : (freeResult s).shreg = s.shreg := rfl
@[simp] theorem freeResult_bitcnt (s : State) : (freeResult s).bitcnt = s.bitcnt := rfl
@[simp] theorem freeResult_wordcnt (s : State) : (freeResult s).wordcnt = s.wordcnt := rfl
@[simp] theorem freeResult_seq (s : State) : (freeResult s).seq = s.seq := rfl
@[simp] theorem freeResult_pollcnt (s : State) : (freeResult s).pollcnt = s.pollcnt := rfl
@[simp] theorem freeResult_busy (s : State) : (freeResult s).busy = s.busy := rfl
@[simp] theorem freeResult_op (s : State) : (freeResult s).op = s.op := rfl
@[simp] theorem freeResult_result (s : State) : (freeResult s).result = Config.freeResult s.draws := rfl
@[simp] theorem freeResult_err (s : State) : (freeResult s).err = s.err := rfl
@[simp] theorem freeResult_bytes (s : State) : (freeResult s).bytes = s.bytes := rfl
@[simp] theorem freeResult_words (s : State) : (freeResult s).words = s.words := rfl
@[simp] theorem freeResult_params (s : State) : (freeResult s).params = s.params := rfl
@[simp] theorem freeResult_inputs (s : State) : (freeResult s).inputs = s.inputs := rfl
@[simp] theorem freeResult_waitIn (s : State) : (freeResult s).waitIn = s.waitIn := rfl
@[simp] theorem freeResult_log (s : State) : (freeResult s).log = s.log := rfl
@[simp] theorem freeResult_resets (s : State) : (freeResult s).resets = s.resets := rfl
@[simp] theorem freeResult_samples (s : State) : (freeResult s).samples = s.samples := rfl
@[simp] theorem freeResult_waits (s : State) : (freeResult s).waits = s.waits := rfl
@[simp] theorem freeResult_draws (s : State) : (freeResult s).draws = s.draws + 1 := rfl

/-! ### initCache -/

@[simp] theorem initCache_clk (s : State) : (initCache s).clk = s.clk := rfl
@[simp] theorem initCache_dioOut (s : State) : (initCache s).dioOut = s.dioOut := rfl
@[simp] theorem initCache_dioOe (s : State) : (initCache s).dioOe = s.dioOe := rfl
@[simp] theorem initCache_dioIn (s : State) : (initCache s).dioIn = s.dioIn := rfl
@[simp] theorem initCache_pwr (s : State) : (initCache s).pwr = s.pwr := rfl
@[simp] theorem initCache_window (s : State) : (initCache s).window = s.params.windowSentinel := rfl
@[simp] theorem initCache_shreg (s : State) : (initCache s).shreg = s.shreg := rfl
@[simp] theorem initCache_bitcnt (s : State) : (initCache s).bitcnt = s.bitcnt := rfl
@[simp] theorem initCache_wordcnt (s : State) : (initCache s).wordcnt = s.wordcnt := rfl
@[simp] theorem initCache_seq (s : State) : (initCache s).seq = s.seq := rfl
@[simp] theorem initCache_pollcnt (s : State) : (initCache s).pollcnt = 0 := rfl
@[simp] theorem initCache_busy (s : State) : (initCache s).busy = s.busy := rfl
@[simp] theorem initCache_op (s : State) : (initCache s).op = s.op := rfl
@[simp] theorem initCache_result (s : State) : (initCache s).result = s.result := rfl
@[simp] theorem initCache_err (s : State) : (initCache s).err = s.err := rfl
@[simp] theorem initCache_bytes (s : State) : (initCache s).bytes = s.bytes := rfl
@[simp] theorem initCache_words (s : State) : (initCache s).words = s.words := rfl
@[simp] theorem initCache_params (s : State) : (initCache s).params = s.params := rfl
@[simp] theorem initCache_inputs (s : State) : (initCache s).inputs = s.inputs := rfl
@[simp] theorem initCache_waitIn (s : State) : (initCache s).waitIn = s.waitIn := rfl
@[simp] theorem initCache_log (s : State) : (initCache s).log = s.log := rfl
@[simp] theorem initCache_resets (s : State) : (initCache s).resets = s.resets := rfl
@[simp] theorem initCache_samples (s : State) : (initCache s).samples = s.samples := rfl
@[simp] theorem initCache_waits (s : State) : (initCache s).waits = s.waits := rfl
@[simp] theorem initCache_draws (s : State) : (initCache s).draws = s.draws := rfl

/-! ### Derived views -/

theorem trace_of_log {s t : State} (es : List Event) (h : t.log = es.reverse ++ s.log) : t.trace = s.trace ++ es := by
  simp [State.trace, h]

@[simp] theorem emit_deviceLevel (e : Event) (s : State) (k : Nat) : (emit e s).deviceLevel k = s.deviceLevel k := rfl
@[simp] theorem shiftIn_deviceLevel (b : Bool) (s : State) (k : Nat) : (shiftIn b s).deviceLevel k = s.deviceLevel k := rfl
@[simp] theorem countBit_deviceLevel (s : State) (k : Nat) : (countBit s).deviceLevel k = s.deviceLevel k := rfl
@[simp] theorem countWord_deviceLevel (s : State) (k : Nat) : (countWord s).deviceLevel k = s.deviceLevel k := rfl
@[simp] theorem leaveLoops_deviceLevel (s : State) (k : Nat) : (leaveLoops s).deviceLevel k = s.deviceLevel k := rfl
@[simp] theorem setPower_deviceLevel (b : Bool) (s : State) (k : Nat) : (setPower b s).deviceLevel k = s.deviceLevel k := rfl
@[simp] theorem waitAtLeast_deviceLevel (n : Nat) (s : State) (k : Nat) : (waitAtLeast n s).deviceLevel k = s.deviceLevel k := rfl
@[simp] theorem accept_deviceLevel (i : Instr) (s : State) (k : Nat) : (accept i s).deviceLevel k = s.deviceLevel k := rfl
@[simp] theorem reportErr_deviceLevel (e : Option ErrRecord) (s : State) (k : Nat) : (reportErr e s).deviceLevel k = s.deviceLevel k := rfl
@[simp] theorem freeResult_deviceLevel (s : State) (k : Nat) : (freeResult s).deviceLevel k = s.deviceLevel k := rfl
@[simp] theorem initCache_deviceLevel (s : State) (k : Nat) : (initCache s).deviceLevel k = s.deviceLevel k := rfl

end Sys2Proof.Machine
end

