-- ==== Sys2Proof/Laws/Transport.lean ====
section
/-! SUPPORT. What the transport can do, said once: on an idle wire a write call is `sent` and a read call is `received`, two closed forms
with a lemma per field. -/

namespace Sys2Proof.Machine

/-! ### One bit-time -/

theorem writeBit_eq (s : State) (hclk : s.clk = false) (hoe : s.dioOe = true) :
    writeBit s = { s with
      dioOut := s.shreg.msb
      shreg := s.shreg <<< 1
      bitcnt := s.bitcnt + 1
      log := .fall :: .rise :: .drive s.shreg.msb :: s.log } := by
  obtain ⟨clk, dioOut, dioOe⟩ := s
  simp only at hclk hoe
  subst hclk hoe
  simp [writeBit, driveLine, clockHigh, clockLow, emit, shiftIn, countBit]

theorem readBit_eq (s : State) (hclk : s.clk = false) (hoe : s.dioOe = false) (hf : s.params.readFraming = .rsf) :
    readBit s = { s with
      dioIn := s.dioIn.tail
      samples := s.samples + 1
      shreg := (s.shreg <<< 1) ||| (BitVec.ofBool (s.deviceLevel 0)).setWidth 32
      bitcnt := s.bitcnt + 1
      log := .fall :: .sample (s.deviceLevel 0) :: .rise :: s.log } := by
  obtain ⟨clk, dioOut, dioOe⟩ := s
  simp only at hclk hoe hf
  subst hclk hoe
  simp [readBit, hf, sampleShift, sampleLine, State.lineLevel, clockHigh, clockLow, emit, shiftIn, countBit, State.deviceLevel]

/-! ### A written word -/

/-- The events of the first `k` bit-times of a written word, in time order. -/
def writtenBits (w : Word) (k : Nat) : List Event :=
  (List.range k).flatMap fun j => [.drive (w.getMsbD j), .rise, .fall]

theorem writtenBits_succ (w : Word) (k : Nat) :
    writtenBits w (k + 1) = writtenBits w k ++ [.drive (w.getMsbD k), .rise, .fall] := by
  simp [writtenBits, List.range_succ]

theorem writeBits_succ (k : Nat) (s : State) : writeBits (k + 1) s = writeBit (writeBits k s) := by
  induction k generalizing s with
  | zero => rfl
  | succ k ih => rw [writeBits, ih (writeBit s)]; rfl

theorem writeBits_eq (k : Nat) (w : Word) (s : State) (hclk : s.clk = false) (hoe : s.dioOe = true) (hw : s.shreg = w) :
    writeBits k s = { s with
      dioOut := if k = 0 then s.dioOut else w.getMsbD (k - 1)
      shreg := w <<< k
      bitcnt := s.bitcnt + BitVec.ofNat 6 k
      log := (writtenBits w k).reverse ++ s.log } := by
  induction k with
  | zero => subst hw; simp [writeBits, writtenBits]
  | succ k ih =>
    rw [writeBits_succ, ih, writtenBits_succ, writeBit_eq]
    case hclk => exact hclk
    case hoe => exact hoe
    have hmsb : (w <<< k).msb = w.getMsbD k := by simp [BitVec.msb, BitVec.getMsbD_shiftLeft]
    have hcnt : s.bitcnt + BitVec.ofNat 6 k + 1 = s.bitcnt + BitVec.ofNat 6 (k + 1) := by
      rw [BitVec.add_assoc]; congr 1; simp [BitVec.ofNat_add]
    rw [hcnt]
    simp [hmsb, BitVec.shiftLeft_add]

theorem writtenWordEvents_eq (w : Word) : writtenWordEvents w = writtenBits w 32 := by
  simp only [writtenWordEvents, wordBits, writtenBits, List.flatMap_map]
  refine List.flatMap_congr fun j hj => ?_
  have : j < 32 := List.mem_range.1 hj
  simp [BitVec.getMsbD, this]

theorem writeWord_eq (w : Word) (s : State) (hclk : s.clk = false) (hoe : s.dioOe = true) :
    writeWord w s = { s with
      dioOut := w.getLsbD 0
      shreg := 0
      bitcnt := 32
      wordcnt := s.wordcnt + 1
      log := (writtenWordEvents w).reverse ++ s.log } := by
  rw [writtenWordEvents_eq, writeWord, writeBits_eq 32 w]
  case hclk => exact hclk
  case hoe => exact hoe
  case hw => rfl
  have hz : w <<< 32 = 0#32 := by simp
  simp [countWord, BitVec.getMsbD, hz]

/-! ### A write call -/

theorem writeWords_eq (ws : List Word) (s : State) (hclk : s.clk = false) (hoe : s.dioOe = true) :
    ∃ sh bc wc, writeWords ws s = { s with
      dioOut := ((ws.getLast?).map fun w => w.getLsbD 0).getD s.dioOut
      shreg := sh
      bitcnt := bc
      wordcnt := wc
      log := (ws.flatMap writtenWordEvents).reverse ++ s.log } := by
  induction ws generalizing s with
  | nil => exact ⟨s.shreg, s.bitcnt, s.wordcnt, by simp [writeWords]⟩
  | cons w ws ih =>
    obtain ⟨sh, bc, wc, h⟩ := ih (writeWord w s) (by rw [writeWord_eq w s hclk hoe]; exact hclk) (by rw [writeWord_eq w s hclk hoe]; exact hoe)
    refine ⟨sh, bc, wc, ?_⟩
    rw [writeWords, h, writeWord_eq w s hclk hoe]
    cases ws with
    | nil => simp
    | cons v vs => simp [List.getLast?_cons]

/-- The closed form of a non-empty write call on an idle wire (40_transport.md R112 to R116). -/
def sent (ws : List Word) (s : State) : State :=
  { s with
    dioOut := ((ws.getLast?).map fun w => w.getLsbD 0).getD s.dioOut
    shreg := Config.freeShreg s.draws
    bitcnt := BitVec.ofNat 6 (Config.freeBitcnt s.draws % 33)
    wordcnt := Config.freeWordcnt s.draws
    draws := s.draws + 1
    log := (txEvents ws).reverse ++ s.log }

theorem txWords_eq_sent (ws : List Word) (s : State) (hne : ws ≠ []) (hclk : s.clk = false) (hoe : s.dioOe = false) :
    txWords ws s = sent ws s := by
  cases ws with
  | nil => exact absurd rfl hne
  | cons w rest =>
    have htake : takeLine s = { s with dioOe := true, log := .take :: s.log } := by
      simp [takeLine, hoe, emit]
    obtain ⟨sh, bc, wc, h⟩ := writeWords_eq (w :: rest) { takeLine s with wordcnt := 0 }
      (by rw [htake]; exact hclk) (by rw [htake])
    simp only [txWords]
    rw [h, htake]
    have hlog : Event.release :: ((List.flatMap writtenWordEvents (w :: rest)).reverse ++ Event.take :: s.log) =
        (txEvents (w :: rest)).reverse ++ s.log := by
      simp [txEvents]
    simp only [releaseLine, emit, if_true, leaveLoops, sent, hlog]
    obtain ⟨⟩ := s
    simp only at hoe
    subst hoe
    rfl

@[simp] theorem txWords_nil (s : State) : txWords [] s = s := rfl

/-! ### A received word -/

/-- The value of `SHREG` after `k` samples, from the value `x` before them. -/
def shiftedIn (level : Nat → Bool) (x : Word) (k : Nat) : Word :=
  (List.range k).foldl (fun acc j => (acc <<< 1) ||| (BitVec.ofBool (level j)).setWidth 32) x

theorem shiftedIn_succ (level : Nat → Bool) (x : Word) (k : Nat) :
    shiftedIn level x (k + 1) = (shiftedIn level x k <<< 1) ||| (BitVec.ofBool (level k)).setWidth 32 := by
  simp [shiftedIn, List.range_succ]

/-- The events of the first `k` bit-times of a received word, in time order. -/
def receivedBits (level : Nat → Bool) (k : Nat) : List Event :=
  (List.range k).flatMap fun j => [.rise, .sample (level j), .fall]

theorem receivedBits_succ (level : Nat → Bool) (k : Nat) :
    receivedBits level (k + 1) = receivedBits level k ++ [.rise, .sample (level k), .fall] := by
  simp [receivedBits, List.range_succ]

theorem readBits_succ (k : Nat) (s : State) : readBits (k + 1) s = readBit (readBits k s) := by
  induction k generalizing s with
  | zero => rfl
  | succ k ih => rw [readBits, ih (readBit s)]; rfl

theorem deviceLevel_drop (s t : State) (n k : Nat) (hd : t.dioIn = s.dioIn.drop n) (hs : t.samples = s.samples + n) :
    t.deviceLevel k = s.deviceLevel (n + k) := by
  simp [State.deviceLevel, hd, hs, Nat.add_assoc]

theorem readBits_eq (k : Nat) (s : State) (hclk : s.clk = false) (hoe : s.dioOe = false) (hf : s.params.readFraming = .rsf) :
    readBits k s = { s with
      dioIn := s.dioIn.drop k
      samples := s.samples + k
      shreg := shiftedIn s.deviceLevel s.shreg k
      bitcnt := s.bitcnt + BitVec.ofNat 6 k
      log := (receivedBits s.deviceLevel k).reverse ++ s.log } := by
  induction k with
  | zero => simp [readBits, receivedBits, shiftedIn]
  | succ k ih =>
    rw [readBits_succ, ih, receivedBits_succ, shiftedIn_succ, readBit_eq]
    case hclk => exact hclk
    case hoe => exact hoe
    case hf => exact hf
    have hlev : State.deviceLevel { s with
        dioIn := s.dioIn.drop k, samples := s.samples + k, shreg := shiftedIn s.deviceLevel s.shreg k,
        bitcnt := s.bitcnt + BitVec.ofNat 6 k, log := (receivedBits s.deviceLevel k).reverse ++ s.log } 0 = s.deviceLevel k :=
      deviceLevel_drop s _ k 0 rfl rfl
    have hcnt : s.bitcnt + BitVec.ofNat 6 k + 1 = s.bitcnt + BitVec.ofNat 6 (k + 1) := by
      rw [BitVec.add_assoc]; congr 1; simp [BitVec.ofNat_add]
    rw [hcnt]
    simp [hlev, Nat.add_assoc]

theorem shiftedIn_zero_getLsbD (level : Nat → Bool) (k i : Nat) (hk : k ≤ 32) :
    (shiftedIn level 0 k).getLsbD i = (decide (i < k) && level (k - 1 - i)) := by
  induction k generalizing i with
  | zero => simp [shiftedIn]
  | succ k ih =>
    rw [shiftedIn_succ, BitVec.getLsbD_or, BitVec.getLsbD_shiftLeft, ih (i - 1) (by omega)]
    by_cases hi : i = 0
    · subst hi; simp
    · have h1 : ¬ i < 1 := by omega
      have h2 : (BitVec.ofBool (level k)).getLsbD i = false := by
        apply BitVec.getLsbD_of_ge; omega
      by_cases hlt : i < k + 1
      · have e1 : k - 1 - (i - 1) = k + 1 - 1 - i := by omega
        have e2 : i - 1 < k := by omega
        have e3 : i < 32 := by omega
        simp [h1, h2, hlt, e1, e2, e3]
      · have e2 : ¬ i - 1 < k := by omega
        simp [h1, h2, hlt, e2, BitVec.getLsbD_setWidth]

theorem levelsWord_eq_shiftedIn (level : Nat → Bool) (k : Nat) :
    levelsWord level k = shiftedIn (fun j => level (k + j)) 0 32 := rfl

/-- Bit `31 - j` of a received word is the `j`-th level of its 32 (40_transport.md R118, R121). -/
theorem levelsWord_getLsbD (level : Nat → Bool) (k j : Nat) (hj : j < 32) :
    (levelsWord level k).getLsbD (31 - j) = level (k + j) := by
  rw [levelsWord_eq_shiftedIn, shiftedIn_zero_getLsbD _ _ _ (Nat.le_refl 32)]
  have h1 : 31 - j < 32 := by omega
  have h2 : 32 - 1 - (31 - j) = j := by omega
  simp [h1, h2]

theorem receivedWordEvents_levelsWord (level : Nat → Bool) (k : Nat) :
    receivedWordEvents (levelsWord level k) = receivedBits (fun j => level (k + j)) 32 := by
  simp only [receivedWordEvents, wordBits, receivedBits, List.flatMap_map]
  refine List.flatMap_congr fun j hj => ?_
  simp only [levelsWord_getLsbD level k j (List.mem_range.1 hj)]

theorem readWord_eq (s : State) (hclk : s.clk = false) (hoe : s.dioOe = false) (hf : s.params.readFraming = .rsf) :
    readWord s = { s with
      dioIn := s.dioIn.drop 32
      samples := s.samples + 32
      shreg := levelsWord s.deviceLevel 0
      bitcnt := 32
      wordcnt := s.wordcnt + 1
      log := (receivedWordEvents (levelsWord s.deviceLevel 0)).reverse ++ s.log } := by
  rw [receivedWordEvents_levelsWord, levelsWord_eq_shiftedIn, readWord, readBits_eq 32]
  case hclk => exact hclk
  case hoe => exact hoe
  case hf => exact hf
  have : (fun j => State.deviceLevel s (0 + j)) = s.deviceLevel := by funext j; simp
  have hlev : State.deviceLevel { s with shreg := 0, bitcnt := 0 } = s.deviceLevel := rfl
  simp only [this, hlev]
  simp [countWord]

/-! ### A read call -/

theorem deviceWords_succ (s t : State) (n : Nat) (hd : t.dioIn = s.dioIn.drop 32) (hs : t.samples = s.samples + 32) :
    s.deviceWords (n + 1) = levelsWord s.deviceLevel 0 :: t.deviceWords n := by
  simp only [State.deviceWords, List.range_succ_eq_map, List.map_cons, List.map_map]
  congr 1
  refine List.map_congr_left fun k _ => ?_
  simp only [Function.comp, levelsWord]
  congr 1
  funext acc j
  rw [deviceLevel_drop s t 32 _ hd hs]
  rw [show 32 + (32 * k + j) = 32 * (k + 1) + j by omega]

theorem readWords_eq (n : Nat) (s : State) (hclk : s.clk = false) (hoe : s.dioOe = false) (hf : s.params.readFraming = .rsf) :
    ∃ sh bc wc, readWords n s = ({ s with
      dioIn := s.dioIn.drop (32 * n)
      samples := s.samples + 32 * n
      shreg := sh
      bitcnt := bc
      wordcnt := wc
      log := (rxEvents (s.deviceWords n)).reverse ++ s.log }, s.deviceWords n) := by
  induction n generalizing s with
  | zero => exact ⟨s.shreg, s.bitcnt, s.wordcnt, by simp [readWords, State.deviceWords, rxEvents]⟩
  | succ n ih =>
    have hw := readWord_eq s hclk hoe hf
    obtain ⟨sh, bc, wc, h⟩ := ih (readWord s) (by rw [hw]; exact hclk) (by rw [hw]; exact hoe) (by rw [hw]; exact hf)
    refine ⟨sh, bc, wc, ?_⟩
    have hdw := deviceWords_succ s (readWord s) n (by rw [hw]) (by rw [hw])
    simp only [readWords, h, hdw]
    rw [hw]
    simp only [rxEvents, List.flatMap_cons, List.reverse_append, List.append_assoc, List.drop_drop, Prod.mk.injEq, and_true]
    congr 1 <;> first | (congr 1; omega) | omega

/-- The closed form of a non-empty read call of `n` words on an idle wire (40_transport.md R118 to R121). -/
def received (n : Nat) (s : State) : State :=
  { s with
    dioIn := s.dioIn.drop (32 * n)
    samples := s.samples + 32 * n
    shreg := Config.freeShreg s.draws
    bitcnt := BitVec.ofNat 6 (Config.freeBitcnt s.draws % 33)
    wordcnt := Config.freeWordcnt s.draws
    draws := s.draws + 1
    log := (rxEvents (s.deviceWords n)).reverse ++ s.log }

theorem rxWords_eq_received (n : Nat) (s : State) (hn : n ≠ 0) (hclk : s.clk = false) (hoe : s.dioOe = false)
    (hf : s.params.readFraming = .rsf) : rxWords n s = (received n s, s.deviceWords n) := by
  cases n with
  | zero => exact absurd rfl hn
  | succ n =>
    obtain ⟨sh, bc, wc, h⟩ := readWords_eq (n + 1) { enterRead s with wordcnt := 0 }
      (by simp [enterRead, hf, hclk]) (by simp [enterRead, hf, hoe]) (by simp [enterRead, hf])
    simp only [rxWords]
    rw [h]
    have hdw : State.deviceWords { enterRead s with wordcnt := 0 } (n + 1) = s.deviceWords (n + 1) := by
      simp [enterRead, hf, State.deviceWords]; intros; rfl
    simp only [hdw, Prod.mk.injEq, and_true]
    simp [leaveRead, enterRead, hf, leaveLoops, received]

@[simp] theorem rxWords_zero (s : State) : rxWords 0 s = (s, []) := rfl

/-! ### Field by field -/

@[simp] theorem sent_clk (ws : List Word) (s : State) : (sent ws s).clk = s.clk := rfl
@[simp] theorem sent_dioOut (ws : List Word) (s : State) : (sent ws s).dioOut = ((ws.getLast?).map fun w => w.getLsbD 0).getD s.dioOut := rfl
@[simp] theorem sent_dioOe (ws : List Word) (s : State) : (sent ws s).dioOe = s.dioOe := rfl
@[simp] theorem sent_dioIn (ws : List Word) (s : State) : (sent ws s).dioIn = s.dioIn := rfl
@[simp] theorem sent_pwr (ws : List Word) (s : State) : (sent ws s).pwr = s.pwr := rfl
@[simp] theorem sent_window (ws : List Word) (s : State) : (sent ws s).window = s.window := rfl
@[simp] theorem sent_shreg (ws : List Word) (s : State) : (sent ws s).shreg = Config.freeShreg s.draws := rfl
@[simp] theorem sent_bitcnt (ws : List Word) (s : State) : (sent ws s).bitcnt = BitVec.ofNat 6 (Config.freeBitcnt s.draws % 33) := rfl
@[simp] theorem sent_wordcnt (ws : List Word) (s : State) : (sent ws s).wordcnt = Config.freeWordcnt s.draws := rfl
@[simp] theorem sent_seq (ws : List Word) (s : State) : (sent ws s).seq = s.seq := rfl
@[simp] theorem sent_pollcnt (ws : List Word) (s : State) : (sent ws s).pollcnt = s.pollcnt := rfl
@[simp] theorem sent_busy (ws : List Word) (s : State) : (sent ws s).busy = s.busy := rfl
@[simp] theorem sent_op (ws : List Word) (s : State) : (sent ws s).op = s.op := rfl
@[simp] theorem sent_result (ws : List Word) (s : State) : (sent ws s).result = s.result := rfl
@[simp] theorem sent_err (ws : List Word) (s : State) : (sent ws s).err = s.err := rfl
@[simp] theorem sent_bytes (ws : List Word) (s : State) : (sent ws s).bytes = s.bytes := rfl
@[simp] theorem sent_words (ws : List Word) (s : State) : (sent ws s).words = s.words := rfl
@[simp] theorem sent_params (ws : List Word) (s : State) : (sent ws s).params = s.params := rfl
@[simp] theorem sent_inputs (ws : List Word) (s : State) : (sent ws s).inputs = s.inputs := rfl
@[simp] theorem sent_waitIn (ws : List Word) (s : State) : (sent ws s).waitIn = s.waitIn := rfl
@[simp] theorem sent_samples (ws : List Word) (s : State) : (sent ws s).samples = s.samples := rfl
@[simp] theorem sent_waits (ws : List Word) (s : State) : (sent ws s).waits = s.waits := rfl
@[simp] theorem sent_draws (ws : List Word) (s : State) : (sent ws s).draws = s.draws + 1 := rfl
@[simp] theorem received_clk (n : Nat) (s : State) : (received n s).clk = s.clk := rfl
@[simp] theorem received_dioOut (n : Nat) (s : State) : (received n s).dioOut = s.dioOut := rfl
@[simp] theorem received_dioOe (n : Nat) (s : State) : (received n s).dioOe = s.dioOe := rfl
@[simp] theorem received_dioIn (n : Nat) (s : State) : (received n s).dioIn = s.dioIn.drop (32 * n) := rfl
@[simp] theorem received_pwr (n : Nat) (s : State) : (received n s).pwr = s.pwr := rfl
@[simp] theorem received_window (n : Nat) (s : State) : (received n s).window = s.window := rfl
@[simp] theorem received_shreg (n : Nat) (s : State) : (received n s).shreg = Config.freeShreg s.draws := rfl
@[simp] theorem received_bitcnt (n : Nat) (s : State) : (received n s).bitcnt = BitVec.ofNat 6 (Config.freeBitcnt s.draws % 33) := rfl
@[simp] theorem received_wordcnt (n : Nat) (s : State) : (received n s).wordcnt = Config.freeWordcnt s.draws := rfl
@[simp] theorem received_seq (n : Nat) (s : State) : (received n s).seq = s.seq := rfl
@[simp] theorem received_pollcnt (n : Nat) (s : State) : (received n s).pollcnt = s.pollcnt := rfl
@[simp] theorem received_busy (n : Nat) (s : State) : (received n s).busy = s.busy := rfl
@[simp] theorem received_op (n : Nat) (s : State) : (received n s).op = s.op := rfl
@[simp] theorem received_result (n : Nat) (s : State) : (received n s).result = s.result := rfl
@[simp] theorem received_err (n : Nat) (s : State) : (received n s).err = s.err := rfl
@[simp] theorem received_bytes (n : Nat) (s : State) : (received n s).bytes = s.bytes := rfl
@[simp] theorem received_words (n : Nat) (s : State) : (received n s).words = s.words := rfl
@[simp] theorem received_params (n : Nat) (s : State) : (received n s).params = s.params := rfl
@[simp] theorem received_inputs (n : Nat) (s : State) : (received n s).inputs = s.inputs := rfl
@[simp] theorem received_waitIn (n : Nat) (s : State) : (received n s).waitIn = s.waitIn := rfl
@[simp] theorem received_samples (n : Nat) (s : State) : (received n s).samples = s.samples + 32 * n := rfl
@[simp] theorem received_waits (n : Nat) (s : State) : (received n s).waits = s.waits := rfl
@[simp] theorem received_draws (n : Nat) (s : State) : (received n s).draws = s.draws + 1 := rfl

@[simp] theorem sent_trace (ws : List Word) (s : State) : (sent ws s).trace = s.trace ++ txEvents ws :=
  trace_of_log _ rfl

@[simp] theorem received_trace (n : Nat) (s : State) : (received n s).trace = s.trace ++ rxEvents (s.deviceWords n) :=
  trace_of_log _ rfl

@[simp] theorem sent_deviceLevel (ws : List Word) (s : State) (k : Nat) : (sent ws s).deviceLevel k = s.deviceLevel k := rfl

@[simp] theorem received_deviceLevel (n : Nat) (s : State) (k : Nat) :
    (received n s).deviceLevel k = s.deviceLevel (32 * n + k) := deviceLevel_drop s _ _ k rfl rfl

/-- The words the device will make depend on its coming levels only. -/
theorem deviceWords_congr {s t : State} (n : Nat) (h : ∀ k, t.deviceLevel k = s.deviceLevel k) : t.deviceWords n = s.deviceWords n := by
  have : t.deviceLevel = s.deviceLevel := funext h
  simp [State.deviceWords, this]

@[simp] theorem sent_deviceWords (ws : List Word) (s : State) (n : Nat) : (sent ws s).deviceWords n = s.deviceWords n :=
  deviceWords_congr n fun _ => rfl

@[simp] theorem deviceWords_length (s : State) (n : Nat) : (s.deviceWords n).length = n := by simp [State.deviceWords]

/-- The words from word `k` on are what the device makes after `k` received words. -/
theorem received_deviceWords (k n : Nat) (s : State) : (received k s).deviceWords n = wordsFrom s.deviceLevel k n := by
  simp only [State.deviceWords, wordsFrom]
  refine List.map_congr_left fun j _ => ?_
  simp only [levelsWord]
  congr 1
  funext acc i
  rw [received_deviceLevel, show 32 * k + (32 * j + i) = 32 * (k + j) + i by omega]

theorem deviceWords_eq_wordsFrom (s : State) (n : Nat) : s.deviceWords n = wordsFrom s.deviceLevel 0 n := by
  simp [State.deviceWords, wordsFrom]

end Sys2Proof.Machine
end

