-- ==== Sys2Proof/Laws/Frame.lean ====
section
/-! SUPPORT. What no transport call touches, in every state and under every framing: the relation `LinkOnly`, with one lemma per operation on
the link. -/

namespace Sys2Proof.Machine

/-- `t` differs from `s` in the lines, the transport registers, the samples, the free-value index and the trace only. -/
structure LinkOnly (s t : State) : Prop where
  pwr : t.pwr = s.pwr
  window : t.window = s.window
  seq : t.seq = s.seq
  pollcnt : t.pollcnt = s.pollcnt
  busy : t.busy = s.busy
  op : t.op = s.op
  result : t.result = s.result
  err : t.err = s.err
  bytes : t.bytes = s.bytes
  words : t.words = s.words
  params : t.params = s.params
  inputs : t.inputs = s.inputs
  waitIn : t.waitIn = s.waitIn
  waits : t.waits = s.waits
  resets : t.resets = s.resets

theorem LinkOnly.refl (s : State) : LinkOnly s s := by constructor <;> rfl

theorem LinkOnly.trans {s t u : State} (h : LinkOnly s t) (k : LinkOnly t u) : LinkOnly s u := by
  constructor
  · exact k.pwr.trans h.pwr
  · exact k.window.trans h.window
  · exact k.seq.trans h.seq
  · exact k.pollcnt.trans h.pollcnt
  · exact k.busy.trans h.busy
  · exact k.op.trans h.op
  · exact k.result.trans h.result
  · exact k.err.trans h.err
  · exact k.bytes.trans h.bytes
  · exact k.words.trans h.words
  · exact k.params.trans h.params
  · exact k.inputs.trans h.inputs
  · exact k.waitIn.trans h.waitIn
  · exact k.waits.trans h.waits
  · exact k.resets.trans h.resets

theorem clockHigh_linkOnly (s : State) : LinkOnly s (clockHigh s) := by
  unfold clockHigh; split <;> constructor <;> rfl

theorem clockLow_linkOnly (s : State) : LinkOnly s (clockLow s) := by
  unfold clockLow; split <;> constructor <;> rfl

theorem takeLine_linkOnly (s : State) : LinkOnly s (takeLine s) := by
  unfold takeLine; split <;> constructor <;> rfl

theorem releaseLine_linkOnly (s : State) : LinkOnly s (releaseLine s) := by
  unfold releaseLine; split <;> constructor <;> rfl

theorem driveLine_linkOnly (b : Bool) (s : State) : LinkOnly s (driveLine b s) := by
  unfold driveLine; split <;> constructor <;> rfl

theorem sampleShift_linkOnly (s : State) : LinkOnly s (sampleShift s) := by constructor <;> rfl

theorem shiftIn_linkOnly (b : Bool) (s : State) : LinkOnly s (shiftIn b s) := by constructor <;> rfl

theorem countBit_linkOnly (s : State) : LinkOnly s (countBit s) := by constructor <;> rfl

theorem countWord_linkOnly (s : State) : LinkOnly s (countWord s) := by constructor <;> rfl

theorem leaveLoops_linkOnly (s : State) : LinkOnly s (leaveLoops s) := by constructor <;> rfl

theorem writeBit_linkOnly (s : State) : LinkOnly s (writeBit s) :=
  (driveLine_linkOnly _ s).trans ((clockHigh_linkOnly _).trans ((clockLow_linkOnly _).trans
    ((shiftIn_linkOnly _ _).trans (countBit_linkOnly _))))

theorem writeBits_linkOnly (k : Nat) (s : State) : LinkOnly s (writeBits k s) := by
  induction k generalizing s with
  | zero => exact .refl s
  | succ k ih => exact (writeBit_linkOnly s).trans (ih _)

theorem writeWord_linkOnly (w : Word) (s : State) : LinkOnly s (writeWord w s) :=
  LinkOnly.trans (t := { s with shreg := w, bitcnt := 0 }) (by constructor <;> rfl)
    ((writeBits_linkOnly 32 _).trans (countWord_linkOnly _))

theorem writeWords_linkOnly (ws : List Word) (s : State) : LinkOnly s (writeWords ws s) := by
  induction ws generalizing s with
  | nil => exact .refl s
  | cons w ws ih => exact (writeWord_linkOnly w s).trans (ih _)

theorem txWords_linkOnly (ws : List Word) (s : State) : LinkOnly s (txWords ws s) := by
  cases ws with
  | nil => exact .refl s
  | cons w ws =>
    exact (takeLine_linkOnly s).trans (LinkOnly.trans (t := { takeLine s with wordcnt := 0 }) (by constructor <;> rfl)
      ((writeWords_linkOnly _ _).trans ((releaseLine_linkOnly _).trans (leaveLoops_linkOnly _))))

theorem readBit_linkOnly (s : State) : LinkOnly s (readBit s) := by
  unfold readBit
  split
  · exact (clockHigh_linkOnly s).trans ((sampleShift_linkOnly _).trans ((clockLow_linkOnly _).trans (countBit_linkOnly _)))
  · exact (sampleShift_linkOnly s).trans ((clockLow_linkOnly _).trans ((clockHigh_linkOnly _).trans (countBit_linkOnly _)))
  · exact (sampleShift_linkOnly s).trans ((clockHigh_linkOnly _).trans ((clockLow_linkOnly _).trans (countBit_linkOnly _)))

theorem readBits_linkOnly (k : Nat) (s : State) : LinkOnly s (readBits k s) := by
  induction k generalizing s with
  | zero => exact .refl s
  | succ k ih => exact (readBit_linkOnly s).trans (ih _)

theorem readWord_linkOnly (s : State) : LinkOnly s (readWord s) :=
  LinkOnly.trans (t := { s with shreg := 0, bitcnt := 0 }) (by constructor <;> rfl)
    ((readBits_linkOnly 32 _).trans (countWord_linkOnly _))

theorem readWords_linkOnly (n : Nat) (s : State) : LinkOnly s (readWords n s).1 := by
  induction n generalizing s with
  | zero => exact .refl s
  | succ n ih => exact (readWord_linkOnly s).trans (ih _)

theorem enterRead_linkOnly (s : State) : LinkOnly s (enterRead s) := by
  unfold enterRead; split
  · exact clockHigh_linkOnly s
  · exact .refl s

theorem leaveRead_linkOnly (s : State) : LinkOnly s (leaveRead s) := by
  unfold leaveRead; split
  · exact clockLow_linkOnly s
  · exact .refl s

theorem rxWords_linkOnly (n : Nat) (s : State) : LinkOnly s (rxWords n s).1 := by
  cases n with
  | zero => exact .refl s
  | succ n =>
    exact (enterRead_linkOnly s).trans (LinkOnly.trans (t := { enterRead s with wordcnt := 0 }) (by constructor <;> rfl)
      ((readWords_linkOnly _ _).trans ((leaveRead_linkOnly _).trans (leaveLoops_linkOnly _))))

theorem readTransaction_linkOnly (f a len : Nat) (s : State) : LinkOnly s (readTransaction f a len s).1 :=
  (txWords_linkOnly _ s).trans (rxWords_linkOnly _ _)

theorem writeTransaction_linkOnly (f a len : Nat) (payload : List Word) (s : State) :
    LinkOnly s (writeTransaction f a len payload s) := txWords_linkOnly _ s

theorem memRead_linkOnly (f a n : Nat) (s : State) : LinkOnly s (memRead f a n s).1 := readTransaction_linkOnly f a n s

theorem memWrite_linkOnly (f a n : Nat) (v : Word) (s : State) : LinkOnly s (memWrite f a n v s) :=
  writeTransaction_linkOnly f a n [v] s

theorem memReadRotated_linkOnly (a : Nat) (s : State) : LinkOnly s (memReadRotated a s).1 :=
  (txWords_linkOnly _ s).trans (rxWords_linkOnly _ _)

theorem memWriteRotated_linkOnly (a : Nat) (v : Word) (s : State) : LinkOnly s (memWriteRotated a v s) := txWords_linkOnly _ s

theorem writeWindowByte_linkOnly (reg : Nat) (new cached : Byte) (s : State) : LinkOnly s (writeWindowByte reg new cached s) := by
  unfold writeWindowByte; split
  · exact .refl s
  · exact memWrite_linkOnly _ _ _ _ s

/-- `SETWIN` touches the link, and sets `WINDOW` to the window of its address (43_window.md R194). -/
theorem setWindow_linkOnly (a : Word) (s : State) :
    ∃ u, LinkOnly s u ∧ setWindow a s = { u with window := windowOf s.params a } :=
  ⟨_, (writeWindowByte_linkOnly _ _ _ s).trans ((writeWindowByte_linkOnly _ _ _ _).trans (writeWindowByte_linkOnly _ _ _ _)), rfl⟩

@[simp] theorem setWindow_window (a : Word) (s : State) : (setWindow a s).window = windowOf s.params a := rfl

@[simp] theorem setWindow_params (a : Word) (s : State) : (setWindow a s).params = s.params := by
  obtain ⟨u, hu, h⟩ := setWindow_linkOnly a s
  rw [h]; exact hu.params

end Sys2Proof.Machine
end

