-- ==== Sys2Proof/Laws/Link.lean ====
section
/-! SUPPORT. What each operation on the link does to an idle wire, said once: the relation `Link s t es n` (exactly the events `es`, `n` samples among
them, the wire idle again, nothing else touched), with one lemma per operation. -/

namespace Sys2Proof.Machine

/-- From `s` to `t` exactly the events `es` happened on the link, `n` samples among them; the wire is idle and nothing off the link changed. -/
structure Link (s t : State) (es : List Event) (n : Nat) : Prop where
  rest : LinkOnly s t
  exchange : Exchange s t es n
  clk : t.clk = false
  oe : t.dioOe = false

/-! ### The last driven level -/

theorem lastDriven_append (b : Bool) (xs ys : List Event) : lastDriven b (xs ++ ys) = lastDriven (lastDriven b xs) ys := by
  simp [lastDriven]

theorem lastDriven_writtenBits (b : Bool) (w : Word) (k : Nat) :
    lastDriven b (writtenBits w k) = if k = 0 then b else w.getMsbD (k - 1) := by
  cases k with
  | zero => rfl
  | succ k => rw [writtenBits_succ, lastDriven_append]; simp [lastDriven]

theorem lastDriven_writtenWords (b : Bool) (ws : List Word) :
    lastDriven b (ws.flatMap writtenWordEvents) = ((ws.getLast?).map fun w => w.getLsbD 0).getD b := by
  induction ws generalizing b with
  | nil => rfl
  | cons w ws ih =>
    rw [List.flatMap_cons, lastDriven_append, ih, writtenWordEvents_eq, lastDriven_writtenBits]
    cases ws with
    | nil => simp [BitVec.getMsbD]
    | cons v vs => simp [List.getLast?_cons]

/-- After a write call the last level driven is bit 0 of its last word (40_transport.md R116). -/
theorem lastDriven_txEvents (b : Bool) (ws : List Word) :
    lastDriven b (txEvents ws) = ((ws.getLast?).map fun w => w.getLsbD 0).getD b := by
  cases ws with
  | nil => rfl
  | cons w ws =>
    rw [← lastDriven_writtenWords, txEvents, List.cons_append, show ∀ e es, (e :: es : List Event) = [e] ++ es from fun _ _ => rfl,
      lastDriven_append, lastDriven_append]
    rfl

/-- A read call drives nothing (40_transport.md R119). -/
theorem lastDriven_rxEvents (b : Bool) (rs : List Word) : lastDriven b (rxEvents rs) = b := by
  have hw : ∀ w, lastDriven b (receivedWordEvents w) = b := fun w => by
    unfold receivedWordEvents
    generalize wordBits w = bs
    induction bs with
    | nil => rfl
    | cons x bs ih => rw [List.flatMap_cons, lastDriven_append]; exact ih
  induction rs with
  | nil => rfl
  | cons w rs ih => rw [rxEvents, List.flatMap_cons, lastDriven_append, hw]; exact ih

/-! ### Composition -/

theorem Exchange.nothing (s : State) : Exchange s s [] 0 := by simp [Exchange, lastDriven]

theorem Exchange.append {s t u : State} {es fs : List Event} {m n : Nat} (h : Exchange s t es m) (k : Exchange t u fs n) :
    Exchange s u (es ++ fs) (m + n) := by
  obtain ⟨h1, h2, h3, h4⟩ := h
  obtain ⟨k1, k2, k3, k4⟩ := k
  refine ⟨by rw [k1, h1, List.append_assoc], by rw [k2, h2, lastDriven_append], by rw [k3, h3, List.drop_drop], by omega⟩

/-- The device's levels after `n` samples. -/
theorem Exchange.deviceLevel {s t : State} {es : List Event} {n : Nat} (h : Exchange s t es n) (k : Nat) :
    t.deviceLevel k = s.deviceLevel (n + k) := deviceLevel_drop s t n k h.2.2.1 h.2.2.2

/-- The words the device makes after `32 * k` samples. -/
theorem Exchange.deviceWords {s t : State} {es : List Event} {k : Nat} (h : Exchange s t es (32 * k)) (n : Nat) :
    t.deviceWords n = wordsFrom s.deviceLevel k n := by
  simp only [State.deviceWords, wordsFrom]
  refine List.map_congr_left fun j _ => ?_
  simp only [levelsWord]
  congr 1
  funext acc i
  rw [h.deviceLevel, show 32 * k + (32 * j + i) = 32 * (k + j) + i by omega]

theorem Link.nothing {s : State} (hclk : s.clk = false) (hoe : s.dioOe = false) : Link s s [] 0 :=
  ⟨.refl s, .nothing s, hclk, hoe⟩

theorem Link.append {s t u : State} {es fs : List Event} {m n : Nat} (h : Link s t es m) (k : Link t u fs n) :
    Link s u (es ++ fs) (m + n) := ⟨h.rest.trans k.rest, h.exchange.append k.exchange, k.clk, k.oe⟩

/-! ### The transport -/

/-- A write call (40_transport.md R112, R117, R126). -/
theorem txWords_link (ws : List Word) (s : State) (hclk : s.clk = false) (hoe : s.dioOe = false) :
    Link s (txWords ws s) (txEvents ws) 0 := by
  cases ws with
  | nil => exact .nothing hclk hoe
  | cons w ws =>
    have h := txWords_eq_sent (w :: ws) s (by simp) hclk hoe
    refine ⟨txWords_linkOnly _ s, ?_, by rw [h]; exact hclk, by rw [h]; exact hoe⟩
    rw [h]
    exact ⟨sent_trace _ s, by rw [lastDriven_txEvents, sent_dioOut], by simp, by simp⟩

/-- A read call (40_transport.md R118, R122, R126) and the words it returns. -/
theorem rxWords_link (n : Nat) (s : State) (hclk : s.clk = false) (hoe : s.dioOe = false) (hf : s.params.readFraming = .rsf) :
    Link s (rxWords n s).1 (rxEvents (s.deviceWords n)) (32 * n) ∧ (rxWords n s).2 = s.deviceWords n := by
  cases n with
  | zero => exact ⟨.nothing hclk hoe, rfl⟩
  | succ n =>
    have h := rxWords_eq_received (n + 1) s (by simp) hclk hoe hf
    rw [h]
    refine ⟨⟨by constructor <;> rfl, ⟨received_trace _ s, by rw [lastDriven_rxEvents, received_dioOut], rfl, rfl⟩, hclk, hoe⟩, rfl⟩

/-! ### Transactions -/

/-- A read transaction (30_encoding.md R94): the header, `t + ceil4(len)` words received, the first `t` dropped. -/
theorem readTransaction_link (f a len : Nat) (s : State) (hclk : s.clk = false) (hoe : s.dioOe = false)
    (hf : s.params.readFraming = .rsf) :
    Link s (readTransaction f a len s).1
        (txEvents [cw 0 1 f a len] ++ rxEvents (s.deviceWords (turnaround s.params f + ceil4 len)))
        (32 * (turnaround s.params f + ceil4 len)) ∧
      (readTransaction f a len s).2 =
        (s.deviceWords (turnaround s.params f + ceil4 len)).drop (turnaround s.params f) := by
  have h := txWords_link [cw 0 1 f a len] s hclk hoe
  have hp : (txWords [cw 0 1 f a len] s).params = s.params := h.rest.params
  have hd : ∀ n, (txWords [cw 0 1 f a len] s).deviceWords n = s.deviceWords n := fun n =>
    deviceWords_congr n fun k => by rw [h.exchange.deviceLevel]; simp
  obtain ⟨hl, hw⟩ := rxWords_link (turnaround s.params f + ceil4 len) (txWords [cw 0 1 f a len] s) h.clk h.oe (by rw [hp]; exact hf)
  rw [hd] at hl hw
  refine ⟨?_, by simp only [readTransaction, hw]⟩
  have := h.append hl
  rwa [Nat.zero_add] at this

/-- A write transaction (30_encoding.md R94). -/
theorem writeTransaction_link (f a len : Nat) (payload : List Word) (s : State) (hclk : s.clk = false) (hoe : s.dioOe = false) :
    Link s (writeTransaction f a len payload s) (txEvents (cw 1 1 f a len :: payload)) 0 :=
  txWords_link _ s hclk hoe

/-- `MemRead` for 1, 2 or 4 bytes (42_function_access.md R161): the last word received is the payload. -/
theorem memRead_link (f a n : Nat) (s : State) (hn : n = 1 ∨ n = 2 ∨ n = 4) (hclk : s.clk = false) (hoe : s.dioOe = false)
    (hf : s.params.readFraming = .rsf) :
    Link s (memRead f a n s).1 (txEvents [cw 0 1 f a n] ++ rxEvents (s.deviceWords (turnaround s.params f + 1)))
        (32 * (turnaround s.params f + 1)) ∧
      (memRead f a n s).2 = levelsWord s.deviceLevel (32 * turnaround s.params f) := by
  have hc : ceil4 n = 1 := by rcases hn with rfl | rfl | rfl <;> rfl
  obtain ⟨hl, hw⟩ := readTransaction_link f a n s hclk hoe hf
  rw [hc] at hl hw
  refine ⟨hl, ?_⟩
  simp only [memRead, hw]
  unfold turnaround
  split <;> simp [State.deviceWords, List.range_succ]

theorem memWrite_link (f a n : Nat) (v : Word) (s : State) (hclk : s.clk = false) (hoe : s.dioOe = false) :
    Link s (memWrite f a n v s) (txEvents [cw 1 1 f a n, v]) 0 := by
  rw [memWrite]; exact writeTransaction_link f a n [v] s hclk hoe

/-- A rotated read (42_function_access.md R175). -/
theorem memReadRotated_link (a : Nat) (s : State) (hclk : s.clk = false) (hoe : s.dioOe = false)
    (hf : s.params.readFraming = .rsf) :
    Link s (memReadRotated a s).1 (rotatedReadEvents s.params a (levelsWord s.deviceLevel 0)) 32 ∧
      (memReadRotated a s).2 = rotate16 (levelsWord s.deviceLevel 0) := by
  have h := txWords_link [rotate16 (cw 0 1 s.params.fnBus a 4)] s hclk hoe
  have hd : (txWords [rotate16 (cw 0 1 s.params.fnBus a 4)] s).deviceWords 1 = [levelsWord s.deviceLevel 0] := by
    have hs : (txWords [rotate16 (cw 0 1 s.params.fnBus a 4)] s).deviceWords 1 = s.deviceWords 1 :=
      deviceWords_congr 1 fun k => by rw [h.exchange.deviceLevel]; simp
    rw [hs]
    simp [State.deviceWords]
  obtain ⟨hl, hw⟩ := rxWords_link 1 _ h.clk h.oe (by rw [h.rest.params]; exact hf)
  rw [hd] at hl hw
  have := h.append hl
  exact ⟨this, by simp only [memReadRotated, hw, List.headD_cons]⟩

/-- A rotated write (42_function_access.md R176). -/
theorem memWriteRotated_link (a : Nat) (v : Word) (s : State) (hclk : s.clk = false) (hoe : s.dioOe = false) :
    Link s (memWriteRotated a v s) (rotatedWriteEvents s.params a v) 0 := by
  rw [memWriteRotated, rotatedWriteEvents]; exact txWords_link _ s hclk hoe

/-! ### The window unit -/

theorem writeWindowByte_link (reg : Nat) (new cached : Byte) (s : State) (hclk : s.clk = false) (hoe : s.dioOe = false) :
    Link s (writeWindowByte reg new cached s)
      ((if new = cached then [] else [[cw 1 1 s.params.fnBackplane reg 1, new.setWidth 32]]).flatMap txEvents) 0 := by
  unfold writeWindowByte
  split
  · exact .nothing hclk hoe
  · simpa using memWrite_link s.params.fnBackplane reg 1 (new.setWidth 32) s hclk hoe

/-- `SETWIN` (43_window.md R192 to R194): the byte writes of `windowWrites`, then `WINDOW <- window(a)`. -/
theorem setWindow_link (a : Word) (s : State) (hclk : s.clk = false) (hoe : s.dioOe = false) :
    ∃ u, Link s u (windowEvents s.params s.window a) 0 ∧ setWindow a s = { u with window := windowOf s.params a } := by
  have h1 := writeWindowByte_link s.params.regWinHigh (topByte (windowOf s.params a)) (topByte s.window) s hclk hoe
  have h2 := writeWindowByte_link s.params.regWinMid (midByte (windowOf s.params a)) (midByte s.window) _ h1.clk h1.oe
  have h3 := writeWindowByte_link s.params.regWinLow (lowByte (windowOf s.params a)) (lowByte s.window) _ h2.clk h2.oe
  refine ⟨_, ?_, rfl⟩
  have h := (h1.append h2).append h3
  simp only [h1.rest.params, h2.rest.params] at h
  simpa only [windowEvents, windowWrites, List.flatMap_append] using h

end Sys2Proof.Machine
end

