-- ==== Sys2Proof/Laws/Memory.lean ====
section
/-! SUPPORT. The host buffer stores: a read after a write, and the canonical form every write keeps. -/

namespace Sys2Proof.Machine

variable {w : Nat}

/-- An index below every listed one reads as unlisted. -/
theorem Memory.read_of_lt (m : Memory w) (k : Nat) (h : ∀ c ∈ m, k < c.1) : Memory.read m k = 0 := by
  induction m with
  | nil => rfl
  | cons c m ih =>
    obtain ⟨j, u⟩ := c
    have hj : k < j := h (j, u) (by simp)
    have : ¬ j = k := by omega
    simp only [Memory.read, this, if_false]
    exact ih fun c hc => h c (by simp [hc])

theorem Memory.wf_tail {c : Nat × BitVec w} {m : Memory w} (h : Memory.wf (c :: m)) : Memory.wf m :=
  ⟨(List.pairwise_cons.1 h.1).2, fun d hd => h.2 d (by simp [hd])⟩

/-- Every entry of a written store is an old one or the new one. -/
theorem Memory.mem_write (m : Memory w) (k : Nat) (v : BitVec w) (c : Nat × BitVec w) (h : c ∈ Memory.write m k v) :
    c ∈ m ∨ (c = (k, v) ∧ v ≠ 0) := by
  induction m with
  | nil =>
    simp only [Memory.write] at h
    split at h
    · simp at h
    · next hv => exact .inr ⟨by simpa using h, hv⟩
  | cons d m ih =>
    obtain ⟨j, u⟩ := d
    simp only [Memory.write] at h
    split at h
    · split at h
      · exact .inl h
      · next hv => rcases List.mem_cons.1 h with rfl | h
                   · exact .inr ⟨rfl, hv⟩
                   · exact .inl h
    · split at h
      · split at h
        · exact .inl (by simp [h])
        · next hv => rcases List.mem_cons.1 h with rfl | h
                     · exact .inr ⟨rfl, hv⟩
                     · exact .inl (by simp [h])
      · rcases List.mem_cons.1 h with rfl | h
        · exact .inl (by simp)
        · rcases ih h with h | h
          · exact .inl (by simp [h])
          · exact .inr h

/-- A write keeps the canonical form. -/
theorem Memory.wf_write (m : Memory w) (k : Nat) (v : BitVec w) (h : Memory.wf m) : Memory.wf (Memory.write m k v) := by
  refine ⟨?_, ?_⟩
  · induction m with
    | nil => simp only [Memory.write]; split <;> simp
    | cons d m ih =>
      obtain ⟨j, u⟩ := d
      obtain ⟨hlt, hp⟩ := List.pairwise_cons.1 h.1
      simp only [Memory.write]
      split
      · next hkj =>
        split
        · exact h.1
        · refine List.pairwise_cons.2 ⟨fun c hc => ?_, h.1⟩
          rcases List.mem_cons.1 hc with rfl | hc
          · exact hkj
          · exact Nat.lt_trans hkj (hlt c hc)
      · next hkj =>
        split
        · next hk =>
          subst hk
          split
          · exact hp
          · exact List.pairwise_cons.2 ⟨hlt, hp⟩
        · next hk =>
          refine List.pairwise_cons.2 ⟨fun c hc => ?_, ih (Memory.wf_tail h)⟩
          rcases Memory.mem_write m k v c hc with hc | ⟨rfl, _⟩
          · exact hlt c hc
          · show j < k; omega
  · intro c hc
    rcases Memory.mem_write m k v c hc with hc | ⟨rfl, hv⟩
    · exact h.2 c hc
    · exact hv

/-- A read after a write: the written index gives the written value, every other index what it gave before. -/
theorem Memory.read_write (m : Memory w) (k i : Nat) (v : BitVec w) (h : Memory.wf m) :
    Memory.read (Memory.write m k v) i = if i = k then v else Memory.read m i := by
  induction m with
  | nil =>
    simp only [Memory.write]
    by_cases hv : v = 0
    · simp [hv, Memory.read]
    · rw [if_neg hv]
      by_cases hi : i = k
      · simp [hi, Memory.read]
      · simp only [Memory.read, if_neg hi, if_neg (show ¬ k = i from fun h => hi h.symm)]
  | cons d m ih =>
    obtain ⟨j, u⟩ := d
    have hlt := (List.pairwise_cons.1 h.1).1
    have htail : ∀ x, x ≤ j → Memory.read m x = 0 := fun x hx =>
      Memory.read_of_lt m x fun c hc => Nat.lt_of_le_of_lt hx (hlt c hc)
    simp only [Memory.write]
    split
    · next hkj =>
      have hr : Memory.read ((j, u) :: m) k = 0 := by
        simp only [Memory.read, show ¬ j = k by omega, if_false]; exact htail k (by omega)
      split
      · next hv =>
        by_cases hi : i = k
        · subst hi; rw [if_pos rfl, hv]; exact hr
        · rw [if_neg hi]
      · by_cases hi : i = k
        · subst hi; simp [Memory.read]
        · rw [if_neg hi]; simp only [Memory.read, show ¬ k = i from fun h => hi h.symm, if_false]
    · split
      · next hk =>
        subst hk
        split
        · next hv =>
          by_cases hi : i = k
          · subst hi; rw [if_pos rfl, hv]; exact htail i (Nat.le_refl i)
          · simp only [if_neg hi, Memory.read, show ¬ k = i from fun h => hi h.symm, if_false]
        · by_cases hi : i = k
          · subst hi; simp [Memory.read]
          · simp only [if_neg hi, Memory.read, show ¬ k = i from fun h => hi h.symm, if_false]
      · next hk =>
        simp only [Memory.read]
        by_cases hj : j = i
        · subst hj; simp [show ¬ j = k from fun h => hk h.symm]
        · simp only [hj, if_false]; exact ih (Memory.wf_tail h)

/-- Storing a list keeps the canonical form. -/
theorem Memory.wf_writeList (vs : List (BitVec w)) (m : Memory w) (k : Nat) (h : Memory.wf m) : Memory.wf (Memory.writeList m k vs) := by
  induction vs generalizing m k with
  | nil => exact h
  | cons v vs ih => exact ih _ _ (Memory.wf_write m k v h)

/-- A read after storing a list: the stored value inside its range, what was there before outside it. -/
theorem Memory.read_writeList (vs : List (BitVec w)) (m : Memory w) (k i : Nat) (h : Memory.wf m) :
    Memory.read (Memory.writeList m k vs) i = if k ≤ i ∧ i < k + vs.length then vs.getD (i - k) 0 else Memory.read m i := by
  induction vs generalizing m k with
  | nil => simp only [Memory.writeList, List.length_nil]; rw [if_neg (by omega)]
  | cons v vs ih =>
    rw [Memory.writeList, ih _ _ (Memory.wf_write m k v h), Memory.read_write m k i v h, List.length_cons]
    by_cases h1 : i = k
    · subst h1; simp
    · by_cases h2 : k + 1 ≤ i ∧ i < k + 1 + vs.length
      · rw [if_pos h2, if_pos (by omega)]
        obtain ⟨d, hd⟩ : ∃ d, i - k = d + 1 := ⟨i - k - 1, by omega⟩
        rw [hd, show i - (k + 1) = d by omega]; simp
      · rw [if_neg h2, if_neg h1, if_neg (by omega)]

/-- Storing two lists one after the other is storing their concatenation. -/
theorem Memory.writeList_append (m : Memory w) (k : Nat) (xs ys : List (BitVec w)) :
    Memory.writeList m k (xs ++ ys) = Memory.writeList (Memory.writeList m k xs) (k + xs.length) ys := by
  induction xs generalizing m k with
  | nil => rfl
  | cons x xs ih => simp only [List.cons_append, Memory.writeList, ih, List.length_cons]; congr 1; omega

end Sys2Proof.Machine
end

