-- ==== Sys2Proof/Laws/Operands.lean ====
section
/-! SUPPORT. The pure operand functions as arithmetic: the CommandWord, the rotation, the split of a backplane address, the chunk length. -/

namespace Sys2Proof.Machine

/-! ### The CommandWord and the rotation -/

theorem shiftLeft_toNat (x k : Nat) (h : x * 2 ^ k < 2 ^ 32) : (BitVec.ofNat 32 x <<< k).toNat = x * 2 ^ k := by
  have hx : x < 2 ^ 32 := lt_of_le_of_lt (Nat.le_mul_of_pos_right _ (Nat.two_pow_pos k)) h
  rw [BitVec.toNat_shiftLeft, BitVec.toNat_ofNat, Nat.mod_eq_of_lt hx, Nat.shiftLeft_eq, Nat.mod_eq_of_lt h]

/-- `CW(w, i, f, a, l)` as a number (30_encoding.md R85). -/
theorem cw_toNat (w i f a l : Nat) (hw : w ≤ 1) (hi : i ≤ 1) (hf : f ≤ 3) (ha : a ≤ 0x1FFFF) (hl : l ≤ 0x7FF) :
    (cw w i f a l).toNat = w * 2 ^ 31 + i * 2 ^ 30 + f * 2 ^ 28 + a * 2 ^ 11 + l := by
  have o : ∀ x y k : Nat, y < 2 ^ k → (x * 2 ^ k) ||| y = x * 2 ^ k + y := fun x y k h => by
    rw [Nat.mul_comm]; exact (Nat.two_pow_add_eq_or_of_lt h x).symm
  simp only [cw, BitVec.toNat_or]
  rw [shiftLeft_toNat w 31 (by omega), shiftLeft_toNat i 30 (by omega), shiftLeft_toNat f 28 (by omega),
    shiftLeft_toNat a 11 (by omega), BitVec.toNat_ofNat, Nat.mod_eq_of_lt (show l < 2 ^ 32 by omega),
    Nat.or_assoc, Nat.or_assoc, Nat.or_assoc, o a l 11 (by omega), o f _ 28 (by omega), o i _ 30 (by omega), o w _ 31 (by omega)]
  omega

/-- The five fields as numbers (30_encoding.md R86). -/
theorem cwFields_toNat (c : Word) :
    (cwFields c).write.toNat = c.toNat / 2 ^ 31 ∧ (cwFields c).increment.toNat = c.toNat / 2 ^ 30 % 2 ∧
      (cwFields c).function.toNat = c.toNat / 2 ^ 28 % 4 ∧ (cwFields c).address.toNat = c.toNat / 2 ^ 11 % 2 ^ 17 ∧
      (cwFields c).length.toNat = c.toNat % 2 ^ 11 := by
  have := c.isLt
  refine ⟨?_, ?_, ?_, ?_, ?_⟩ <;> rw [cwFields] <;> simp only [BitVec.extractLsb'_toNat, Nat.shiftRight_eq_div_pow] <;> omega

theorem rotate16_getLsbD (x : Word) (i : Nat) :
    (rotate16 x).getLsbD i = if i < 16 then x.getLsbD (i + 16) else (decide (i < 32) && x.getLsbD (i - 16)) := by
  simp only [rotate16, BitVec.getLsbD_or, BitVec.getLsbD_shiftLeft, BitVec.getLsbD_ushiftRight]
  by_cases h : i < 16
  · simp [h, Nat.add_comm]
  · simp [h, BitVec.getLsbD_of_ge x (16 + i) (by omega)]

theorem truncBytes_eq (n : Nat) (v : Word) (h : n = 1 ∨ n = 2 ∨ n = 4) :
    truncBytes n v = BitVec.ofNat 32 (v.toNat % 2 ^ (8 * n)) := by
  have := v.isLt
  rcases h with rfl | rfl | rfl <;> (apply BitVec.eq_of_toNat_eq; simp [truncBytes]) <;> omega

/-! ### The backplane address -/

/-- The window size is a power of two from `2^8` to `2^16`, and the mask is one less (00_scope.md R7). -/
theorem Params.Wf.mask_shape {p : Params} (h : p.Wf) :
    ∃ k, 8 ≤ k ∧ k ≤ 16 ∧ p.windowSize = 2 ^ k ∧ p.windowMask.toNat = 2 ^ k - 1 := by
  obtain ⟨k, hk, e⟩ := h.window_size
  have := h.window_mask
  simp only [List.mem_range] at hk
  exact ⟨8 + k, by omega, by omega, e, by omega⟩

/-- `offset(a)` is the remainder by the window size (43_window.md R190). -/
theorem offsetOf_toNat {p : Params} (h : p.Wf) (a : Word) : (offsetOf p a).toNat = a.toNat % p.windowSize := by
  obtain ⟨k, -, -, h3, h4⟩ := Params.Wf.mask_shape h
  rw [offsetOf, BitVec.toNat_and, h4, h3, Nat.and_two_pow_sub_one_eq_mod]

/-- `window(a)` is what `offset(a)` leaves (43_window.md R190). -/
theorem windowOf_toNat {p : Params} (h : p.Wf) (a : Word) : (windowOf p a).toNat = a.toNat - a.toNat % p.windowSize := by
  have hd : windowOf p a &&& offsetOf p a = 0#32 := by
    ext i hi; simp [windowOf, offsetOf]; cases a[i] <;> cases p.windowMask[i] <;> simp
  have e : windowOf p a + offsetOf p a = a := by
    rw [BitVec.add_eq_or_of_and_eq_zero _ _ hd]
    ext i hi; simp [windowOf, offsetOf]; cases a[i] <;> cases p.windowMask[i] <;> simp
  have h1 := offsetOf_toNat h a
  have h2 : (windowOf p a).toNat ≤ a.toNat := by rw [windowOf, BitVec.toNat_and]; exact Nat.and_le_left
  have h3 := congrArg BitVec.toNat e
  rw [BitVec.toNat_add] at h3
  have := (windowOf p a).isLt
  have := a.isLt
  have := Nat.mod_le a.toNat p.windowSize
  omega

theorem windowOf_and_mask (p : Params) (a : Word) : windowOf p a &&& p.windowMask = 0 := by
  rw [windowOf, BitVec.and_assoc]; simp

/-! ### The chunk plan -/

/-- A chunk moves a byte or more, and no more than is left, than the maximum, than the window holds (44_block.md R222). -/
theorem chunkLength_bounds {p : Params} (h : p.Wf) (addr n : Nat) (hn : n ≠ 0) :
    1 ≤ chunkLength p addr n ∧ chunkLength p addr n ≤ n ∧ chunkLength p addr n ≤ p.maxTransferSize ∧
      chunkLength p addr n ≤ windowRemaining p (BitVec.ofNat 32 addr) := by
  obtain ⟨k, h1, h2, h3, h4⟩ := Params.Wf.mask_shape h
  have ho := offsetOf_toNat h (BitVec.ofNat 32 addr)
  have hlt : (BitVec.ofNat 32 addr).toNat % p.windowSize < p.windowSize := Nat.mod_lt _ (by rw [h3]; exact Nat.two_pow_pos k)
  have := h.max_transfer
  unfold chunkLength windowRemaining
  omega

/-- More fuel than bytes changes no plan. -/
theorem chunksUpTo_fuel {p : Params} (h : p.Wf) (f g a n : Nat) (hf : n ≤ f) (hg : n ≤ g) : chunksUpTo p f a n = chunksUpTo p g a n := by
  induction f generalizing g a n with
  | zero =>
    obtain rfl : n = 0 := by omega
    cases g <;> simp [chunksUpTo]
  | succ f ih =>
    cases g with
    | zero =>
      obtain rfl : n = 0 := by omega
      simp [chunksUpTo]
    | succ g =>
      by_cases hn : n = 0
      · simp [chunksUpTo, hn]
      · have := chunkLength_bounds h a n hn
        simp only [chunksUpTo, hn, if_false]
        rw [ih g _ _ (by omega) (by omega)]

theorem unpackBytes_length (ws : List Word) (c : Nat) : (unpackBytes ws c).length = c := by simp [unpackBytes]

end Sys2Proof.Machine
end

