-- ==== Sys2Proof/Laws/Operation.lean ====
section
/-! SUPPORT. What running an operation from acceptance to report can do, said once: `runOp` answers a next state exactly when the block is not
busy, and how its body's work on the link shows after the report. -/

namespace Sys2Proof.Machine

/-! ### Acceptance and report -/

theorem runOp_busy (i : Instr) (body : State → State × Completion) (s : State) (h : s.busy = true) :
    runOp i body s = .refused .requestWhileBusy := by simp [runOp, h]

theorem runOp_idle (i : Instr) (body : State → State × Completion) (s : State) (h : s.busy = false) :
    runOp i body s = .next (report (body (accept i s)).2 (body (accept i s)).1) := by simp [runOp, h]

/-- The inversion of `runOp`: everything it can do when it answers a next state. -/
theorem runOp_cases {i : Instr} {body : State → State × Completion} {s t : State} (h : runOp i body s = .next t) :
    s.busy = false ∧ t = report (body (accept i s)).2 (body (accept i s)).1 := by
  by_cases hb : s.busy = true
  · rw [runOp_busy i body s hb] at h; cases h
  · have hb : s.busy = false := by simpa using hb
    rw [runOp_idle i body s hb] at h
    exact ⟨hb, (Host.Outcome.next.inj h).symm⟩

/-- What the report of any completion leaves as the body left it. -/
structure ReportOnly (s t : State) : Prop where
  clk : t.clk = s.clk
  dioOut : t.dioOut = s.dioOut
  dioOe : t.dioOe = s.dioOe
  dioIn : t.dioIn = s.dioIn
  pwr : t.pwr = s.pwr
  window : t.window = s.window
  shreg : t.shreg = s.shreg
  bitcnt : t.bitcnt = s.bitcnt
  wordcnt : t.wordcnt = s.wordcnt
  pollcnt : t.pollcnt = s.pollcnt
  op : t.op = s.op
  bytes : t.bytes = s.bytes
  words : t.words = s.words
  params : t.params = s.params
  inputs : t.inputs = s.inputs
  waitIn : t.waitIn = s.waitIn
  trace : t.trace = s.trace
  samples : t.samples = s.samples
  waits : t.waits = s.waits
  resets : t.resets = s.resets

theorem report_only (c : Completion) (s : State) : ReportOnly s (report c s) := by
  cases c <;> constructor <;> rfl

@[simp] theorem report_busy (c : Completion) (s : State) : (report c s).busy = false := by cases c <;> rfl
@[simp] theorem report_seq (c : Completion) (s : State) : (report c s).seq = .idle := by cases c <;> rfl
@[simp] theorem report_done_result (r : OpResult) (s : State) : (report (.done r) s).result = r := rfl
@[simp] theorem report_done_err (r : OpResult) (s : State) : (report (.done r) s).err = none := rfl
@[simp] theorem report_doneNothing_err (s : State) : (report .doneNothing s).err = none := rfl
@[simp] theorem report_raised_err (e : ErrRecord) (s : State) : (report (.raised e) s).err = some e := rfl

theorem checked_of_none {check : Option ErrRecord} (body : State → State × Completion) (s : State) (h : check = none) :
    checked check body s = body s := by rw [h]; rfl

theorem checked_of_some {check : Option ErrRecord} {e : ErrRecord} (body : State → State × Completion) (s : State) (h : check = some e) :
    checked check body s = (s, .raised e) := by rw [h]; rfl

/-! ### An operation whose body is on the link -/

/-- The idle block after acceptance: the wire is idle, and everything else reads as before. -/
theorem accept_link {i : Instr} {s u : State} {es : List Event} {n : Nat} (h : Link (accept i s) u es n) (c : Completion) :
    Exchange s (report c u) es n ∧ KeepsRest s (report c u) ∧ (report c u).clk = false ∧ (report c u).dioOe = false := by
  have r := report_only c u
  obtain ⟨e1, e2, e3, e4⟩ := h.exchange
  refine ⟨⟨r.trace.trans e1, r.dioOut.trans e2, r.dioIn.trans e3, r.samples.trans e4⟩,
    ⟨⟨r.pwr.trans h.rest.pwr, r.pollcnt.trans h.rest.pollcnt, r.params.trans h.rest.params, r.inputs.trans h.rest.inputs,
      r.waitIn.trans h.rest.waitIn, r.waits.trans h.rest.waits⟩,
      fun k => by rw [r.bytes, h.rest.bytes, accept_bytes], fun k => by rw [r.words, h.rest.words, accept_words],
      r.window.trans h.rest.window⟩,
    r.clk.trans h.clk, r.dioOe.trans h.oe⟩

/-- An operation that completes with a result after work on the link. -/
theorem runOp_link_done {i : Instr} {body : State → State × Completion} {s u : State} {es : List Event} {n : Nat} {r : OpResult}
    (hq : Quiet s) (hb : body (accept i s) = (u, .done r)) (h : Link (accept i s) u es n) :
    ∃ t, runOp i body s = .next t ∧ Completed t ∧ t.result = r ∧ Exchange s t es n ∧ KeepsRest s t := by
  obtain ⟨h1, h2, h3, h4⟩ := accept_link h (.done r)
  refine ⟨_, by rw [runOp_idle _ _ _ hq.1, hb], ⟨⟨report_busy _ _, h3, h4, report_seq _ _⟩, rfl⟩, rfl, h1, h2⟩

/-- An operation that completes without a result after work on the link. -/
theorem runOp_link_doneNothing {i : Instr} {body : State → State × Completion} {s u : State} {es : List Event} {n : Nat}
    (hq : Quiet s) (hb : body (accept i s) = (u, .doneNothing)) (h : Link (accept i s) u es n) :
    ∃ t, runOp i body s = .next t ∧ Completed t ∧ Exchange s t es n ∧ KeepsRest s t := by
  obtain ⟨h1, h2, h3, h4⟩ := accept_link h .doneNothing
  refine ⟨_, by rw [runOp_idle _ _ _ hq.1, hb], ⟨⟨report_busy _ _, h3, h4, report_seq _ _⟩, rfl⟩, h1, h2⟩

/-- An operation whose body does nothing, whatever its completion: no line, no register of the transport, no event. -/
theorem runOp_silent {i : Instr} {body : State → State × Completion} {s : State} {c : Completion}
    (hb : s.busy = false) (hc : body (accept i s) = (accept i s, c)) :
    runOp i body s = .next (report c (accept i s)) ∧ KeepsTransport s (report c (accept i s)) ∧ KeepsRest s (report c (accept i s)) := by
  have r := report_only c (accept i s)
  refine ⟨by rw [runOp_idle _ _ _ hb, hc], ⟨r.clk, r.dioOut, r.dioOe, r.dioIn, r.shreg, r.bitcnt, r.wordcnt, r.trace, r.samples⟩,
    ⟨r.pwr, r.pollcnt, r.params, r.inputs, r.waitIn, r.waits⟩, fun k => by rw [r.bytes]; rfl, fun k => by rw [r.words]; rfl, r.window⟩

/-- An operation that its checks reject: its report, and nothing on the link (60_exceptions.md R292). -/
theorem runOp_rejected {i : Instr} {body : State → State × Completion} {s : State} {cause : ErrCause} {info : ErrInfo}
    (hq : Quiet s) (hc : body (accept i s) = (accept i s, .raised (errRecord cause info))) :
    ∃ t, runOp i body s = .next t ∧ Reported cause info t ∧ KeepsTransport s t ∧ KeepsRest s t := by
  obtain ⟨h1, h2, h3⟩ := runOp_silent hq.1 hc
  exact ⟨_, h1, ⟨⟨rfl, h2.1.trans hq.2.1, h2.2.2.1.trans hq.2.2.1, rfl⟩, rfl⟩, h2, h3⟩

/-! ### Every operation is its body between acceptance and report -/

/-- What an operation does between its acceptance and its report. -/
def bodyOf : Instr → State → State × Completion
  | .tWrite ws => fun s => (txWords ws s, .doneNothing)
  | .tRead n => fun s => ((rxWords n s).1, .done (.words (rxWords n s).2))
  | .tFlush => fun s => (s, .doneNothing)
  | .cwEnc w i f a l => checked (checkCommand w i f a l) fun s => (s, .done (.value (cw w i f a l)))
  | .cwDec c => fun s => (s, .done (.fields (cwFields c)))
  | .rot16 x => fun s => (s, .done (.value (rotate16 x)))
  | .rd8 f a => readFunction f a 1
  | .rd16 f a => readFunction f a 2
  | .rd32 f a => readFunction f a 4
  | .wr8 f a v => writeFunction f a 1 v
  | .wr16 f a v => writeFunction f a 2 v
  | .wr32 f a v => writeFunction f a 4 v
  | .rd32s a => checked (checkField a 0x1FFFF) fun s => ((memReadRotated a s).1, .done (.value (memReadRotated a s).2))
  | .wr32s a v => checked (checkField a 0x1FFFF) fun s => (memWriteRotated a v s, .doneNothing)
  | .setWin a => fun s => (setWindow a s, .doneNothing)
  | .bpRd8 a => readBackplane a 1
  | .bpRd16 a => readBackplane a 2
  | .bpRd32 a => readBackplane a 4
  | .bpWr8 a v => writeBackplane a 1 v
  | .bpWr16 a v => writeBackplane a 2 v
  | .bpWr32 a v => writeBackplane a 4 v
  | .bpRdBlk a buf n => checked (checkBlock a n) fun s => (readChunks (chunks s.params a.toNat n) buf s, .doneNothing)
  | .bpWrBlk a buf n => checked (checkBlock a n) fun s => (writeChunks (chunks s.params a.toNat n) buf s, .doneNothing)
  | .dataRd wbuf n => checked (checkLength n 2047) fun s =>
      ({ (readTransaction s.params.fnData 0 n s).1 with
          words := Memory.writeList (readTransaction s.params.fnData 0 n s).1.words wbuf (readTransaction s.params.fnData 0 n s).2 },
        .doneNothing)
  | .dataWr wbuf m => checked (checkLength m 511) fun s =>
      (writeTransaction s.params.fnData 0 (4 * m) (Memory.readList s.words wbuf m) s, .doneNothing)
  | .init => fun s => ((handshake s).1, handshakeCompletion (handshake s).2)

theorem exec_eq_runOp (i : Instr) (s : State) : exec i s = runOp i (bodyOf i) s := by cases i <;> rfl

/-- Everything an operation can do when it answers a next state. -/
theorem exec_cases {i : Instr} {s t : State} (h : exec i s = .next t) :
    s.busy = false ∧ t = report (bodyOf i (accept i s)).2 (bodyOf i (accept i s)).1 := runOp_cases (exec_eq_runOp i s ▸ h)

end Sys2Proof.Machine
end

