-- ==== Sys2Proof/Laws/PerInstr.lean ====
section
/-! SUPPORT. The family of statements made per operation. -/

namespace Sys2Proof.Laws

/-- The operation's number is a row of the opcode table (1 to 26) and stands in one word of its record (30_encoding.md R95; log 3). -/
def NumberIsRow.Statement (i : Instr) : Prop := 1 ≤ i.number ∧ i.number ≤ 26 ∧ (BitVec.ofNat 32 i.number).toNat = i.number

theorem NumberIsRow.tWrite (ws : List Word) : NumberIsRow.Statement (.tWrite ws) := by simp [NumberIsRow.Statement, Instr.number]
theorem NumberIsRow.tRead (n : Nat) : NumberIsRow.Statement (.tRead n) := by simp [NumberIsRow.Statement, Instr.number]
theorem NumberIsRow.tFlush : NumberIsRow.Statement (.tFlush) := by simp [NumberIsRow.Statement, Instr.number]
theorem NumberIsRow.cwEnc (w i f a l : Nat) : NumberIsRow.Statement (.cwEnc w i f a l) := by simp [NumberIsRow.Statement, Instr.number]
theorem NumberIsRow.cwDec (c : Word) : NumberIsRow.Statement (.cwDec c) := by simp [NumberIsRow.Statement, Instr.number]
theorem NumberIsRow.rot16 (x : Word) : NumberIsRow.Statement (.rot16 x) := by simp [NumberIsRow.Statement, Instr.number]
theorem NumberIsRow.rd8 (f a : Nat) : NumberIsRow.Statement (.rd8 f a) := by simp [NumberIsRow.Statement, Instr.number]
theorem NumberIsRow.rd16 (f a : Nat) : NumberIsRow.Statement (.rd16 f a) := by simp [NumberIsRow.Statement, Instr.number]
theorem NumberIsRow.rd32 (f a : Nat) : NumberIsRow.Statement (.rd32 f a) := by simp [NumberIsRow.Statement, Instr.number]
theorem NumberIsRow.wr8 (f a : Nat) (v : Word) : NumberIsRow.Statement (.wr8 f a v) := by simp [NumberIsRow.Statement, Instr.number]
theorem NumberIsRow.wr16 (f a : Nat) (v : Word) : NumberIsRow.Statement (.wr16 f a v) := by simp [NumberIsRow.Statement, Instr.number]
theorem NumberIsRow.wr32 (f a : Nat) (v : Word) : NumberIsRow.Statement (.wr32 f a v) := by simp [NumberIsRow.Statement, Instr.number]
theorem NumberIsRow.rd32s (a : Nat) : NumberIsRow.Statement (.rd32s a) := by simp [NumberIsRow.Statement, Instr.number]
theorem NumberIsRow.wr32s (a : Nat) (v : Word) : NumberIsRow.Statement (.wr32s a v) := by simp [NumberIsRow.Statement, Instr.number]
theorem NumberIsRow.setWin (a : Word) : NumberIsRow.Statement (.setWin a) := by simp [NumberIsRow.Statement, Instr.number]
theorem NumberIsRow.bpRd8 (a : Word) : NumberIsRow.Statement (.bpRd8 a) := by simp [NumberIsRow.Statement, Instr.number]
theorem NumberIsRow.bpRd16 (a : Word) : NumberIsRow.Statement (.bpRd16 a) := by simp [NumberIsRow.Statement, Instr.number]
theorem NumberIsRow.bpRd32 (a : Word) : NumberIsRow.Statement (.bpRd32 a) := by simp [NumberIsRow.Statement, Instr.number]
theorem NumberIsRow.bpWr8 (a v : Word) : NumberIsRow.Statement (.bpWr8 a v) := by simp [NumberIsRow.Statement, Instr.number]
theorem NumberIsRow.bpWr16 (a v : Word) : NumberIsRow.Statement (.bpWr16 a v) := by simp [NumberIsRow.Statement, Instr.number]
theorem NumberIsRow.bpWr32 (a v : Word) : NumberIsRow.Statement (.bpWr32 a v) := by simp [NumberIsRow.Statement, Instr.number]
theorem NumberIsRow.bpRdBlk (a : Word) (buf n : Nat) : NumberIsRow.Statement (.bpRdBlk a buf n) := by simp [NumberIsRow.Statement, Instr.number]
theorem NumberIsRow.bpWrBlk (a : Word) (buf n : Nat) : NumberIsRow.Statement (.bpWrBlk a buf n) := by simp [NumberIsRow.Statement, Instr.number]
theorem NumberIsRow.dataRd (wbuf n : Nat) : NumberIsRow.Statement (.dataRd wbuf n) := by simp [NumberIsRow.Statement, Instr.number]
theorem NumberIsRow.dataWr (wbuf m : Nat) : NumberIsRow.Statement (.dataWr wbuf m) := by simp [NumberIsRow.Statement, Instr.number]
theorem NumberIsRow.init : NumberIsRow.Statement (.init) := by simp [NumberIsRow.Statement, Instr.number]

end Sys2Proof.Laws
end

