-- ==== Sys2Proof/Laws/Sequences.lean ====
section
/-! SUPPORT. What the operations that repeat transactions do to an idle wire, said once: `SETWIN`, the chunks of a block, one poll and the power
step of `INIT`. A `Link` from a state with some fields already changed says which fields off the link change, and to what. -/

namespace Sys2Proof.Machine

/-- `SETWIN` (43_window.md R192 to R194): the byte writes, and `WINDOW <- window(a)`. -/
theorem setWindow_window_link (a : Word) (s : State) (hclk : s.clk = false) (hoe : s.dioOe = false) :
    Link { s with window := windowOf s.params a } (setWindow a s) (windowEvents s.params s.window a) 0 := by
  obtain ⟨u, h, e⟩ := setWindow_link a s hclk hoe
  rw [e]
  exact ⟨⟨h.rest.pwr, rfl, h.rest.seq, h.rest.pollcnt, h.rest.busy, h.rest.op, h.rest.result, h.rest.err, h.rest.bytes, h.rest.words,
    h.rest.params, h.rest.inputs, h.rest.waitIn, h.rest.waits, h.rest.resets⟩, h.exchange, h.clk, h.oe⟩

/-- `SETWIN` samples nothing: the device's coming levels stay (43_window.md R195). -/
theorem setWindow_deviceLevel (a : Word) (s : State) (k : Nat) (hclk : s.clk = false) (hoe : s.dioOe = false) :
    (setWindow a s).deviceLevel k = s.deviceLevel k := by
  rw [(setWindow_window_link a s hclk hoe).exchange.deviceLevel k, Nat.zero_add]; rfl

/-- The chunks of a block write (44_block.md R228). -/
theorem writeChunks_link (cs : List (Nat × Nat)) (src : Nat) (s : State) (hclk : s.clk = false) (hoe : s.dioOe = false)
    (p : Params) (w : Word) (b : Memory 8) (hp : s.params = p) (hw : s.window = w) (hb : s.bytes = b) :
    Link { s with window := blockWindow p w cs } (writeChunks cs src s)
      (blockWriteEvents p (fun k => Memory.read b k) w src cs) 0 := by
  induction cs generalizing src s w with
  | nil => subst hw; exact .nothing hclk hoe
  | cons x cs ih =>
    obtain ⟨addr, c⟩ := x
    have l1 := setWindow_window_link (BitVec.ofNat 32 addr) s hclk hoe
    have l := l1.append (writeTransaction_link s.params.fnBackplane (offsetOf s.params (BitVec.ofNat 32 addr)).toNat c
      (packBytes (Memory.readList s.bytes src c)) (setWindow (BitVec.ofNat 32 addr) s) l1.clk l1.oe)
    have l3 := ih (src + c) (writeChunk addr c src s) l.clk l.oe (windowOf p (BitVec.ofNat 32 addr)) (l.rest.params.trans hp)
      (l.rest.window.trans (by rw [← hp])) (l.rest.bytes.trans hb)
    have lu : Link { s with window := blockWindow p w ((addr, c) :: cs) }
        { writeChunk addr c src s with window := blockWindow p (windowOf p (BitVec.ofNat 32 addr)) cs } _ 0 :=
      ⟨⟨l.rest.pwr, rfl, l.rest.seq, l.rest.pollcnt, l.rest.busy, l.rest.op, l.rest.result, l.rest.err, l.rest.bytes, l.rest.words,
        l.rest.params, l.rest.inputs, l.rest.waitIn, l.rest.waits, l.rest.resets⟩, l.exchange, l.clk, l.oe⟩
    have := lu.append l3
    subst hp hw hb
    exact this

/-- The chunks of a block read, when the device's levels are those of `level` from word `k` on (44_block.md R224). -/
theorem readChunks_link (cs : List (Nat × Nat)) (dst k : Nat) (level : Nat → Bool) (s : State) (hclk : s.clk = false)
    (hoe : s.dioOe = false) (hf : s.params.readFraming = .rsf) (hl : ∀ j, s.deviceLevel j = level (32 * k + j))
    (p : Params) (w : Word) (m : Memory 8) (ep : s.params = p) (ew : s.window = w) (eb : s.bytes = m) :
    Link { s with window := blockWindow p w cs, bytes := Memory.writeList m dst (blockReadBytes level k cs) }
      (readChunks cs dst s) (blockReadEvents p level w k cs) (32 * blockReadCount cs) := by
  induction cs generalizing dst k s w m with
  | nil => subst ep ew eb; exact .nothing hclk hoe
  | cons x cs ih =>
    obtain ⟨addr, c⟩ := x
    have l1 := setWindow_window_link (BitVec.ofNat 32 addr) s hclk hoe
    have hp : (setWindow (BitVec.ofNat 32 addr) s).params = s.params := l1.rest.params
    obtain ⟨l2, hw⟩ := readTransaction_link s.params.fnBackplane (offsetOf s.params (BitVec.ofNat 32 addr)).toNat c
      (setWindow (BitVec.ofNat 32 addr) s) l1.clk l1.oe (by rw [hp]; exact hf)
    have ht : turnaround (setWindow (BitVec.ofNat 32 addr) s).params s.params.fnBackplane = 1 := by rw [hp]; simp [turnaround]
    have hd : (setWindow (BitVec.ofNat 32 addr) s).deviceWords (1 + ceil4 c) = wordsFrom level k (1 + ceil4 c) := by
      simp only [State.deviceWords, wordsFrom]
      refine List.map_congr_left fun j _ => ?_
      simp only [levelsWord]; congr 1; funext acc i
      rw [setWindow_deviceLevel _ _ _ hclk hoe, hl, show 32 * k + (32 * j + i) = 32 * (k + j) + i by omega]
    rw [ht, hd] at l2 hw
    have l := l1.append l2
    set u := readChunk addr c dst s with hu
    have epu : u.params = s.params := l.rest.params
    have ebu : u.bytes = Memory.writeList m dst (unpackBytes ((wordsFrom level k (1 + ceil4 c)).drop 1) c) := by
      rw [hu, readChunk, receiveChunk]; simp only
      rw [hw, l.rest.bytes, ← eb]
    have el : ∀ j, u.deviceLevel j = level (32 * (k + (1 + ceil4 c)) + j) := fun j => by
      refine (l.exchange.deviceLevel j).trans ?_
      show s.deviceLevel _ = _
      rw [hl]; congr 1; omega
    have l3 := ih (dst + c) (k + (1 + ceil4 c)) u l.clk l.oe (by rw [epu]; exact hf) el (windowOf p (BitVec.ofNat 32 addr)) _
      (epu.trans ep) (l.rest.window.trans (by rw [← ep])) ebu
    have em : Memory.writeList m dst (blockReadBytes level k ((addr, c) :: cs)) =
        Memory.writeList (Memory.writeList m dst (unpackBytes ((wordsFrom level k (1 + ceil4 c)).drop 1) c)) (dst + c)
          (blockReadBytes level (k + (1 + ceil4 c)) cs) := by
      rw [blockReadBytes, Memory.writeList_append, unpackBytes_length]
    have lu : Link { s with
          window := blockWindow p w ((addr, c) :: cs), bytes := Memory.writeList m dst (blockReadBytes level k ((addr, c) :: cs)) }
        { u with
          window := blockWindow p (windowOf p (BitVec.ofNat 32 addr)) cs
          bytes := Memory.writeList (Memory.writeList m dst (unpackBytes ((wordsFrom level k (1 + ceil4 c)).drop 1) c)) (dst + c)
            (blockReadBytes level (k + (1 + ceil4 c)) cs) } _ _ :=
      ⟨⟨l.rest.pwr, rfl, l.rest.seq, l.rest.pollcnt, l.rest.busy, l.rest.op, l.rest.result, l.rest.err, em.symm, l.rest.words,
        l.rest.params, l.rest.inputs, l.rest.waitIn, l.rest.waits, l.rest.resets⟩, l.exchange, l.clk, l.oe⟩
    have := lu.append l3
    subst ep ew eb
    have hev : blockReadEvents s.params level s.window k ((addr, c) :: cs) =
        windowEvents s.params s.window (BitVec.ofNat 32 addr) ++
          (txEvents [cw 0 1 s.params.fnBackplane (offsetOf s.params (BitVec.ofNat 32 addr)).toNat c] ++
            rxEvents (wordsFrom level k (1 + ceil4 c))) ++
          blockReadEvents s.params level (windowOf s.params (BitVec.ofNat 32 addr)) (k + (1 + ceil4 c)) cs := by
      simp [blockReadEvents]
    have hcn : 32 * blockReadCount ((addr, c) :: cs) = 0 + 32 * (1 + ceil4 c) + 32 * blockReadCount cs := by
      simp only [blockReadCount]; omega
    rw [hev, hcn]
    exact this

/-- One poll of `INIT` (46_init.md R254). -/
theorem pollOnce_link (s : State) (hclk : s.clk = false) (hoe : s.dioOe = false) (hf : s.params.readFraming = .rsf) :
    Link { s with pollcnt := s.pollcnt + 1 } (pollOnce s).1
        (rotatedReadEvents s.params s.params.regBusTestRo (levelsWord s.deviceLevel 0)) 32 ∧
      (pollOnce s).2 = rotate16 (levelsWord s.deviceLevel 0) := by
  obtain ⟨l, hw⟩ := memReadRotated_link s.params.regBusTestRo s hclk hoe hf
  have hc : (memReadRotated s.params.regBusTestRo s).1.pollcnt = s.pollcnt := l.rest.pollcnt
  have e : pollOnce s = ({ (memReadRotated s.params.regBusTestRo s).1 with pollcnt := s.pollcnt + 1 },
      (memReadRotated s.params.regBusTestRo s).2) := by rw [pollOnce, hc]
  rw [e]
  generalize memReadRotated s.params.regBusTestRo s = r at *
  exact ⟨⟨⟨l.rest.pwr, l.rest.window, l.rest.seq, rfl, l.rest.busy, l.rest.op, l.rest.result, l.rest.err, l.rest.bytes, l.rest.words,
    l.rest.params, l.rest.inputs, l.rest.waitIn, l.rest.waits, l.rest.resets⟩, l.exchange, l.clk, l.oe⟩, hw⟩

/-- The power step of `INIT` (46_init.md R252): its four events, the two waits at least as long as their bounds. -/
theorem powerPulse_trace (s : State) :
    ∃ t1 t2, s.params.tPwrLowMin ≤ t1 ∧ s.params.tBootMin ≤ t2 ∧ (powerPulse s).trace = s.trace ++ powerEvents t1 t2 := by
  refine ⟨(setPower false s).waitLength s.params.tPwrLowMin,
    (setPower true (waitAtLeast s.params.tPwrLowMin (setPower false s))).waitLength s.params.tBootMin,
    Nat.le_add_right _ _, Nat.le_add_right _ _, ?_⟩
  simp [powerPulse, waitAtLeast, setPower, emit, State.trace, powerEvents]

end Sys2Proof.Machine
end

