-- ==== Sys2Proof/Laws/ResetInput.lean ====
section
/-! SUPPORT. The reset input, said once: what a stopped operation has done to the lines, the environment and the host's buffers, and everything
`execThenReset` can do. -/

namespace Sys2Proof.Machine

/-! ### The reset -/

@[simp] theorem resetBlock_bytes (s : State) : (resetBlock s).bytes = s.bytes := rfl
@[simp] theorem resetBlock_words (s : State) : (resetBlock s).words = s.words := rfl
@[simp] theorem resetBlock_params (s : State) : (resetBlock s).params = s.params := rfl
@[simp] theorem resetBlock_window (s : State) : (resetBlock s).window = s.params.windowSentinel := rfl
@[simp] theorem resetBlock_inputs (s : State) : (resetBlock s).inputs = s.inputs := rfl
@[simp] theorem resetBlock_dioIn (s : State) : (resetBlock s).dioIn = s.dioIn := rfl
@[simp] theorem resetBlock_pwr (s : State) : (resetBlock s).pwr = false := rfl
@[simp] theorem resetBlock_err (s : State) : (resetBlock s).err = none := rfl
@[simp] theorem resetBlock_bitcnt (s : State) : (resetBlock s).bitcnt = 0 := rfl

theorem resetBlock_quiet (s : State) : Quiet (resetBlock s) := ⟨rfl, rfl, rfl, rfl⟩

/-- A reset adds the edges that return the lines to idle (70_reset_and_hazards.md R345). -/
theorem resetBlock_trace (s : State) : (resetBlock s).trace = s.trace ++ idleEdges s.clk s.dioOe s.pwr := by
  simp only [State.trace, resetBlock, resetEvents, idleEdges, List.reverse_append, List.reverse_reverse]

theorem resetBlock_resets (s : State) : (resetBlock s).resets = (s.trace ++ idleEdges s.clk s.dioOe s.pwr).length :: s.resets := by
  rw [← resetBlock_trace]; simp only [State.trace, List.length_reverse]; rfl

/-! ### Events as they happen -/

/-- What an event does not touch. -/
structure HappenOnly (s t : State) : Prop where
  bytes : t.bytes = s.bytes
  words : t.words = s.words
  params : t.params = s.params
  inputs : t.inputs = s.inputs
  resets : t.resets = s.resets

theorem happen_only (e : Event) (s : State) : HappenOnly s (happen e s) := by cases e <;> constructor <;> rfl

theorem happenAll_only (es : List Event) (s : State) : HappenOnly s (happenAll es s) := by
  induction es generalizing s with
  | nil => constructor <;> rfl
  | cons e es ih =>
    have h := happen_only e s
    have k := ih (happen e s)
    exact ⟨k.bytes.trans h.bytes, k.words.trans h.words, k.params.trans h.params, k.inputs.trans h.inputs, k.resets.trans h.resets⟩

theorem happenAll_trace (es : List Event) (s : State) : (happenAll es s).trace = s.trace ++ es := by
  induction es generalizing s with
  | nil => simp [happenAll]
  | cons e es ih =>
    have h : (happen e s).trace = s.trace ++ [e] := by cases e <;> simp [happen, emit, State.trace]
    have := ih (happen e s)
    rw [h, List.append_assoc] at this
    exact this

/-- The lines and the samples after the events `es`. -/
theorem happenAll_lines (es : List Event) (s : State) :
    (happenAll es s).clk = clockAfter s.clk es ∧ (happenAll es s).dioOe = heldAfter s.dioOe es ∧
      (happenAll es s).pwr = powerAfter s.pwr es ∧ (happenAll es s).dioIn = s.dioIn.drop (sampleCount es) := by
  induction es generalizing s with
  | nil => simp [happenAll, clockAfter, heldAfter, powerAfter, sampleCount]
  | cons e es ih =>
    obtain ⟨h1, h2, h3, h4⟩ := ih (happen e s)
    refine ⟨h1.trans ?_, h2.trans ?_, h3.trans ?_, h4.trans ?_⟩
    · cases e <;> rfl
    · cases e <;> rfl
    · cases e <;> rfl
    · cases e <;> simp [happen, sampleCount, Nat.add_comm]

/-! ### The host's buffers -/

theorem Memory.wf_writeUntil {w : Nat} (m : Memory w) (k : Nat) (vs : List (BitVec w)) (made events stores : Nat) (h : Memory.wf m) :
    Memory.wf (Memory.writeUntil m k vs made events stores) := Memory.wf_writeList _ _ _ h

/-- Stopped stores are the first ones, and all of them when their time had passed. -/
theorem Memory.writeUntil_eq {w : Nat} (m : Memory w) (k : Nat) (vs : List (BitVec w)) (made events stores : Nat) :
    ∃ n, Memory.writeUntil m k vs made events stores = Memory.writeList m k (vs.take n) ∧ (made < events → vs.length ≤ n) := by
  rw [Memory.writeUntil]
  split
  · exact ⟨vs.length, by rw [List.take_length], fun _ => Nat.le_refl _⟩
  · split
    · exact ⟨stores, rfl, fun h => absurd h ‹_›⟩
    · exact ⟨0, by simp, fun h => absurd h ‹_›⟩

/-- Of the values stored from index `k` on, the first `n` stored only: a read gives what all of them give below `k + n`, and what was there before
from `k + n` on. -/
theorem Memory.read_writeList_take {w : Nat} (m : Memory w) (k n : Nat) (vs : List (BitVec w)) (h : Memory.wf m) (i : Nat) :
    Memory.read (Memory.writeList m k (vs.take n)) i = Memory.read (if i < k + n then Memory.writeList m k vs else m) i := by
  rw [Memory.read_writeList _ _ _ _ h, List.length_take]
  by_cases hi : i < k + n
  · rw [if_pos hi, Memory.read_writeList _ _ _ _ h]
    by_cases hk : k ≤ i ∧ i < k + vs.length
    · rw [if_pos (by omega), if_pos hk]; simp [List.getD_eq_getElem?_getD, show i - k < n by omega]
    · rw [if_neg (by omega), if_neg hk]
  · rw [if_neg hi, if_neg (by omega)]

/-- The chunks of a block read store some bytes `bs` in order, and a reset leaves the first of them (44_block.md R224). -/
theorem chunksUntil_eq (events stores : Nat) (cs : List (Nat × Nat)) (dst : Nat) (s : State) :
    ∃ bs n, (readChunks cs dst s).bytes = Memory.writeList s.bytes dst bs ∧
      chunksUntil events stores cs dst s = Memory.writeList s.bytes dst (bs.take n) := by
  induction cs generalizing dst s with
  | nil => exact ⟨[], 0, rfl, rfl⟩
  | cons x cs ih =>
    obtain ⟨addr, c⟩ := x
    obtain ⟨bs, n, h1, h2⟩ := ih (dst + c) (readChunk addr c dst s)
    have hb : (receiveChunk addr c s).1.bytes = s.bytes := by
      obtain ⟨u, hu, hw⟩ := setWindow_linkOnly (BitVec.ofNat 32 addr) s
      refine (readTransaction_linkOnly _ _ _ _).bytes.trans ?_
      rw [hw]; exact hu.bytes
    have hl : (receiveChunk addr c s).2.length = c := unpackBytes_length _ _
    have hr : (readChunk addr c dst s).bytes = Memory.writeList s.bytes dst (receiveChunk addr c s).2 := by
      show Memory.writeList (receiveChunk addr c s).1.bytes dst _ = _
      rw [hb]
    refine ⟨(receiveChunk addr c s).2 ++ bs, ?_⟩
    rw [readChunks, h1, hr, Memory.writeList_append, hl, chunksUntil]
    split
    · have e : ((receiveChunk addr c s).2 ++ bs).take (c + n) = (receiveChunk addr c s).2 ++ bs.take n := by
        rw [List.take_append, hl, List.take_of_length_le (by omega), Nat.add_sub_cancel_left]
      exact ⟨c + n, rfl, by rw [h2, hr, e, Memory.writeList_append, hl]⟩
    · obtain ⟨k, hk, hf⟩ := Memory.writeUntil_eq s.bytes dst (receiveChunk addr c s).2 (receiveChunk addr c s).1.log.length events stores
      refine ⟨min k (receiveChunk addr c s).2.length, rfl, ?_⟩
      rw [hk, List.take_append_of_le_length (Nat.min_le_right _ _), List.take_eq_take_min]

/-! ### The stopped operation -/

/-- Everything `execThenReset` can do when it answers a next state. -/
theorem execThenReset_cases {i : Instr} {events stores : Nat} {s t : State} (h : execThenReset i events stores s = .next t) :
    ∃ u, exec i s = .next u ∧ t = resetBlock (stopped i events stores s u) := by
  unfold execThenReset at h
  split at h
  · next u hu => exact ⟨u, hu, (Host.Outcome.next.inj h).symm⟩
  · cases h
  · cases h

theorem bytesUntil_wf (i : Instr) (events stores : Nat) (s : State) (h : Memory.wf s.bytes) : Memory.wf (bytesUntil i events stores s) := by
  unfold bytesUntil
  split
  · split
    · obtain ⟨bs, n, -, hc⟩ := chunksUntil_eq events stores _ _ (accept _ s)
      rw [hc]; exact Memory.wf_writeList _ _ _ h
    · exact h
  · exact h

theorem wordsUntil_wf (i : Instr) (events stores : Nat) (s : State) (h : Memory.wf s.words) : Memory.wf (wordsUntil i events stores s) := by
  unfold wordsUntil
  split
  · split
    · exact Memory.wf_writeUntil _ _ _ _ _ _ h
    · exact h
  · exact h

end Sys2Proof.Machine
end

