-- ==== Sys2Proof/Laws/Wire.lean ====
section
/-! SUPPORT. The traffic of the two transport calls keeps the wire discipline and leaves the wire idle. -/

namespace Sys2Proof.Machine

theorem wireRun_append (w : Wire) (xs ys : List Event) : wireRun w (xs ++ ys) = (wireRun w xs).bind fun v => wireRun v ys := by
  induction xs generalizing w with
  | nil => rfl
  | cons e es ih => simp only [List.cons_append, wireRun]; cases wireStep w e <;> simp [ih]

theorem wireRun_writtenBits (w : Word) (k : Nat) : wireRun ⟨false, true, false, 0⟩ (writtenBits w k) = some ⟨false, true, false, k % 32⟩ := by
  induction k with
  | zero => rfl
  | succ k ih => rw [writtenBits_succ, wireRun_append, ih]; simp [wireRun, wireStep]

theorem wireRun_receivedBits (level : Nat → Bool) (k : Nat) : wireRun Wire.idle (receivedBits level k) = some ⟨false, false, false, k % 32⟩ := by
  induction k with
  | zero => rfl
  | succ k ih => rw [receivedBits_succ, wireRun_append, ih]; simp [wireRun, wireStep]

theorem wireRun_writtenWords (ws : List Word) :
    wireRun ⟨false, true, false, 0⟩ (ws.flatMap writtenWordEvents) = some ⟨false, true, false, 0⟩ := by
  induction ws with
  | nil => rfl
  | cons w ws ih => rw [List.flatMap_cons, wireRun_append, writtenWordEvents_eq, wireRun_writtenBits w 32]; exact ih

/-- A write call keeps the discipline (40_transport.md R112 to R116). -/
theorem wireRun_txEvents (ws : List Word) : wireRun Wire.idle (txEvents ws) = some Wire.idle := by
  cases ws with
  | nil => rfl
  | cons w ws =>
    have h : wireRun Wire.idle (Event.take :: (w :: ws).flatMap writtenWordEvents) = some ⟨false, true, false, 0⟩ := by
      rw [wireRun, show wireStep Wire.idle .take = some ⟨false, true, false, 0⟩ from rfl]
      exact wireRun_writtenWords (w :: ws)
    rw [txEvents, wireRun_append, h]
    rfl

/-- A read call keeps the discipline (40_transport.md R118 to R120). -/
theorem wireRun_rxEvents (rs : List Word) : wireRun Wire.idle (rxEvents rs) = some Wire.idle := by
  induction rs with
  | nil => rfl
  | cons w rs ih =>
    have hw : receivedWordEvents w = receivedBits (fun j => w.getLsbD (31 - j)) 32 := by
      simp only [receivedWordEvents, wordBits, receivedBits, List.flatMap_map]
    rw [rxEvents, List.flatMap_cons, wireRun_append, hw, wireRun_receivedBits _ 32]
    exact ih

/-! ### Work that a reset stops -/

/-- Events the discipline allows may stop after any of them. -/
theorem wireRun_take {w v : Wire} {es : List Event} (h : wireRun w es = some v) (k : Nat) : ∃ u, wireRun w (es.take k) = some u := by
  rw [← List.take_append_drop k es, wireRun_append] at h
  cases hu : wireRun w (es.take k) with
  | none => rw [hu] at h; cases h
  | some u => exact ⟨u, rfl⟩

/-- The wire a reader of the trace knows has the clock and the hold on the data line that the events give the lines. -/
theorem wireRun_lines {w v : Wire} {es : List Event} (h : wireRun w es = some v) :
    clockAfter w.clk es = v.clk ∧ heldAfter w.oe es = v.oe := by
  induction es generalizing w with
  | nil => cases h; exact ⟨rfl, rfl⟩
  | cons e es ih =>
    rw [wireRun] at h
    cases hu : wireStep w e with
    | none => rw [hu] at h; cases h
    | some u =>
      rw [hu] at h
      obtain ⟨h1, h2⟩ := ih h
      have hs : clockAfter w.clk [e] = u.clk ∧ heldAfter w.oe [e] = u.oe := by
        cases e <;> simp only [wireStep] at hu <;> split at hu <;> cases hu <;> exact ⟨rfl, rfl⟩
      rw [← h1, ← h2, ← hs.1, ← hs.2]
      exact ⟨rfl, rfl⟩

end Sys2Proof.Machine
end

