-- ==== Sys2Proof/Tests/Slice0.lean ====
section
/-! SUPPORT. Tests on fixed values: the well-formedness checks, the decoder on words written out by hand, one step of each operation on
the vectors of spec/95_test_vectors.md (named in each docstring), and for each statement with hypotheses a state and operands that meet
them. Every expected value is the spec's. -/

namespace Sys2Proof.Tests

open Sys2Proof.Machine

/-! ### A small state -/

/-- The default parameters (00_scope.md R7) with `MAX_POLLS` and `T_HALF`, which have no default, given. -/
def params (maxPolls : Nat) : Params := { Config.defaults with maxPolls := maxPolls, tHalf := 1 }

/-- A state with the window `win` in which the device answers with the words `rx`, and every wait lasts its lower bound. -/
def start (win : Word) (rx : List Word) : State :=
  { State.reset with params := params 3, window := win, dioIn := rx.flatMap wordBits, waitIn := [0, 0] }

/-- What `view` shows of the state after one operation; `none` where there is no next state. -/
def after {α : Type} (i : Instr) (s : State) (view : State → α) : Option α :=
  match exec i s with
  | .next t => some (view t)
  | _ => none

/-- What `view` shows of the state after one step. -/
def afterStep {α : Type} (s : State) (view : State → α) : Option α :=
  match step s with
  | .next t => some (view t)
  | _ => none

/-- Trace, error and window. -/
def link (t : State) : List Event × Option ErrRecord × Word := (t.trace, t.err, t.window)

/-- The same and the result. -/
def value (t : State) : List Event × Option ErrRecord × Word × OpResult := (t.trace, t.err, t.window, t.result)

/-- `k` bit-times in which the block drives `b` (40_transport.md R114). -/
def drives (k : Nat) (b : Bool) : List Event := (List.replicate k [Event.drive b, .rise, .fall]).flatten

/-- `k` bit-times in which the block samples `b` (40_transport.md R120). -/
def samples (k : Nat) (b : Bool) : List Event := (List.replicate k [Event.rise, .sample b, .fall]).flatten

set_option maxRecDepth 100000

/-! ### Well-formedness -/

/-- A sequence of `2 ^ 64` words. -/
theorem test_illFormed_words : (Instr.tWrite (List.replicate (2 ^ 64) 0)).wellFormed = false :=
  (congrArg natFits (List.length_replicate (n := 2 ^ 64) (a := (0 : Word)))).trans (by decide)

theorem test_illFormed_counts :
    (Instr.tRead (2 ^ 64)).wellFormed = false ∧ (Instr.rd32s (2 ^ 64)).wellFormed = false ∧
      (Instr.wr32s (2 ^ 64) 0).wellFormed = false := by decide

theorem test_illFormed_command :
    [Instr.cwEnc (2 ^ 64) 0 0 0 0, .cwEnc 0 (2 ^ 64) 0 0 0, .cwEnc 0 0 (2 ^ 64) 0 0, .cwEnc 0 0 0 (2 ^ 64) 0,
      .cwEnc 0 0 0 0 (2 ^ 64)].all (fun i => !i.wellFormed) = true := by decide

theorem test_illFormed_function :
    [Instr.rd8 (2 ^ 64) 0, .rd16 (2 ^ 64) 0, .rd32 (2 ^ 64) 0, .wr8 (2 ^ 64) 0 0, .wr16 (2 ^ 64) 0 0,
      .wr32 (2 ^ 64) 0 0].all (fun i => !i.wellFormed) = true := by decide

theorem test_illFormed_address :
    [Instr.rd8 0 (2 ^ 64), .rd16 0 (2 ^ 64), .rd32 0 (2 ^ 64), .wr8 0 (2 ^ 64) 0, .wr16 0 (2 ^ 64) 0,
      .wr32 0 (2 ^ 64) 0].all (fun i => !i.wellFormed) = true := by decide

theorem test_illFormed_buffer :
    [Instr.bpRdBlk 0 (2 ^ 64) 0, .bpRdBlk 0 0 (2 ^ 64), .bpWrBlk 0 (2 ^ 64) 0, .bpWrBlk 0 0 (2 ^ 64), .dataRd (2 ^ 64) 0,
      .dataRd 0 (2 ^ 64), .dataWr (2 ^ 64) 0, .dataWr 0 (2 ^ 64)].all (fun i => !i.wellFormed) = true := by decide

/-- The largest operands are well formed. -/
theorem test_wellFormed_largest :
    (Instr.cwEnc (2 ^ 64 - 1) 0 0 0 (2 ^ 64 - 1)).wellFormed = true ∧ (Instr.bpRdBlk 0xFFFFFFFF#32 (2 ^ 64 - 1) (2 ^ 64 - 1)).wellFormed = true := by
  decide

/-! ### Decoding: short forms, the header written bit by bit as `write_increment_function_address_length` (30_encoding.md R97) -/

/-- `RD8 FN_BUS, 0x00001` (E10, T8). -/
theorem test_decode_rd8 :
    decode [0b0_1_00_00000000000000001_00000000001#32, 0#32] = .ok (.rd8 0 0x00001) := by decide

/-- `RD16 FN_BUS, 0x00004` (F4). -/
theorem test_decode_rd16 :
    decode [0b0_1_00_00000000000000100_00000000010#32, 0#32] = .ok (.rd16 0 0x00004) := by decide

/-- `RD32 3, 0x00014` (30_encoding.md R97). -/
theorem test_decode_rd32 :
    decode [0b0_1_11_00000000000010100_00000000100#32, 0#32] = .ok (.rd32 3 0x00014) := by decide

/-- `WR8 FN_BACKPLANE, 0x1000C, 0x18` (F14). -/
theorem test_decode_wr8 :
    decode [0b1_1_01_10000000000001100_00000000001#32, 0#32, 0x18#32] = .ok (.wr8 1 0x1000C 0x18#32) := by decide

/-- `WR16 FN_BUS, 0x00006, 0xBEEF` (F11). -/
theorem test_decode_wr16 :
    decode [0b1_1_00_00000000000000110_00000000010#32, 0#32, 0xBEEF#32] = .ok (.wr16 0 0x00006 0xBEEF#32) := by decide

/-- `WR32 3, 0x00018, 0x12345678` (30_encoding.md R97). -/
theorem test_decode_wr32 :
    decode [0b1_1_11_00000000000011000_00000000100#32, 0#32, 0x12345678#32] = .ok (.wr32 3 0x00018 0x12345678#32) := by decide

/-- `RD32S 0x00014`, its header before the rotation; `RD32 FN_BUS` has the same word (log 4) (E1, F19). -/
theorem test_decode_rd32s :
    decode [0b0_1_00_00000000000010100_00000000100#32, 0#32] = .ok (.rd32s 0x00014) := by decide

/-- `WR32S 0x00018, 0x12345678` (log 4) (E2, F22). -/
theorem test_decode_wr32s :
    decode [0b1_1_00_00000000000011000_00000000100#32, 0#32, 0x12345678#32] = .ok (.wr32s 0x00018 0x12345678#32) := by decide

/-- `BP.RD8 0x18002345`, the window in an operand word (Q3). -/
theorem test_decode_bpRd8 :
    decode [0b0_1_01_00010001101000101_00000000001#32, 0#32, 0x18000000#32] = .ok (.bpRd8 0x18002345#32) := by decide

/-- `BP.RD16 0x18002344` (Q2). -/
theorem test_decode_bpRd16 :
    decode [0b0_1_01_00010001101000100_00000000010#32, 0#32, 0x18000000#32] = .ok (.bpRd16 0x18002344#32) := by decide

/-- `BP.RD32 0x18007FFC`: the access flag is no offset bit (Q7). -/
theorem test_decode_bpRd32 :
    decode [0b0_1_01_01111111111111100_00000000100#32, 0#32, 0x18000000#32] = .ok (.bpRd32 0x18007FFC#32) := by decide

/-- `BP.WR8 0x18007FFF, 0x5A` (Q6). -/
theorem test_decode_bpWr8 :
    decode [0b1_1_01_00111111111111111_00000000001#32, 0#32, 0x18000000#32, 0x5A#32] = .ok (.bpWr8 0x18007FFF#32 0x5A#32) := by decide

/-- `BP.WR16 0x18002344, 0xBEEF` (Q5). -/
theorem test_decode_bpWr16 :
    decode [0b1_1_01_00010001101000100_00000000010#32, 0#32, 0x18000000#32, 0xBEEF#32] = .ok (.bpWr16 0x18002344#32 0xBEEF#32) := by decide

/-- `BP.WR32 0x18002344, 0xDEADBEEF` (Q4). -/
theorem test_decode_bpWr32 :
    decode [0b1_1_01_01010001101000100_00000000100#32, 0#32, 0x18000000#32, 0xDEADBEEF#32] = .ok (.bpWr32 0x18002344#32 0xDEADBEEF#32) := by decide

/-- `BP.RDBLK 0x18000000, buf, 6`, the buffer at index 7 (B17). -/
theorem test_decode_bpRdBlk :
    decode [0b0_1_01_00000000000000000_00000000110#32, 0#32, 0x18000000#32, 7#32, 0#32] = .ok (.bpRdBlk 0x18000000#32 7 6) := by decide

/-- `BP.WRBLK 0x18000010, buf, 5` (B13). -/
theorem test_decode_bpWrBlk :
    decode [0b1_1_01_00000000000010000_00000000101#32, 0#32, 0x18000000#32, 7#32, 0#32] = .ok (.bpWrBlk 0x18000010#32 7 5) := by decide

/-- `DATA.RD wbuf, 10`, the buffer at index 3 (E12, DP1). -/
theorem test_decode_dataRd :
    decode [0b0_1_10_00000000000000000_00000001010#32, 0#32, 3#32, 0#32] = .ok (.dataRd 3 10) := by decide

/-- `DATA.WR wbuf, 2` (E13, DP8). -/
theorem test_decode_dataWr :
    decode [0b1_1_10_00000000000000000_00000001000#32, 0#32, 3#32, 0#32] = .ok (.dataWr 3 2) := by decide

/-- `T.WRITE [0xA5000000, 0x0000005A]` (T5). -/
theorem test_decode_tWrite : decode [0#32, 1#32, 2#32, 0#32, 0xA5000000#32, 0x5A#32] = .ok (.tWrite [0xA5000000#32, 0x5A#32]) := by decide

/-- `T.READ 2` (T7). -/
theorem test_decode_tRead : decode [0#32, 2#32, 2#32, 0#32] = .ok (.tRead 2) := by decide

/-- `T.FLUSH` (T10). -/
theorem test_decode_tFlush : decode [0#32, 3#32] = .ok (.tFlush) := by decide

/-- `CW.ENC 0, 1, 2, 0x12345, 0x155`. -/
theorem test_decode_cwEnc : decode [0#32, 4#32, 0#32, 0#32, 1#32, 0#32, 2#32, 0#32, 0x12345#32, 0#32, 0x155#32, 0#32] = .ok (.cwEnc 0 1 2 0x12345 0x155) := by decide

/-- `CW.DEC 0xDEADBEEF`. -/
theorem test_decode_cwDec : decode [0#32, 5#32, 0xDEADBEEF#32] = .ok (.cwDec 0xDEADBEEF#32) := by decide

/-- `ROT16 0x12345678` (E26). -/
theorem test_decode_rot16 : decode [0#32, 6#32, 0x12345678#32] = .ok (.rot16 0x12345678#32) := by decide

/-- `SETWIN 0x18008000` (W4). -/
theorem test_decode_setWin : decode [0#32, 15#32, 0x18008000#32] = .ok (.setWin 0x18008000#32) := by decide

/-- `INIT`. -/
theorem test_decode_init : decode [0#32, 26#32] = .ok (.init) := by decide

/-- A header with operands over 32 bits survives the long form. -/
theorem test_encode_wr8 :
    encode (.wr8 1 (2 ^ 33 + 5) 0x18#32) = [0#32, 10#32, 1#32, 0#32, 5#32, 2#32, 0x18#32] := by decide

/-- Records that are no operation: no row of spec/opcode_table.json, an unknown number, an operand missing, words left over. -/
theorem test_decode_bad :
    decode [0x40000003#32, 0#32] = .error (.unknownHeader 0x40000003#32) ∧ decode [0#32, 27#32] = .error (.unknownOperation 27) ∧
      decode [0#32, 6#32] = .error .truncated ∧ decode [0#32, 3#32, 1#32] = .error .trailing ∧
      decode [1#32, 1#32] = .error .headerAndNumber ∧ decode [] = .error .noOperation := by decide

/-! ### One step of each operation -/

/-- T1. -/
theorem test_tWrite_levels :
    after (.tWrite [0x80000001#32]) (start 0 []) (fun t => (t.trace, t.clk, t.dioOe, t.dioOut)) =
      some ([Event.take] ++ drives 1 true ++ drives 30 false ++ drives 1 true ++ [.release], false, false, true) := by decide +kernel

/-- T5: one hold of the line, nothing between the words. -/
theorem test_tWrite_two :
    after (.tWrite [0xA5000000#32, 0x5A#32]) (start 0 []) State.trace =
      some ([Event.take] ++ drives 1 true ++ drives 1 false ++ drives 1 true ++ drives 2 false ++ drives 1 true ++ drives 1 false ++
        drives 1 true ++ drives 49 false ++ drives 1 true ++ drives 1 false ++ drives 2 true ++ drives 1 false ++ drives 1 true ++
        drives 1 false ++ [.release]) := by decide +kernel

/-- T6. -/
theorem test_tRead_bit31_first :
    after (.tRead 1) { start 0 [] with dioIn := [true, false, true] ++ List.replicate 29 false } (fun t => (t.trace, t.result, t.clk)) =
      some (samples 1 true ++ samples 1 false ++ samples 1 true ++ samples 29 false, .words [0xA0000000#32], false) := by decide +kernel

/-- T7. -/
theorem test_tRead_two :
    after (.tRead 2) { start 0 [] with dioIn := List.replicate 32 true ++ List.replicate 31 false ++ [true] } (·.result) =
      some (.words [0xFFFFFFFF#32, 0x00000001#32]) := by decide +kernel

/-- T10. -/
theorem test_tFlush : after .tFlush (start 0x18000000#32 []) link = some ([], none, 0x18000000#32) := by decide +kernel

/-- E11. -/
theorem test_cwEnc : after (.cwEnc 0 0 2 0x12345 0x155) (start 0 []) value = some ([], none, 0, .value 0x291A2955#32) := by decide +kernel

/-- 95_test_vectors.md 2.2: `CW.ENC 2, 1, 0, 0, 4` is rejected (write). -/
theorem test_cwEnc_rejects_write :
    after (.cwEnc 2 1 0 0 4) (start 0 []) link = some ([], some ⟨.precondition, .fieldRange, .operand 2⟩, 0) := by decide +kernel

/-- 95_test_vectors.md 2.2: `CW.DEC 0xDEADBEEF = (1, 1, 1, 0x1D5B7, 0x6EF)`. -/
theorem test_cwDec :
    after (.cwDec 0xDEADBEEF#32) (start 0 []) value = some ([], none, 0, .fields ⟨1, 1, 1, 0x1D5B7#17, 0x6EF#11⟩) := by decide +kernel

/-- E26: not `0x78563412`. -/
theorem test_rot16 : after (.rot16 0x12345678#32) (start 0 []) value = some ([], none, 0, .value 0x56781234#32) := by decide +kernel

/-- P5, through `step` with the short form on the host port: 194 events, the result, the idle lines. -/
theorem test_step_rd8 :
    afterStep { start 0 [0xA5#32] with inputs := [.request [0x40000801#32, 0#32]] }
        (fun t => (value t, [t.clk, t.dioOe, t.dioOut, t.busy])) =
      some (([Event.take] ++ drives 1 false ++ drives 1 true ++ drives 18 false ++ drives 1 true ++ drives 10 false ++ drives 1 true ++
        [.release] ++ samples 24 false ++ samples 1 true ++ samples 1 false ++ samples 1 true ++ samples 2 false ++ samples 1 true ++
        samples 1 false ++ samples 1 true, none, 0, .value 0xA5#32), [false, false, true, false]) := by decide +kernel

/-- F6: the first word is thrown away, `WINDOW` stays. -/
theorem test_rd8_backplane :
    after (.rd8 1 0x1000A) (start 0 [0xDEADBEEF#32, 0x12345680#32]) value =
      some (txEvents [0x58005001#32] ++ rxEvents [0xDEADBEEF#32, 0x12345680#32], none, 0, .value 0x80#32) := by decide +kernel

/-- F4. -/
theorem test_rd16 :
    after (.rd16 0 0x00004) (start 0 [0xFFFF00E0#32]) value =
      some (txEvents [0x40002002#32] ++ rxEvents [0xFFFF00E0#32], none, 0, .value 0x00E0#32) := by decide +kernel

/-- F5. -/
theorem test_rd32_backplane :
    after (.rd32 1 0x08000) (start 0 [0x55555555#32, 0xCAFEF00D#32]) value =
      some (txEvents [0x54000004#32] ++ rxEvents [0x55555555#32, 0xCAFEF00D#32], none, 0, .value 0xCAFEF00D#32) := by decide +kernel

/-- F18. -/
theorem test_rd32_rejects_address :
    after (.rd32 0 0x20000) (start 0 []) link = some ([], some ⟨.precondition, .fieldRange, .operand 0x20000⟩, 0) := by decide +kernel

/-- F10. -/
theorem test_wr8 : after (.wr8 0 0x00001 0xAB#32) (start 0 []) link = some (txEvents [0xC0000801#32, 0xAB#32], none, 0) := by decide +kernel

/-- F15. -/
theorem test_wr8_rejects_value :
    after (.wr8 0 0 0x100#32) (start 0 []) link = some ([], some ⟨.precondition, .fieldRange, .operand 0x100⟩, 0) := by decide +kernel

/-- F11. -/
theorem test_wr16 : after (.wr16 0 0x00006 0xBEEF#32) (start 0 []) link = some (txEvents [0xC0003002#32, 0xBEEF#32], none, 0) := by
  decide +kernel

/-- F13. -/
theorem test_wr32 :
    after (.wr32 1 0x08000 0xCAFEF00D#32) (start 0 []) link = some (txEvents [0xD4000004#32, 0xCAFEF00D#32], none, 0) := by decide +kernel

/-- F19. -/
theorem test_rd32s :
    after (.rd32s 0x00014) (start 0 [0xBEADFEED#32]) value =
      some (txEvents [0xA0044000#32] ++ rxEvents [0xBEADFEED#32], none, 0, .value 0xFEEDBEAD#32) := by decide +kernel

/-- F22. -/
theorem test_wr32s :
    after (.wr32s 0x00018 0x12345678#32) (start 0 []) link = some (txEvents [0xC004C000#32, 0x56781234#32], none, 0) := by decide +kernel

/-- W5b: the bytes that differ, high before low. -/
theorem test_setWin_two_bytes :
    after (.setWin 0x00000000#32) (start 0x19008000#32 []) link =
      some (txEvents [0xD8006001#32, 0#32] ++ txEvents [0xD8005001#32, 0#32], none, 0#32) := by decide +kernel

/-- W6: from reset the byte that equals the sentinel's is not written. -/
theorem test_setWin_sentinel_corner :
    after (.setWin 0xAA001000#32) State.reset link =
      some (txEvents [0xD8005801#32, 0#32] ++ txEvents [0xD8005001#32, 0#32], none, 0xAA000000#32) := by decide +kernel

/-- Q10: the highest address, from the sentinel. -/
theorem test_bpRd8 :
    after (.bpRd8 0xFFFFFFFF#32) (start 0xAAAAAAAA#32 [0#32, 0x77#32]) value =
      some (txEvents [0xD8006001#32, 0xFF#32] ++ txEvents [0xD8005801#32, 0xFF#32] ++ txEvents [0xD8005001#32, 0x80#32] ++
        txEvents [0x53FFF801#32] ++ rxEvents [0#32, 0x77#32], none, 0xFFFF8000#32, .value 0x77#32) := by decide +kernel

/-- Q2. -/
theorem test_bpRd16 :
    after (.bpRd16 0x18002344#32) (start 0x18000000#32 [1#32, 0xFFFF1234#32]) value =
      some (txEvents [0x511A2002#32] ++ rxEvents [1#32, 0xFFFF1234#32], none, 0x18000000#32, .value 0x1234#32) := by decide +kernel

/-- Q12. -/
theorem test_bpRd16_misaligned :
    after (.bpRd16 0x18002345#32) (start 0x18000000#32 []) link =
      some ([], some ⟨.precondition, .misaligned, .address 0x18002345#32⟩, 0x18000000#32) := by decide +kernel

/-- Q8: the first word of the next window. -/
theorem test_bpRd32 :
    after (.bpRd32 0x18008000#32) (start 0x18000000#32 [0#32, 0x11223344#32]) value =
      some (txEvents [0xD8005001#32, 0x80#32] ++ txEvents [0x54000004#32] ++ rxEvents [0#32, 0x11223344#32], none, 0x18008000#32,
        .value 0x11223344#32) := by decide +kernel

/-- Q6. -/
theorem test_bpWr8 :
    after (.bpWr8 0x18007FFF#32 0x5A#32) (start 0x18000000#32 []) link =
      some (txEvents [0xD3FFF801#32, 0x5A#32], none, 0x18000000#32) := by decide +kernel

/-- Q14. -/
theorem test_bpWr8_rejects_value :
    after (.bpWr8 0x18002345#32 0x100#32) (start 0x18000000#32 []) link =
      some ([], some ⟨.precondition, .fieldRange, .operand 0x100⟩, 0x18000000#32) := by decide +kernel

/-- Q5. -/
theorem test_bpWr16 :
    after (.bpWr16 0x18002344#32 0xBEEF#32) (start 0x18000000#32 []) link =
      some (txEvents [0xD11A2002#32, 0xBEEF#32], none, 0x18000000#32) := by decide +kernel

/-- Q13: alignment before value. -/
theorem test_bpWr16_misaligned_first :
    after (.bpWr16 0x18002345#32 0x10000#32) (start 0x18000000#32 []) link =
      some ([], some ⟨.precondition, .misaligned, .address 0x18002345#32⟩, 0x18000000#32) := by decide +kernel

/-- Q4: the flag in the address field. -/
theorem test_bpWr32 :
    after (.bpWr32 0x18002344#32 0xDEADBEEF#32) (start 0x18000000#32 []) link =
      some (txEvents [0xD51A2004#32, 0xDEADBEEF#32], none, 0x18000000#32) := by decide +kernel

/-- B18: one throwaway word per chunk, the buffer at index 5. -/
theorem test_bpRdBlk :
    after (.bpRdBlk 0x18007FFC#32 5 10) (start 0x18000000#32 [0xEEEEEEEE#32, 0x04030201#32, 0xDDDDDDDD#32, 0x08070605#32, 0xFFFF0A09#32])
        (fun t => (link t, Memory.readList t.bytes 4 12)) =
      some ((txEvents [0x53FFE004#32] ++ rxEvents [0xEEEEEEEE#32, 0x04030201#32] ++ txEvents [0xD8005001#32, 0x80#32] ++
        txEvents [0x50000006#32] ++ rxEvents [0xDDDDDDDD#32, 0x08070605#32, 0xFFFF0A09#32], none, 0x18008000#32),
        [0, 1, 2, 3, 4, 5, 6, 7, 8, 9, 10, 0]) := by decide +kernel

/-- X5. -/
theorem test_bpRdBlk_range :
    after (.bpRdBlk 0xFFFFFFFC#32 0 5) (start 0 []) link =
      some ([], some ⟨.precondition, .addressRange, .addressCount 0xFFFFFFFC#32 5⟩, 0) := by decide +kernel

/-- P1 with the first window selected: the scenario of 10 bytes across a window's end. -/
theorem test_bpWrBlk :
    after (.bpWrBlk 0x00007FFC#32 0 10) { start 0 [] with bytes := (List.range 10).map fun k => (k, BitVec.ofNat 8 (k + 1)) } link =
      some (txEvents [0xD3FFE004#32, 0x04030201#32] ++ txEvents [0xD8005001#32, 0x80#32] ++
        txEvents [0xD0000006#32, 0x08070605#32, 0x00000A09#32], none, 0x00008000#32) := by decide +kernel

/-- X3: alignment is checked even for an empty buffer. -/
theorem test_bpWrBlk_misaligned :
    after (.bpWrBlk 0x18000002#32 0 0) (start 0x18000000#32 []) link =
      some ([], some ⟨.precondition, .misaligned, .address 0x18000002#32⟩, 0x18000000#32) := by decide +kernel

/-- DP1, the buffer at index 3. -/
theorem test_dataRd :
    after (.dataRd 3 10) (start 0 [0xA#32, 0xB#32, 0xC#32]) (fun t => (link t, t.words)) =
      some ((txEvents [0x6000000A#32] ++ rxEvents [0xA#32, 0xB#32, 0xC#32], none, 0), [(3, 0xA#32), (4, 0xB#32), (5, 0xC#32)]) := by
  decide +kernel

/-- DP6. -/
theorem test_dataRd_empty : after (.dataRd 0 0) (start 0 []) link = some ([], some ⟨.precondition, .lengthRange, .length 0⟩, 0) := by
  decide +kernel

/-- DP8. -/
theorem test_dataWr :
    after (.dataWr 0 2) { start 0 [] with words := [(0, 0xDEADBEEF#32), (1, 0x01020304#32)] } link =
      some (txEvents [0xE0000008#32, 0xDEADBEEF#32, 0x01020304#32], none, 0) := by decide +kernel

/-- IN2, run A of P2: three polls, of which the second receives `MAGIC` unrotated. -/
theorem test_init :
    after .init (start 0x18000000#32 [0#32, 0xFEEDBEAD#32, 0xBEADFEED#32, 0x56781234#32, 0xFEEDBEAD#32, 0x12345678#32])
        (fun t => (link t, t.pollcnt, t.pwr)) =
      some (([.pwr false, .wait 20000000, .pwr true, .wait 250000000] ++ txEvents [0xA0044000#32] ++ rxEvents [0#32] ++
        txEvents [0xA0044000#32] ++ rxEvents [0xFEEDBEAD#32] ++ txEvents [0xA0044000#32] ++ rxEvents [0xBEADFEED#32] ++
        txEvents [0xC004C000#32, 0x56781234#32] ++ txEvents [0xC0044000#32] ++ rxEvents [0x56781234#32] ++
        txEvents [0x0004C000#32, 0x00110000#32] ++ txEvents [0x4000A004#32] ++ rxEvents [0xFEEDBEAD#32] ++
        txEvents [0x4000C004#32] ++ rxEvents [0x12345678#32], none, 0xAAAAAAAA#32), 3, true) := by decide +kernel

/-- IN3, run B of P2: the same device, one poll fewer. -/
theorem test_init_timeout :
    after .init { start 0x18000000#32 [0#32, 0xFEEDBEAD#32] with params := params 2 } (fun t => (link t, t.pollcnt, t.pwr)) =
      some (([.pwr false, .wait 20000000, .pwr true, .wait 250000000] ++ txEvents [0xA0044000#32] ++ rxEvents [0#32] ++
        txEvents [0xA0044000#32] ++ rxEvents [0xFEEDBEAD#32], some ⟨.handshake, .timeout, .value 0xBEADFEED#32⟩, 0xAAAAAAAA#32), 2,
        true) := by decide +kernel

/-- 70_reset_and_hazards.md R345: a reset of P5's operation after its third event, the first `Rise`: the lines return to idle, the rest of
the operation does not happen. -/
theorem test_reset_in_word :
    afterStep { start 0 [0xA5#32] with inputs := [.requestThenReset [0x40000801#32, 0#32] 3 0] }
        (fun t => (link t, [t.clk, t.dioOe, t.busy], t.resets)) =
      some (([.take, .drive false, .rise, .fall, .release], none, 0xAAAAAAAA#32), [false, false, false], [5]) := by decide +kernel

/-- R345, R33: a reset of DP1's operation when the second of its three words is stored. -/
theorem test_reset_in_stores :
    afterStep { start 0 [0xA#32, 0xB#32, 0xC#32] with inputs := [.requestThenReset (encode (.dataRd 3 10)) 386 2] }
        (fun t => (t.trace.length, t.words)) = some (386, [(3, 0xA#32), (4, 0xB#32)]) := by decide +kernel

/-- R345, R33: a reset of B18's operation when the second byte of its second chunk is stored. -/
theorem test_reset_in_second_chunk :
    afterStep { start 0x18000000#32 [0xEEEEEEEE#32, 0x04030201#32, 0xDDDDDDDD#32, 0x08070605#32, 0xFFFF0A09#32] with
        inputs := [.requestThenReset (encode (.bpRdBlk 0x18007FFC#32 5 10)) 870 2] }
        (fun t => (t.trace.length, Memory.readList t.bytes 4 9)) = some (870, [0, 1, 2, 3, 4, 5, 6, 0, 0]) := by decide +kernel

/-- R345, R45: a reset of `INIT` in its second wait returns `PWR` to 0. -/
theorem test_reset_in_wait :
    afterStep { start 0x18000000#32 [0#32, 0xFEEDBEAD#32, 0#32] with inputs := [.requestThenReset [0#32, 26#32] 3 0] }
        (fun t => (link t, t.pwr, t.waitIn)) =
      some (([.pwr false, .wait 20000000, .pwr true, .pwr false], none, 0xAAAAAAAA#32), false, [0]) := by decide +kernel

/-- The codes of 60_exceptions.md R280. -/
theorem test_errCodes :
    [ErrCause.timeout, .patternSwapped, .magicNormal, .patternNormal, .misaligned, .addressRange, .lengthRange, .fieldRange,
      .transportFailure].map errCodeOf = [0x10, 0x11, 0x12, 0x13, 0x20, 0x21, 0x22, 0x23, 0x30] := by decide +kernel

/-- A record that is no operation is refused. -/
theorem test_step_badRecord : step { State.reset with inputs := [.request []] } = .refused (.badRecord .noOperation) := rfl

/-- A word of spec/opcode_table.json placed on the host port runs in the next step. -/
theorem test_withFetchWord :
    afterStep (State.reset.withFetchWord 32 0xC0000801) (fun t => (t.op, t.inputs)) = some (some (.wr8 0 1 0#32), []) := by decide +kernel

/-! ### The hypotheses of the statements are met -/

theorem params_wf : (params 3).Wf where
  window_mask := by decide
  window_size := by decide
  max_transfer := by decide
  access32_one_bit := by decide
  access32_disjoint := by decide
  functions := by decide
  functions_distinct := by decide
  reg_win := by decide
  sentinel := by decide
  reg_bus := by decide
  max_polls := by decide
  pwr_low := by decide
  boot := by decide
  half := by decide

theorem start_quiet (win : Word) (rx : List Word) : Quiet (start win rx) := ⟨rfl, rfl, rfl, rfl⟩

/-- An idle block with the window `0x18000000`. -/
def idle : State := start 0x18000000#32 []

/-- The second clause in the middle of a word, and after more events than the operation has (`T.FLUSH` has none). -/
theorem witness_ResetInputResetsBlock :
    { idle with pwr := true, inputs := [.reset, .request [0#32, 26#32]] }.inputs = .reset :: [.request [0#32, 26#32]] ∧
      { idle with inputs := [.requestThenReset [0x40000801#32, 0#32] 3 0, .reset] }.inputs =
        .requestThenReset [0x40000801#32, 0#32] 3 0 :: [.reset] ∧
      decode [0x40000801#32, 0#32] = .ok (.rd8 0 1) ∧
      { idle with inputs := [.requestThenReset [0#32, 3#32] 1 0] }.inputs = .requestThenReset [0#32, 3#32] 1 0 :: [] ∧
      decode [0#32, 3#32] = .ok .tFlush ∧ after .tFlush idle (fun u => u.trace) = some (idle.trace ++ []) ∧
      ([] : List Event).length < 1 ∧ idle.busy = false ∧ Memory.wf idle.bytes ∧ Memory.wf idle.words := by
  refine ⟨rfl, rfl, by decide, rfl, by decide, rfl, by decide, rfl, by decide, by decide⟩

theorem witness_StepWaitsForHost : idle.inputs = [] := rfl

theorem witness_StepRunsPresentedOperation :
    { idle with inputs := [.request [0x40000801#32, 0#32], .reset] }.inputs = .request [0x40000801#32, 0#32] :: [.reset] ∧
      decode [0x40000801#32, 0#32] = .ok (.rd8 0 1) := ⟨rfl, by decide⟩

theorem witness_BusyRequestIsRefused : { idle with busy := true, seq := .running }.busy = true := rfl

theorem witness_EveryOperationEndsReady : idle.busy = false := rfl

/-- One operation of every constructor, with the largest operands a record admits. -/
theorem witness_DecodeOfEncodeIsIdentity :
    [Instr.tWrite [0xFFFFFFFF#32], .tRead (2 ^ 64 - 1), .tFlush,
      .cwEnc (2 ^ 64 - 1) (2 ^ 64 - 1) (2 ^ 64 - 1) (2 ^ 64 - 1) (2 ^ 64 - 1), .cwDec 0xFFFFFFFF#32, .rot16 0xFFFFFFFF#32,
      .rd8 3 (2 ^ 64 - 1), .rd16 (2 ^ 64 - 1) 0, .rd32 3 0x1FFFF, .wr8 3 0x1FFFF 0xFF#32, .wr16 3 0x1FFFF 0xFFFF#32,
      .wr32 3 0x1FFFF 0xFFFFFFFF#32, .rd32s (2 ^ 64 - 1), .wr32s 0x1FFFF 0xFFFFFFFF#32, .setWin 0xFFFFFFFF#32,
      .bpRd8 0xFFFFFFFF#32, .bpRd16 0xFFFFFFFE#32, .bpRd32 0xFFFFFFFC#32, .bpWr8 0xFFFFFFFF#32 0xFF#32,
      .bpWr16 0xFFFFFFFE#32 0xFFFF#32, .bpWr32 0xFFFFFFFC#32 0xFFFFFFFF#32, .bpRdBlk 0xFFFFFFFC#32 (2 ^ 64 - 1) 4,
      .bpWrBlk 0xFFFFFFFC#32 0 (2 ^ 64 - 1), .dataRd (2 ^ 64 - 1) 2047, .dataWr 0 511, .init].all Instr.wellFormed = true := by decide

theorem witness_StepKeepsInvariant :
    Inv { idle with bytes := [(3, 1#8)], inputs := [.request [0#32, 15#32, 0x18008004#32]] } ∧
      ∃ t, step { idle with bytes := [(3, 1#8)], inputs := [.request [0#32, 15#32, 0x18008004#32]] } = .next t :=
  ⟨{ params := params_wf
     framing := rfl
     quiet := ⟨rfl, rfl, rfl, rfl⟩
     window := .inr (by decide)
     bitcnt := by decide
     bytes := by decide
     words := by decide
     wire := .start
     err := fun _ h => nomatch h }, _, rfl⟩

theorem witness_TransportWriteEmitsBitTimes : Quiet idle ∧ ([] : List Word) = [] := ⟨start_quiet _ _, rfl⟩

/-- Also at the last bit of the last word, and for no word. -/
theorem witness_TransportReadReturnsSampledWords :
    Quiet idle ∧ idle.params.readFraming = .rsf ∧ 0 < 1 ∧ 511 < 512 ∧ 0 < 32 ∧ 31 < 32 ∧ (0 : Nat) = 0 :=
  ⟨start_quiet _ _, rfl, by decide⟩

theorem witness_FlushHasNoEffectOnLink : Quiet idle := start_quiet _ _

theorem witness_SplitWriteHasSameLineActions : Quiet (start 0xAAAAAAAA#32 [0xA5#32]) := start_quiet _ _

theorem witness_TransactionHasExactPulses : Quiet idle ∧ idle.params.readFraming = .rsf := ⟨start_quiet _ _, rfl⟩

/-- One tuple for each branch: the function, the address and the length out of range, and every field at its largest value. -/
theorem witness_EncoderAssemblesOrRejects :
    Quiet idle ∧ 1 ≤ 1 ∧ 0 ≤ 1 ∧ 3 < 4 ∧ (¬3 < 3 ∧ 0x1FFFF < 0x20000) ∧ (¬3 < 3 ∧ ¬0x1FFFF < 0x1FFFF ∧ 0x7FF < 0x800) ∧
      (¬3 < 3 ∧ ¬0x1FFFF < 0x1FFFF ∧ ¬0x7FF < 0x7FF) := ⟨start_quiet _ _, by decide⟩

theorem witness_DecoderExtractsFields : Quiet idle := start_quiet _ _

theorem witness_EncodeThenDecodeFields : Quiet idle ∧ 1 ≤ 1 ∧ 1 ≤ 1 ∧ 3 ≤ 3 ∧ 0x1FFFF ≤ 0x1FFFF ∧ 0x7FF ≤ 0x7FF :=
  ⟨start_quiet _ _, by decide⟩

/-- Vector E11 against itself. -/
theorem witness_DecodeThenEncodeWord :
    Quiet idle ∧ 0 ≤ 1 ∧ 2 ≤ 3 ∧ 0x12345 ≤ 0x1FFFF ∧ 0x155 ≤ 0x7FF ∧
      ∃ t t', exec (.cwEnc 0 0 2 0x12345 0x155) idle = .next t ∧ exec (.cwEnc 0 0 2 0x12345 0x155) idle = .next t' ∧ t.result = t'.result :=
  ⟨start_quiet _ _, by decide, by decide, by decide, by decide, _, _, rfl, rfl, rfl⟩

theorem witness_OneBitChangesOneField : 0 < 32 ∧ 10 < 32 ∧ 11 < 32 ∧ 27 < 32 ∧ 28 < 32 ∧ 29 < 32 ∧ 30 < 32 ∧ 31 < 32 := by decide

theorem witness_RotationExchangesHalves : Quiet idle := start_quiet _ _

/-- The backplane function, another one, the largest address, each width. -/
theorem witness_FunctionReadReturnsPayload :
    Quiet idle ∧ idle.params.readFraming = .rsf ∧ (1 = idle.params.fnBackplane ∧ 1 ≤ 3) ∧ (3 ≠ idle.params.fnBackplane ∧ 3 ≤ 3) ∧
      0x1FFFF ≤ 0x1FFFF ∧ (Instr.rd16 3 0x1FFFF, 2) ∈ [(Instr.rd8 3 0x1FFFF, 1), (Instr.rd16 3 0x1FFFF, 2), (Instr.rd32 3 0x1FFFF, 4)] :=
  ⟨start_quiet _ _, rfl, by decide, by decide, by decide, by decide⟩

/-- The largest value of each width. -/
theorem witness_FunctionWriteSendsValue :
    Quiet idle ∧ 3 ≤ 3 ∧ 0x1FFFF ≤ 0x1FFFF ∧ (0xFF#32).toNat < 2 ^ (8 * 1) ∧ (0xFFFF#32).toNat < 2 ^ (8 * 2) ∧
      (0xFFFFFFFF#32).toNat < 2 ^ (8 * 4) := ⟨start_quiet _ _, by decide⟩

/-- The function, the address, the value (of one byte and of two) one past the largest. -/
theorem witness_FunctionAccessChecksInOrder :
    Quiet idle ∧ (3 < 4 ∧ 4 = 4) ∧ (3 ≤ 3 ∧ 0x1FFFF < 0x20000 ∧ 0x20000 = 0x20000) ∧
      (3 ≤ 3 ∧ 0x1FFFF ≤ 0x1FFFF ∧ (∃ n, some 1 = some n ∧ 2 ^ (8 * n) ≤ (0x100#32).toNat) ∧ 0x100 = (0x100#32).toNat) ∧
      ∃ n, some 2 = some n ∧ 2 ^ (8 * n) ≤ (0x10000#32).toNat :=
  ⟨start_quiet _ _, by decide, by decide, ⟨by decide, by decide, ⟨1, rfl, by decide⟩, by decide⟩, 2, rfl, by decide⟩

theorem witness_RotatedReadExchangesHalves : Quiet idle ∧ idle.params.readFraming = .rsf ∧ 0x1FFFF ≤ 0x1FFFF :=
  ⟨start_quiet _ _, rfl, by decide⟩

theorem witness_RotatedWriteExchangesHalves : Quiet idle ∧ 0x1FFFF ≤ 0x1FFFF := ⟨start_quiet _ _, by decide⟩

theorem witness_RotatedAccessRejectsWideAddress :
    Quiet idle ∧ 0x1FFFF < 0x20000 ∧ Instr.rd32s 0x20000 ∈ [Instr.rd32s 0x20000, Instr.wr32s 0x20000 0] ∧
      Instr.wr32s 0x20000 0 ∈ [Instr.rd32s 0x20000, Instr.wr32s 0x20000 0] := ⟨start_quiet _ _, by decide⟩

/-- Two states whose devices differ in the first word only. -/
theorem witness_TurnaroundWordIsIgnored :
    let s := start 0x18000000#32 [0x00000001#32, 0xCAFEF00D#32]
    let s' := start 0x18000000#32 [0x55555555#32, 0xCAFEF00D#32]
    Quiet s ∧ Quiet s' ∧ s'.params = s.params ∧ s.params.readFraming = .rsf ∧
      (∀ k, 32 ≤ k → s'.deviceLevel k = s.deviceLevel k) ∧ s'.deviceLevel 1 ≠ s.deviceLevel 1 ∧ s.params.fnBackplane ≤ 3 ∧
      0x1FFFF ≤ 0x1FFFF ∧ (0x18007FFC#32).toNat % 4 = 0 := by
  refine ⟨start_quiet _ _, start_quiet _ _, rfl, rfl, fun k hk => ?_, by decide, by decide, by decide, by decide⟩
  have tail (w : Word) : (wordBits w ++ [0xCAFEF00D#32].flatMap wordBits)[k]? = ([0xCAFEF00D#32].flatMap wordBits)[k - 32]? := by
    rw [List.getElem?_append_right (by simpa [wordBits] using hk)]
    simp [wordBits]
  change ((wordBits 0x55555555#32 ++ [0xCAFEF00D#32].flatMap wordBits)[k]?).getD _ =
    ((wordBits 0x00000001#32 ++ [0xCAFEF00D#32].flatMap wordBits)[k]?).getD _
  rw [tail, tail]
  rfl

theorem witness_SetWindowWritesDifferingBytes : Quiet (start 0xAAAAAAAA#32 []) := start_quiet _ _

theorem witness_SetWindowCountsDifferingBytes : Quiet idle ∧ ∃ t, exec (.setWin 0x19008000#32) idle = .next t :=
  ⟨start_quiet _ _, _, rfl⟩

/-- The last address of the same window meets the last clause. -/
theorem witness_SetWindowAgainWritesDifference :
    Quiet idle ∧ (∃ t, exec (.setWin 0x18008000#32) idle = .next t) ∧
      windowOf idle.params 0x1800FFFF#32 = windowOf idle.params 0x18008000#32 := ⟨start_quiet _ _, ⟨_, rfl⟩, by decide⟩

theorem witness_SameWindowIsSameRequest :
    Quiet idle ∧ windowOf idle.params 0x18008000#32 = windowOf idle.params 0x1800FFFF#32 ∧
      ∃ t, exec (.setWin 0x18008000#32) idle = .next t := ⟨start_quiet _ _, by decide, _, rfl⟩

theorem witness_MaskedWindowBitsStayZero :
    (∃ t, exec (.setWin 0x18007FFF#32) idle = .next t) ∧ Instr.bpRd8 0#32 ≠ .init ∧ idle.window &&& idle.params.windowMask = 0 ∧
      ∃ t, exec (.bpRd8 0#32) idle = .next t := ⟨⟨_, rfl⟩, by decide, by decide, _, rfl⟩

/-- Each width at the last address of a window it can read. -/
theorem witness_BackplaneReadReturnsPayload :
    Quiet idle ∧ idle.params.readFraming = .rsf ∧ (0x18007FFF#32).toNat % 1 = 0 ∧ (0x18007FFE#32).toNat % 2 = 0 ∧
      (0x18007FFC#32).toNat % 4 = 0 := ⟨start_quiet _ _, rfl, by decide⟩

theorem witness_BackplaneWriteSendsValue :
    Quiet idle ∧ ((0xFFFFFFFF#32).toNat % 1 = 0 ∧ (0xFF#32).toNat < 2 ^ (8 * 1)) ∧
      ((0xFFFFFFFE#32).toNat % 2 = 0 ∧ (0xFFFF#32).toNat < 2 ^ (8 * 2)) ∧
      ((0xFFFFFFFC#32).toNat % 4 = 0 ∧ (0xFFFFFFFF#32).toNat < 2 ^ (8 * 4)) := ⟨start_quiet _ _, by decide⟩

/-- Both clauses, each at its first value. -/
theorem witness_BackplaneAccessChecksInOrder :
    Quiet idle ∧ (0x18002345#32).toNat % 2 ≠ 0 ∧ (0x18002346#32).toNat % 4 ≠ 0 ∧
      ((0x18002345#32).toNat % 1 = 0 ∧ 2 ^ (8 * 1) ≤ (0x100#32).toNat) ∧
      ((0x18002344#32).toNat % 2 = 0 ∧ 2 ^ (8 * 2) ≤ (0x10000#32).toNat) := ⟨start_quiet _ _, by decide⟩

theorem witness_NarrowAccessStaysInWindow :
    (params 3).Wf ∧ (4 = 1 ∨ 4 = 2 ∨ 4 = 4) ∧ (0x18007FFC#32).toNat % 4 = 0 := ⟨params_wf, by decide⟩

theorem witness_ChunkPlanUnfolds : (params 3).Wf := params_wf

/-- Vector B11: the last chunk below `2 ^ 32`. -/
theorem witness_ChunksStayWithinLimits :
    (params 3).Wf ∧ 0xFFFFFFFC + 4 ≤ 2 ^ 32 ∧ (0xFFFFFFFC, 4) ∈ chunks (params 3) 0xFFFFFFFC 4 ∧ 0xFFFFFFFC % 4 = 0 :=
  ⟨params_wf, by decide⟩

/-- Vector B7 has three chunks. -/
theorem witness_ChunksCoverTransfer :
    (params 3).Wf ∧ 2 < (chunks (params 3) 0x7FE0 100).length ∧
      chunks (params 3) 0x7FE0 100 = [(0x7FE0, 32), (0x8000, 64), (0x8040, 4)] := ⟨params_wf, by decide +kernel⟩

/-- Vector B7: the last byte of the first chunk. -/
theorem witness_ChunkLiesInOneWindow :
    (params 3).Wf ∧ 0x7FE0 + 100 ≤ 2 ^ 32 ∧ (0x7FE0, 32) ∈ chunks (params 3) 0x7FE0 100 ∧ 31 < 32 :=
  ⟨params_wf, by decide +kernel⟩

theorem witness_BlockReadDeliversBytes :
    let s := { idle with bytes := [(3, 1#8)] }
    Quiet s ∧ s.params.readFraming = .rsf ∧ s.params.Wf ∧ Memory.wf s.bytes ∧ (0xFFFFFFFC#32).toNat % 4 = 0 ∧
      (0xFFFFFFFC#32).toNat + 4 ≤ 2 ^ 32 := ⟨⟨rfl, rfl, rfl, rfl⟩, rfl, params_wf, by decide, by decide, by decide⟩

theorem witness_BlockWriteSendsBytes :
    Quiet idle ∧ (0x18007FFC#32).toNat % 4 = 0 ∧ (0x18007FFC#32).toNat + 10 ≤ 2 ^ 32 := ⟨start_quiet _ _, by decide⟩

/-- Each clause at the first value that fails its check. -/
theorem witness_BlockChecksInOrder :
    Quiet idle ∧ (0x18000001#32).toNat % 4 ≠ 0 ∧ (0xFFFFFFFC#32).toNat % 4 = 0 ∧ 2 ^ 32 < (0xFFFFFFFC#32).toNat + 5 :=
  ⟨start_quiet _ _, by decide⟩

theorem witness_EmptyBlockDoesNothing : Quiet idle ∧ (0x18000000#32).toNat % 4 = 0 := ⟨start_quiet _ _, by decide⟩

/-- The smallest and the largest byte count. -/
theorem witness_DataReadStoresWords :
    let s := { idle with words := [(3, 1#32)] }
    Quiet s ∧ s.params.readFraming = .rsf ∧ s.params.Wf ∧ Memory.wf s.words ∧ 1 ≤ 1 ∧ 2047 ≤ 2047 :=
  ⟨⟨rfl, rfl, rfl, rfl⟩, rfl, params_wf, by decide, by decide, by decide⟩

theorem witness_DataWriteSendsWords : Quiet idle ∧ 1 ≤ 1 ∧ 511 ≤ 511 := ⟨start_quiet _ _, by decide⟩

/-- Both lengths past each end. -/
theorem witness_DataLengthIsChecked :
    Quiet idle ∧ (0 = 0 ∨ 2047 < 0) ∧ (2048 = 0 ∨ 2047 < 2048) ∧ (0 = 0 ∨ 511 < 0) ∧ (512 = 0 ∨ 511 < 512) :=
  ⟨start_quiet _ _, by decide⟩

/-- Vector IN2: the third poll, the last that `MAX_POLLS = 3` allows, is the first to return `MAGIC`. -/
theorem witness_InitSucceedsOnNthPoll :
    let s := start 0x18000000#32 [0#32, 0xFEEDBEAD#32, 0xBEADFEED#32, 0x56781234#32, 0xFEEDBEAD#32, 0x12345678#32]
    let w : Nat → Word := fun k => levelsWord s.deviceLevel (32 * k)
    Quiet s ∧ s.params.readFraming = .rsf ∧ s.params.Wf ∧ 1 ≤ 3 ∧ 3 ≤ s.params.maxPolls ∧
      (∀ k, k + 1 < 3 → rotate16 (w k) ≠ s.params.magic) ∧ rotate16 (w (3 - 1)) = s.params.magic ∧
      rotate16 (w 3) = s.params.testPattern ∧ w (3 + 1) = s.params.magic ∧ w (3 + 2) = s.params.testPattern := by
  refine ⟨start_quiet _ _, rfl, params_wf, by decide, by decide, fun k hk => ?_, ?_⟩
  · obtain rfl | rfl : k = 0 ∨ k = 1 := by omega
    · decide +kernel
    · decide +kernel
  · decide +kernel

/-- Vector IN3's device with a third wrong answer. -/
theorem witness_InitTimesOutAfterMaxPolls :
    let s := start 0x18000000#32 [0#32, 0xFEEDBEAD#32, 0xFFFFFFFF#32]
    Quiet s ∧ s.params.readFraming = .rsf ∧ s.params.Wf ∧
      ∀ k < s.params.maxPolls, rotate16 (levelsWord s.deviceLevel (32 * k)) ≠ s.params.magic :=
  ⟨start_quiet _ _, rfl, params_wf, by decide +kernel⟩

/-- Vector IN5, the first poll. -/
theorem witness_InitReportsPatternSwapped :
    let s := start 0x18000000#32 [0xBEADFEED#32, 0x12345678#32]
    let w : Nat → Word := fun k => levelsWord s.deviceLevel (32 * k)
    Quiet s ∧ s.params.readFraming = .rsf ∧ s.params.Wf ∧ 1 ≤ 1 ∧ 1 ≤ s.params.maxPolls ∧
      (∀ k, k + 1 < 1 → rotate16 (w k) ≠ s.params.magic) ∧ rotate16 (w (1 - 1)) = s.params.magic ∧
      rotate16 (w 1) ≠ s.params.testPattern :=
  ⟨start_quiet _ _, rfl, params_wf, by decide, by decide, fun k hk => absurd hk (by omega), by decide +kernel⟩

/-- Vector IN6 for the first clause, IN7 for the second. -/
theorem witness_InitReportsNormalMismatch :
    let s := start 0x18000000#32 [0xBEADFEED#32, 0x56781234#32, 0xBEADFEED#32]
    let s' := start 0x18000000#32 [0xBEADFEED#32, 0x56781234#32, 0xFEEDBEAD#32, 0x56781234#32]
    let w : Nat → Word := fun k => levelsWord s.deviceLevel (32 * k)
    let w' : Nat → Word := fun k => levelsWord s'.deviceLevel (32 * k)
    (Quiet s ∧ s.params.readFraming = .rsf ∧ s.params.Wf ∧ 1 ≤ 1 ∧ 1 ≤ s.params.maxPolls) ∧
      (rotate16 (w (1 - 1)) = s.params.magic ∧ rotate16 (w 1) = s.params.testPattern ∧ w (1 + 1) ≠ s.params.magic) ∧
      (Quiet s' ∧ s'.params.readFraming = .rsf ∧ s'.params.Wf) ∧
      (rotate16 (w' (1 - 1)) = s'.params.magic ∧ rotate16 (w' 1) = s'.params.testPattern ∧ w' (1 + 1) = s'.params.magic ∧
        w' (1 + 2) ≠ s'.params.testPattern) :=
  ⟨⟨start_quiet _ _, rfl, params_wf, by decide⟩, by decide +kernel, ⟨start_quiet _ _, rfl, params_wf⟩, by decide +kernel⟩

theorem witness_InitAlwaysEndsWithinPolls : Quiet idle ∧ idle.params.readFraming = .rsf ∧ idle.params.Wf :=
  ⟨start_quiet _ _, rfl, params_wf⟩

/-- An operation other than `INIT`. -/
theorem witness_OnlyInitDrivesPower : (∃ t, exec (.wr8 0 1 0xAB#32) idle = .next t) ∧ Instr.wr8 0 1 0xAB#32 ≠ .init :=
  ⟨⟨_, rfl⟩, by decide⟩

theorem witness_OnlyBackplaneAndInitChangeWindow : ∃ t, exec (.rd32 0 0x14) idle = .next t := ⟨_, rfl⟩

/-- `DATA.WR` is neither of the two that store. -/
theorem witness_OnlyReadsStoreIntoBuffers :
    (∃ t, exec (.dataWr 0 1) idle = .next t) ∧ (∀ a buf n, Instr.dataWr 0 1 ≠ .bpRdBlk a buf n) ∧
      ∀ wbuf n, Instr.dataWr 0 1 ≠ .dataRd wbuf n := ⟨⟨_, rfl⟩, by simp, by simp⟩

theorem witness_RejectedOperationChangesNothing :
    ∃ t e, exec (.bpRd16 0x18002345#32) idle = .next t ∧ t.err = some e ∧ e.cls = .precondition :=
  ⟨_, ⟨.precondition, .misaligned, .address 0x18002345#32⟩, rfl, rfl, rfl⟩

theorem witness_OperationsOnlyExtendTrace : ∃ t, exec (.tWrite [1#32]) idle = .next t := ⟨_, rfl⟩

end Sys2Proof.Tests
end

section
/-! PROOFS. Every operation's body is made of a few parts: the two transport calls, and updates of `WINDOW`, `POLLCNT`, the power line and the
host's buffers. What every part keeps, every operation keeps: `PartsKeep.bodyOf` packages that walk over the operations once. -/

namespace Sys2Proof.Machine

/-- Every part that operations are made of keeps `P`. -/
structure PartsKeep (P : State → Prop) : Prop where
  tx : ∀ ws s, P s → P (txWords ws s)
  rx : ∀ n s, P s → P (rxWords n s).1
  window : ∀ p a s, s.params = p → P s → P { s with window := windowOf p a }
  initCache : ∀ s, P s → P (initCache s)
  powerPulse : ∀ s, P s → P (powerPulse s)
  polled : ∀ s, P s → P { s with pollcnt := s.pollcnt + 1 }
  storeBytes : ∀ k vs s, P s → P { s with bytes := Memory.writeList s.bytes k vs }
  storeWords : ∀ k vs s, P s → P { s with words := Memory.writeList s.words k vs }

namespace PartsKeep

variable {P : State → Prop} (h : PartsKeep P)
include h

/-! ### Transactions -/

theorem readTransaction (f a len : Nat) (s : State) (hs : P s) : P (readTransaction f a len s).1 := h.rx _ _ (h.tx _ s hs)

theorem writeTransaction (f a len : Nat) (payload : List Word) (s : State) (hs : P s) : P (writeTransaction f a len payload s) :=
  h.tx _ s hs

theorem memRead (f a n : Nat) (s : State) (hs : P s) : P (memRead f a n s).1 := h.readTransaction f a n s hs

theorem memWrite (f a n : Nat) (v : Word) (s : State) (hs : P s) : P (memWrite f a n v s) := h.writeTransaction f a n [v] s hs

theorem memReadRotated (a : Nat) (s : State) (hs : P s) : P (memReadRotated a s).1 := h.rx 1 _ (h.tx _ s hs)

theorem memWriteRotated (a : Nat) (v : Word) (s : State) (hs : P s) : P (memWriteRotated a v s) := h.tx _ s hs

/-! ### The window unit -/

theorem writeWindowByte (reg : Nat) (new cached : Byte) (s : State) (hs : P s) : P (writeWindowByte reg new cached s) := by
  unfold Machine.writeWindowByte
  split
  · exact hs
  · exact h.memWrite _ _ _ _ s hs

theorem setWindow (a : Word) (s : State) (hs : P s) : P (setWindow a s) := by
  have kept := h.writeWindowByte s.params.regWinLow (lowByte (windowOf s.params a)) (lowByte s.window) _
    (h.writeWindowByte s.params.regWinMid (midByte (windowOf s.params a)) (midByte s.window) _
      (h.writeWindowByte s.params.regWinHigh (topByte (windowOf s.params a)) (topByte s.window) s hs))
  refine h.window s.params a _ ?_ kept
  exact ((writeWindowByte_linkOnly _ _ _ s).trans ((writeWindowByte_linkOnly _ _ _ _).trans (writeWindowByte_linkOnly _ _ _ _))).params

/-! ### Bodies behind checks -/

omit h in
theorem checked (check : Option ErrRecord) {body : State → State × Completion} (hb : ∀ s, P s → P (body s).1) (s : State) (hs : P s) :
    P (checked check body s).1 := by
  cases check with
  | some e => exact hs
  | none => exact hb s hs

theorem readFunction (f a n : Nat) (s : State) (hs : P s) : P (readFunction f a n s).1 := by
  refine checked _ (fun s hs => ?_) s hs
  exact h.memRead f a n s hs

theorem writeFunction (f a n : Nat) (v : Word) (s : State) (hs : P s) : P (writeFunction f a n v s).1 := by
  refine checked _ (fun s hs => ?_) s hs
  exact h.memWrite f a n v s hs

theorem readBackplane (a : Word) (n : Nat) (s : State) (hs : P s) : P (readBackplane a n s).1 := by
  refine checked _ (fun s hs => ?_) s hs
  exact h.memRead _ _ n _ (h.setWindow a s hs)

theorem writeBackplane (a : Word) (n : Nat) (v : Word) (s : State) (hs : P s) : P (writeBackplane a n v s).1 := by
  refine checked _ (fun s hs => ?_) s hs
  exact h.memWrite _ _ n v _ (h.setWindow a s hs)

/-! ### Blocks -/

theorem readChunks (cs : List (Nat × Nat)) (dst : Nat) (s : State) (hs : P s) : P (readChunks cs dst s) := by
  induction cs generalizing dst s with
  | nil => exact hs
  | cons x cs ih => exact ih _ _ (h.storeBytes _ _ _ (h.readTransaction _ _ _ _ (h.setWindow _ s hs)))

theorem writeChunks (cs : List (Nat × Nat)) (src : Nat) (s : State) (hs : P s) : P (writeChunks cs src s) := by
  induction cs generalizing src s with
  | nil => exact hs
  | cons x cs ih => exact ih _ _ (h.writeTransaction _ _ _ _ _ (h.setWindow _ s hs))

/-! ### The bring-up handshake -/

omit h in
theorem andThen {r : Handshake} {next : State → Handshake} (hr : P r.1) (hn : ∀ s, P s → P (next s).1) : P (andThen r next).1 := by
  unfold Machine.andThen
  split
  · exact hr
  · exact hn _ hr

omit h in
theorem expectValue (want : Word) (cause : ErrCause) {r : State × Word} (hr : P r.1) : P (expectValue want cause r).1 := by
  unfold Machine.expectValue
  split <;> exact hr

theorem pollLoop (fuel : Nat) (s : State) (hs : P s) : P (pollLoop fuel s).1 := by
  induction fuel generalizing s with
  | zero => exact hs
  | succ fuel ih =>
    have hp : P (pollOnce s).1 := h.polled _ (h.memReadRotated _ s hs)
    simp only [Machine.pollLoop]
    split
    · exact hp
    · split
      · exact hp
      · exact ih _ hp

theorem handshake (s : State) (hs : P s) : P (handshake s).1 := by
  refine andThen (andThen (andThen (andThen ?poll ?swapped) ?configured) ?magic) ?pattern
  case poll => exact h.pollLoop _ _ (h.powerPulse _ (h.initCache s hs))
  case swapped => exact fun s hs => expectValue _ _ (h.memReadRotated _ _ (h.memWriteRotated _ _ s hs))
  case configured => exact fun s hs => h.memWriteRotated _ _ s hs
  case magic => exact fun s hs => expectValue _ _ (h.memRead _ _ 4 s hs)
  case pattern => exact fun s hs => expectValue _ _ (h.memRead _ _ 4 s hs)

/-! ### Every operation -/

/-- What every part keeps, the body of every operation keeps. -/
theorem bodyOf (i : Instr) (s : State) (hs : P s) : P (bodyOf i s).1 := by
  cases i with
  | tWrite ws => exact h.tx ws s hs
  | tRead n => exact h.rx n s hs
  | tFlush | cwDec | rot16 => exact hs
  | cwEnc w i f a l => exact checked _ (fun _ hs => hs) s hs
  | rd8 f a | rd16 f a | rd32 f a => exact h.readFunction f a _ s hs
  | wr8 f a v | wr16 f a v | wr32 f a v => exact h.writeFunction f a _ v s hs
  | rd32s a => refine checked _ (fun s hs => ?_) s hs; exact h.memReadRotated a s hs
  | wr32s a v => refine checked _ (fun s hs => ?_) s hs; exact h.memWriteRotated a v s hs
  | setWin a => exact h.setWindow a s hs
  | bpRd8 a | bpRd16 a | bpRd32 a => exact h.readBackplane a _ s hs
  | bpWr8 a v | bpWr16 a v | bpWr32 a v => exact h.writeBackplane a _ v s hs
  | bpRdBlk a buf n => exact checked _ (fun s hs => h.readChunks _ buf s hs) s hs
  | bpWrBlk a buf n => exact checked _ (fun s hs => h.writeChunks _ buf s hs) s hs
  | dataRd wbuf n => exact checked _ (fun s hs => h.storeWords wbuf _ _ (h.readTransaction _ 0 n s hs)) s hs
  | dataWr wbuf m => exact checked _ (fun s hs => h.writeTransaction _ 0 _ _ s hs) s hs
  | init => exact h.handshake s hs

end PartsKeep

end Sys2Proof.Machine
end

section
/-! PROOFS. What has happened on the lines stays happened: no part of an operation takes an event off the log, in any state and under any
framing (00_scope.md R13, 20_memory.md R66). -/

namespace Sys2Proof.Machine

/-- The log of `t` is that of `s` with later events, if any, before it: the log holds the latest event first. -/
def LogExtends (s t : State) : Prop := s.log <:+ t.log

theorem LogExtends.refl (s : State) : LogExtends s s := List.suffix_refl _

theorem LogExtends.trans {s t u : State} (h : LogExtends s t) (k : LogExtends t u) : LogExtends s u := List.IsSuffix.trans h k

theorem LogExtends.of_log_eq {s t : State} (h : t.log = s.log) : LogExtends s t := by rw [LogExtends, h]

/-- On the trace, which is in time order, the later events stand after. -/
theorem LogExtends.trace {s t : State} (h : LogExtends s t) : ∃ es, t.trace = s.trace ++ es := by
  obtain ⟨later, hlog⟩ := h
  exact ⟨later.reverse, trace_of_log _ (by rw [List.reverse_reverse, hlog])⟩

/-! ### Line actions -/

theorem emit_logExtends (e : Event) (s : State) : LogExtends s (emit e s) := List.suffix_cons e s.log

theorem clockHigh_logExtends (s : State) : LogExtends s (clockHigh s) := by
  unfold clockHigh; split
  · exact .refl s
  · exact emit_logExtends .rise { s with clk := true }

theorem clockLow_logExtends (s : State) : LogExtends s (clockLow s) := by
  unfold clockLow; split
  · exact emit_logExtends .fall { s with clk := false }
  · exact .refl s

theorem takeLine_logExtends (s : State) : LogExtends s (takeLine s) := by
  unfold takeLine; split
  · exact .refl s
  · exact emit_logExtends .take { s with dioOe := true }

theorem releaseLine_logExtends (s : State) : LogExtends s (releaseLine s) := by
  unfold releaseLine; split
  · exact emit_logExtends .release { s with dioOe := false }
  · exact .refl s

theorem driveLine_logExtends (b : Bool) (s : State) : LogExtends s (driveLine b s) := by
  unfold driveLine; split
  · exact emit_logExtends (.drive b) { s with dioOut := b }
  · exact .of_log_eq rfl

theorem sampleShift_logExtends (s : State) : LogExtends s (sampleShift s) :=
  emit_logExtends (.sample s.lineLevel) { s with dioIn := s.dioIn.tail, samples := s.samples + 1 }

theorem setPower_logExtends (b : Bool) (s : State) : LogExtends s (setPower b s) := emit_logExtends (.pwr b) { s with pwr := b }

theorem waitAtLeast_logExtends (least : Nat) (s : State) : LogExtends s (waitAtLeast least s) :=
  emit_logExtends (.wait (s.waitLength least)) { s with waitIn := s.waitIn.tail, waits := s.waits + 1 }

theorem powerPulse_logExtends (s : State) : LogExtends s (powerPulse s) :=
  (setPower_logExtends false s).trans ((waitAtLeast_logExtends _ _).trans
    ((setPower_logExtends true _).trans (waitAtLeast_logExtends _ _)))

/-! ### The transport -/

theorem writeBit_logExtends (s : State) : LogExtends s (writeBit s) :=
  (driveLine_logExtends _ s).trans ((clockHigh_logExtends _).trans (clockLow_logExtends _))

theorem writeBits_logExtends (k : Nat) (s : State) : LogExtends s (writeBits k s) := by
  induction k generalizing s with
  | zero => exact .refl s
  | succ k ih => exact (writeBit_logExtends s).trans (ih _)

theorem writeWord_logExtends (w : Word) (s : State) : LogExtends s (writeWord w s) :=
  LogExtends.trans (s := s) (writeBits_logExtends 32 { s with shreg := w, bitcnt := 0 }) (.of_log_eq (countWord_log _))

theorem writeWords_logExtends (ws : List Word) (s : State) : LogExtends s (writeWords ws s) := by
  induction ws generalizing s with
  | nil => exact .refl s
  | cons w ws ih => exact (writeWord_logExtends w s).trans (ih _)

theorem txWords_logExtends (ws : List Word) (s : State) : LogExtends s (txWords ws s) := by
  cases ws with
  | nil => exact .refl s
  | cons w ws =>
    exact (takeLine_logExtends s).trans ((writeWords_logExtends (w :: ws) { takeLine s with wordcnt := 0 }).trans (releaseLine_logExtends _))

theorem readBit_logExtends (s : State) : LogExtends s (readBit s) := by
  unfold readBit
  split
  · exact (clockHigh_logExtends s).trans ((sampleShift_logExtends _).trans (clockLow_logExtends _))
  · exact (sampleShift_logExtends s).trans ((clockLow_logExtends _).trans (clockHigh_logExtends _))
  · exact (sampleShift_logExtends s).trans ((clockHigh_logExtends _).trans (clockLow_logExtends _))

theorem readBits_logExtends (k : Nat) (s : State) : LogExtends s (readBits k s) := by
  induction k generalizing s with
  | zero => exact .refl s
  | succ k ih => exact (readBit_logExtends s).trans (ih _)

theorem readWord_logExtends (s : State) : LogExtends s (readWord s) :=
  LogExtends.trans (s := s) (readBits_logExtends 32 { s with shreg := 0, bitcnt := 0 }) (.of_log_eq (countWord_log _))

theorem readWords_logExtends (n : Nat) (s : State) : LogExtends s (readWords n s).1 := by
  induction n generalizing s with
  | zero => exact .refl s
  | succ n ih => exact (readWord_logExtends s).trans (ih _)

theorem enterRead_logExtends (s : State) : LogExtends s (enterRead s) := by
  unfold enterRead; split
  · exact clockHigh_logExtends s
  · exact .refl s

theorem leaveRead_logExtends (s : State) : LogExtends s (leaveRead s) := by
  unfold leaveRead; split
  · exact clockLow_logExtends s
  · exact .refl s

theorem rxWords_logExtends (n : Nat) (s : State) : LogExtends s (rxWords n s).1 := by
  cases n with
  | zero => exact .refl s
  | succ n =>
    exact (enterRead_logExtends s).trans
      ((readWords_logExtends (n + 1) { enterRead s with wordcnt := 0 }).trans (leaveRead_logExtends _))

/-! ### Every operation -/

theorem partsKeep_logExtends (s : State) : PartsKeep (LogExtends s) where
  tx ws _ h := h.trans (txWords_logExtends ws _)
  rx n _ h := h.trans (rxWords_logExtends n _)
  window _ _ _ _ h := h
  initCache _ h := h
  powerPulse _ h := h.trans (powerPulse_logExtends _)
  polled _ h := h
  storeBytes _ _ _ h := h
  storeWords _ _ _ h := h

theorem bodyOf_logExtends (i : Instr) (s : State) : LogExtends s (bodyOf i s).1 :=
  (partsKeep_logExtends s).bodyOf i s (.refl s)

/-- Settles O60: acceptance and report leave the trace as it is, and the body only adds to it. -/
theorem operationsOnlyExtendTrace : Obligations.OperationsOnlyExtendTrace := by
  intro i s t h
  obtain ⟨-, rfl⟩ := exec_cases h
  rw [(report_only _ _).trace]
  exact (bodyOf_logExtends i (accept i s)).trace

end Sys2Proof.Machine
end

section
/-! PROOFS. Every error an operation reports has a cause some rule raises, and that cause's class (60_exceptions.md R280, R288). -/

namespace Sys2Proof.Machine

/-- An error record of a cause that some rule raises, with its cause's class. -/
def RaisedByRule (e : ErrRecord) : Prop := e.cls = errClassOf e.cause ∧ e.cause ≠ .transportFailure

/-- If there is an error record, a rule raises it. -/
def RuleErrors (o : Option ErrRecord) : Prop := ∀ e, o = some e → RaisedByRule e

theorem ruleErrors_none : RuleErrors none := fun _ h => nomatch h

theorem ruleErrors_errRecord {cause : ErrCause} (info : ErrInfo) (h : cause ≠ .transportFailure) :
    RuleErrors (some (errRecord cause info)) := by
  rintro e ⟨⟩
  exact ⟨rfl, h⟩

/-- A condition that holds, or the error record of its cause. -/
theorem ruleErrors_ite {c : Prop} [Decidable c] {cause : ErrCause} (info : ErrInfo) (h : cause ≠ .transportFailure) :
    RuleErrors (if c then none else some (errRecord cause info)) := by
  split
  · exact ruleErrors_none
  · exact ruleErrors_errRecord info h

/-! ### The operand checks -/

theorem ruleErrors_firstOf {a b : Option ErrRecord} (ha : RuleErrors a) (hb : RuleErrors b) : RuleErrors (firstOf a b) := by
  cases a with
  | some e => exact ha
  | none => exact hb

theorem ruleErrors_checkField (v max : Nat) : RuleErrors (checkField v max) := ruleErrors_ite _ (by decide)

theorem ruleErrors_checkCommand (w i f a l : Nat) : RuleErrors (checkCommand w i f a l) :=
  ruleErrors_firstOf (ruleErrors_checkField w _) (ruleErrors_firstOf (ruleErrors_checkField i _)
    (ruleErrors_firstOf (ruleErrors_checkField f _) (ruleErrors_firstOf (ruleErrors_checkField a _) (ruleErrors_checkField l _))))

theorem ruleErrors_checkRead (f a : Nat) : RuleErrors (checkRead f a) :=
  ruleErrors_firstOf (ruleErrors_checkField f _) (ruleErrors_checkField a _)

theorem ruleErrors_checkWrite (f a n : Nat) (v : Word) : RuleErrors (checkWrite f a n v) :=
  ruleErrors_firstOf (ruleErrors_checkRead f a) (ruleErrors_checkField _ _)

theorem ruleErrors_checkAligned (n : Nat) (a : Word) : RuleErrors (checkAligned n a) := ruleErrors_ite _ (by decide)

theorem ruleErrors_checkBackplaneWrite (n : Nat) (a v : Word) : RuleErrors (checkBackplaneWrite n a v) :=
  ruleErrors_firstOf (ruleErrors_checkAligned n a) (ruleErrors_checkField _ _)

theorem ruleErrors_checkBlock (a : Word) (n : Nat) : RuleErrors (checkBlock a n) :=
  ruleErrors_firstOf (ruleErrors_ite _ (by decide)) (ruleErrors_ite _ (by decide))

theorem ruleErrors_checkLength (n max : Nat) : RuleErrors (checkLength n max) := ruleErrors_ite _ (by decide)

/-! ### The bring-up handshake -/

theorem ruleErrors_andThen {r : Handshake} {next : State → Handshake} (hr : RuleErrors r.2) (hn : ∀ s, RuleErrors (next s).2) :
    RuleErrors (andThen r next).2 := by
  unfold andThen
  split
  · exact hr
  · exact hn _

theorem ruleErrors_expectValue (want : Word) {cause : ErrCause} (r : State × Word) (h : cause ≠ .transportFailure) :
    RuleErrors (expectValue want cause r).2 := by
  unfold expectValue
  split
  · exact ruleErrors_none
  · exact ruleErrors_errRecord _ h

theorem ruleErrors_pollLoop (fuel : Nat) (s : State) : RuleErrors (pollLoop fuel s).2 := by
  induction fuel generalizing s with
  | zero => exact ruleErrors_none
  | succ fuel ih =>
    simp only [pollLoop]
    split
    · exact ruleErrors_none
    · split
      · exact ruleErrors_errRecord _ (by decide)
      · exact ih _

theorem ruleErrors_handshake (s : State) : RuleErrors (handshake s).2 := by
  refine ruleErrors_andThen (ruleErrors_andThen (ruleErrors_andThen (ruleErrors_andThen ?poll ?swapped) ?configured) ?magic) ?pattern
  case poll => exact ruleErrors_pollLoop _ _
  case swapped => exact fun _ => ruleErrors_expectValue _ _ (by decide)
  case configured => exact fun _ => ruleErrors_none
  case magic => exact fun _ => ruleErrors_expectValue _ _ (by decide)
  case pattern => exact fun _ => ruleErrors_expectValue _ _ (by decide)

/-! ### Every operation -/

/-- The error record a completion carries. -/
def Completion.error : Completion → Option ErrRecord
  | .raised e => some e
  | .done _ | .doneNothing => none

theorem report_err (c : Completion) (s : State) : (report c s).err = c.error := by cases c <;> rfl

theorem handshakeCompletion_error (o : Option ErrRecord) : (handshakeCompletion o).error = o := by cases o <;> rfl

/-- A body that raises nothing reports only what its checks reject. -/
theorem ruleErrors_checked {check : Option ErrRecord} {body : State → State × Completion} {s : State} (hc : RuleErrors check)
    (hb : (body s).2.error = none) : RuleErrors (checked check body s).2.error := by
  cases check with
  | some e => exact hc
  | none =>
    rw [checked_of_none body s rfl, hb]
    exact ruleErrors_none

theorem ruleErrors_readFunction (f a n : Nat) (s : State) : RuleErrors (readFunction f a n s).2.error :=
  ruleErrors_checked (ruleErrors_checkRead f a) rfl

theorem ruleErrors_writeFunction (f a n : Nat) (v : Word) (s : State) : RuleErrors (writeFunction f a n v s).2.error :=
  ruleErrors_checked (ruleErrors_checkWrite f a n v) rfl

theorem ruleErrors_readBackplane (a : Word) (n : Nat) (s : State) : RuleErrors (readBackplane a n s).2.error :=
  ruleErrors_checked (ruleErrors_checkAligned n a) rfl

theorem ruleErrors_writeBackplane (a : Word) (n : Nat) (v : Word) (s : State) : RuleErrors (writeBackplane a n v s).2.error :=
  ruleErrors_checked (ruleErrors_checkBackplaneWrite n a v) rfl

theorem ruleErrors_bodyOf (i : Instr) (s : State) : RuleErrors (bodyOf i s).2.error := by
  cases i with
  | tWrite | tRead | tFlush | cwDec | rot16 | setWin => exact ruleErrors_none
  | cwEnc w i f a l => exact ruleErrors_checked (ruleErrors_checkCommand w i f a l) rfl
  | rd8 f a | rd16 f a | rd32 f a => exact ruleErrors_readFunction f a _ s
  | wr8 f a v | wr16 f a v | wr32 f a v => exact ruleErrors_writeFunction f a _ v s
  | rd32s a | wr32s a v => exact ruleErrors_checked (ruleErrors_checkField a _) rfl
  | bpRd8 a | bpRd16 a | bpRd32 a => exact ruleErrors_readBackplane a _ s
  | bpWr8 a v | bpWr16 a v | bpWr32 a v => exact ruleErrors_writeBackplane a _ v s
  | bpRdBlk a buf n | bpWrBlk a buf n => exact ruleErrors_checked (ruleErrors_checkBlock a n) rfl
  | dataRd wbuf n | dataWr wbuf n => exact ruleErrors_checked (ruleErrors_checkLength n _) rfl
  | init => exact (handshakeCompletion_error _).symm ▸ ruleErrors_handshake s

end Sys2Proof.Machine
end

section
/-! PROOFS. Every step keeps the invariant. Between acceptance and report the relation `Works s t` holds of the state `s` the operation started in:
what has happened since keeps the wire discipline and has left the wire idle. A reset cuts such work after any event (70_reset_and_hazards.md R345). -/

namespace Sys2Proof.Machine

/-- An operation accepted in `s` has come to `t`: its events so far keep the wire discipline and have left the wire idle, and the state is still one
the invariant allows, but for the host port. -/
structure Works (s t : State) : Prop where
  params : t.params = s.params
  resets : t.resets = s.resets
  framing : t.params.readFraming = .rsf
  clk : t.clk = false
  oe : t.dioOe = false
  window : WindowLegal t
  bitcnt : t.bitcnt.toNat ≤ 32
  bytes : Memory.wf t.bytes
  words : Memory.wf t.words
  events : ∃ es, t.trace = s.trace ++ es ∧ wireRun Wire.idle es = some Wire.idle

theorem wireRun_idle_append {es fs : List Event} (he : wireRun Wire.idle es = some Wire.idle) : wireRun Wire.idle (es ++ fs) = wireRun Wire.idle fs := by
  rw [wireRun_append, he, Option.bind_some]

/-- Acceptance: no event so far. -/
theorem Inv.works_accept {s : State} (h : Inv s) (i : Instr) : Works s (accept i s) := by
  obtain ⟨-, hclk, hoe, -⟩ := h.quiet
  exact ⟨rfl, rfl, h.framing, hclk, hoe, h.window, h.bitcnt, h.bytes, h.words, [], (List.append_nil _).symm, rfl⟩

/-! ### The parts of an operation -/

/-- `BITCNT` on leaving the transport loops (10_state.md R27). -/
theorem leaveLoops_bitcnt_le (s : State) : (leaveLoops s).bitcnt.toNat ≤ 32 := by
  rw [leaveLoops_bitcnt, BitVec.toNat_ofNat]
  omega

theorem txWords_bitcnt_le (ws : List Word) {s : State} (h : s.bitcnt.toNat ≤ 32) : (txWords ws s).bitcnt.toNat ≤ 32 := by
  cases ws with
  | nil => exact h
  | cons w ws => exact leaveLoops_bitcnt_le _

theorem rxWords_bitcnt_le (n : Nat) {s : State} (h : s.bitcnt.toNat ≤ 32) : (rxWords n s).1.bitcnt.toNat ≤ 32 := by
  cases n with
  | zero => exact h
  | succ n => exact leaveLoops_bitcnt_le _

/-- Disciplined traffic on the link. -/
theorem Works.link {s t u : State} {es : List Event} {n : Nat} (h : Works s t) (l : Link t u es n)
    (hes : wireRun Wire.idle es = some Wire.idle) (hbit : u.bitcnt.toNat ≤ 32) : Works s u where
  params := l.rest.params.trans h.params
  resets := l.rest.resets.trans h.resets
  framing := by rw [l.rest.params]; exact h.framing
  clk := l.clk
  oe := l.oe
  window := by rw [WindowLegal, l.rest.window, l.rest.params]; exact h.window
  bitcnt := hbit
  bytes := by rw [l.rest.bytes]; exact h.bytes
  words := by rw [l.rest.words]; exact h.words
  events := by
    obtain ⟨fs, htrace, hfs⟩ := h.events
    exact ⟨fs ++ es, by rw [l.exchange.1, htrace, List.append_assoc], by rw [wireRun_idle_append hfs, hes]⟩

theorem Works.powerPulse {s t : State} (h : Works s t) : Works s (powerPulse t) where
  params := h.params
  resets := h.resets
  framing := h.framing
  clk := h.clk
  oe := h.oe
  window := h.window
  bitcnt := h.bitcnt
  bytes := h.bytes
  words := h.words
  events := by
    obtain ⟨fs, htrace, hfs⟩ := h.events
    obtain ⟨t1, t2, -, -, hp⟩ := powerPulse_trace t
    exact ⟨fs ++ powerEvents t1 t2, by rw [hp, htrace, List.append_assoc], by rw [wireRun_idle_append hfs]; rfl⟩

/-- Every part of an operation keeps the relation. -/
theorem partsKeep_works (s : State) : PartsKeep (Works s) where
  tx ws t h := h.link (txWords_link ws t h.clk h.oe) (wireRun_txEvents ws) (txWords_bitcnt_le ws h.bitcnt)
  rx n t h := h.link (rxWords_link n t h.clk h.oe h.framing).1 (wireRun_rxEvents _) (rxWords_bitcnt_le n h.bitcnt)
  window _ a _ hp h := { h with window := .inr (hp ▸ windowOf_and_mask _ a) }
  initCache _ h := { h with window := .inl rfl }
  powerPulse _ h := h.powerPulse
  polled _ h := { h with }
  storeBytes k vs t h := { h with bytes := Memory.wf_writeList vs t.bytes k h.bytes }
  storeWords k vs t h := { h with words := Memory.wf_writeList vs t.words k h.words }

theorem Inv.works_bodyOf {s : State} (h : Inv s) (i : Instr) : Works s (bodyOf i (accept i s)).1 :=
  (partsKeep_works s).bodyOf i _ (h.works_accept i)

/-! ### An operation -/

/-- The report ends the work. -/
theorem Works.inv_report {s t : State} {c : Completion} (hs : Inv s) (h : Works s t) (hc : RuleErrors c.error) : Inv (report c t) := by
  have r := report_only c t
  have hparams : (report c t).params = s.params := r.params.trans h.params
  exact {
    params := by rw [hparams]; exact hs.params
    framing := by rw [hparams]; exact hs.framing
    quiet := ⟨report_busy c t, r.clk.trans h.clk, r.dioOe.trans h.oe, report_seq c t⟩
    window := by rw [WindowLegal, r.window, r.params]; exact h.window
    bitcnt := by rw [r.bitcnt]; exact h.bitcnt
    bytes := by rw [r.bytes]; exact h.bytes
    words := by rw [r.words]; exact h.words
    wire := by
      obtain ⟨es, htrace, hes⟩ := h.events
      rw [WireDisciplined, r.resets, r.trace, h.resets, htrace]
      exact .work hs.wire hes
    err := by rw [report_err]; exact hc }

theorem exec_keeps_inv {i : Instr} {s t : State} (hs : Inv s) (h : exec i s = .next t) : Inv t := by
  obtain ⟨-, rfl⟩ := exec_cases h
  exact (hs.works_bodyOf i).inv_report hs (ruleErrors_bodyOf i _)

/-! ### The reset input -/

/-- A reset of a block that has done disciplined work `fs` since a state of the invariant, wherever it cuts that work. -/
theorem resetBlock_inv {s t : State} {fs : List Event} {w : Wire} (hs : Inv s) (hparams : t.params = s.params) (hbytes : Memory.wf t.bytes)
    (hwords : Memory.wf t.words) (hresets : t.resets = s.resets) (htrace : t.trace = s.trace ++ fs) (hrun : wireRun Wire.idle fs = some w)
    (hclk : t.clk = w.clk) (hoe : t.dioOe = w.oe) : Inv (resetBlock t) where
  params := by rw [resetBlock_params, hparams]; exact hs.params
  framing := by rw [resetBlock_params, hparams]; exact hs.framing
  quiet := resetBlock_quiet t
  window := .inl rfl
  bitcnt := Nat.zero_le _
  bytes := hbytes
  words := hwords
  wire := by
    rw [WireDisciplined, resetBlock_resets, resetBlock_trace, hresets, htrace, hclk, hoe]
    exact .reset t.pwr hs.wire hrun
  err := ruleErrors_none

/-- A reset between two operations cuts nothing. -/
theorem resetBlock_keeps_inv {s : State} (hs : Inv s) : Inv (resetBlock s) := by
  obtain ⟨-, hclk, hoe, -⟩ := hs.quiet
  exact resetBlock_inv (w := Wire.idle) hs rfl hs.bytes hs.words rfl (List.append_nil _).symm rfl hclk hoe

/-- What an operation adds to the trace keeps the wire discipline. -/
theorem exec_events {i : Instr} {s t : State} (hs : Inv s) (h : exec i s = .next t) :
    ∃ es, t.trace = s.trace ++ es ∧ wireRun Wire.idle es = some Wire.idle := by
  obtain ⟨-, rfl⟩ := exec_cases h
  rw [(report_only _ _).trace]
  exact (hs.works_bodyOf i).events

theorem execThenReset_keeps_inv {i : Instr} {events stores : Nat} {s t : State} (hs : Inv s)
    (h : execThenReset i events stores s = .next t) : Inv t := by
  obtain ⟨u, hu, rfl⟩ := execThenReset_cases h
  obtain ⟨es, htrace, hes⟩ := exec_events hs hu
  obtain ⟨w, hw⟩ := wireRun_take hes events
  obtain ⟨-, hclk, hoe, -⟩ := hs.quiet
  have hcut : (u.trace.drop s.trace.length).take events = es.take events := by rw [htrace, List.drop_left]
  have only := happenAll_only (es.take events) s
  obtain ⟨lclk, loe, -, -⟩ := happenAll_lines (es.take events) s
  obtain ⟨wclk, woe⟩ := wireRun_lines hw
  rw [stopped, hcut]
  exact resetBlock_inv hs only.params (bytesUntil_wf i _ stores s hs.bytes) (wordsUntil_wf i _ stores s hs.words) only.resets
    (happenAll_trace _ s) hw (by rw [← wclk]; exact lclk.trans (by rw [hclk]; rfl)) (by rw [← woe]; exact loe.trans (by rw [hoe]; rfl))

/-! ### A step -/

/-- The invariant does not speak of what the host presents next. -/
theorem Inv.with_inputs {s : State} (h : Inv s) (rest : List HostInput) : Inv { s with inputs := rest } := { h with }

/-- Everything a step can do when it answers a next state. -/
theorem step_cases {s t : State} (h : step s = .next t) :
    (s.inputs = [] ∧ t = s) ∨
    (∃ rest, s.inputs = .reset :: rest ∧ t = resetBlock { s with inputs := rest }) ∨
    (∃ record rest i, s.inputs = .request record :: rest ∧ decode record = .ok i ∧ exec i { s with inputs := rest } = .next t) ∨
    ∃ record events stores rest i, s.inputs = .requestThenReset record events stores :: rest ∧ decode record = .ok i ∧
      execThenReset i events stores { s with inputs := rest } = .next t := by
  unfold step at h
  split at h
  · next hin => exact .inl ⟨hin, (Host.Outcome.next.inj h).symm⟩
  · next rest hin => exact .inr (.inl ⟨rest, hin, (Host.Outcome.next.inj h).symm⟩)
  · next record rest hin =>
    split at h
    · next i hdec => exact .inr (.inr (.inl ⟨record, rest, i, hin, hdec, h⟩))
    · cases h
  · next record events stores rest hin =>
    split at h
    · next i hdec => exact .inr (.inr (.inr ⟨record, events, stores, rest, i, hin, hdec, h⟩))
    · cases h

/-- Settles O10, by the four things a step can do: wait, reset, run an operation, or run one that the reset input stops. -/
theorem stepKeepsInvariant : Obligations.StepKeepsInvariant := by
  intro s t hs h
  rcases step_cases h with ⟨-, rfl⟩ | ⟨rest, -, rfl⟩ | ⟨-, rest, i, -, -, hexec⟩ | ⟨-, events, stores, rest, i, -, -, hexec⟩
  · exact hs
  · exact resetBlock_keeps_inv (hs.with_inputs rest)
  · exact exec_keeps_inv (hs.with_inputs rest) hexec
  · exact execThenReset_keeps_inv (hs.with_inputs rest) hexec

end Sys2Proof.Machine
end

section
/-! PROOFS. What an operation changes off the link: `WINDOW`, the power step's registers and the host's buffers, each only by the operations the spec
names (10_state.md R24, R25, R29, R33). The relation `Frame i s t` says it for the operation `i`; every part of the operation keeps it. -/

namespace Sys2Proof.Machine

/-- The operations that may change `WINDOW`: `SETWIN`, the backplane operations and `INIT` (10_state.md R25, 45_datapath.md R241). -/
def movesWindow : Instr → Bool
  | .setWin _ | .bpRd8 _ | .bpRd16 _ | .bpRd32 _ | .bpWr8 _ _ | .bpWr16 _ _ | .bpWr32 _ _ | .bpRdBlk _ _ _ | .bpWrBlk _ _ _ | .init => true
  | _ => false

/-- What the operation `i` may have changed off the link between `s` and `t`. -/
structure Frame (i : Instr) (s t : State) : Prop where
  params : t.params = s.params
  inputs : t.inputs = s.inputs
  outside : i ≠ .init → KeepsOutside s t
  windowKept : movesWindow i = false → t.window = s.window
  windowSet : i ≠ .init → t.window = s.window ∨ ∃ a, t.window = windowOf s.params a
  bytes : (∀ a buf n, i ≠ .bpRdBlk a buf n) → t.bytes = s.bytes
  words : (∀ wbuf n, i ≠ .dataRd wbuf n) → t.words = s.words

/-- Nothing off the link changed. -/
theorem KeepsOutside.frame {s t : State} (h : KeepsOutside s t) (hwindow : t.window = s.window) (hbytes : t.bytes = s.bytes)
    (hwords : t.words = s.words) (i : Instr) : Frame i s t := by
  have ⟨_, _, hparams, hinputs, _, _⟩ := h
  exact ⟨hparams, hinputs, fun _ => h, fun _ => hwindow, fun _ => .inl hwindow, fun _ => hbytes, fun _ => hwords⟩

theorem KeepsOutside.refl (s : State) : KeepsOutside s s := ⟨rfl, rfl, rfl, rfl, rfl, rfl⟩

theorem Frame.refl (i : Instr) (s : State) : Frame i s s := (KeepsOutside.refl s).frame rfl rfl rfl i

theorem KeepsOutside.trans {s t u : State} (h : KeepsOutside s t) (k : KeepsOutside t u) : KeepsOutside s u := by
  obtain ⟨hpwr, hpoll, hparams, hinputs, hwaitIn, hwaits⟩ := h
  obtain ⟨kpwr, kpoll, kparams, kinputs, kwaitIn, kwaits⟩ := k
  exact ⟨kpwr.trans hpwr, kpoll.trans hpoll, kparams.trans hparams, kinputs.trans hinputs, kwaitIn.trans hwaitIn, kwaits.trans hwaits⟩

theorem Frame.trans {i : Instr} {s t u : State} (h : Frame i s t) (k : Frame i t u) : Frame i s u where
  params := k.params.trans h.params
  inputs := k.inputs.trans h.inputs
  outside hi := (h.outside hi).trans (k.outside hi)
  windowKept hi := (k.windowKept hi).trans (h.windowKept hi)
  windowSet hi := by
    rcases k.windowSet hi with hkept | ⟨a, hset⟩
    · rw [hkept]; exact h.windowSet hi
    · exact .inr ⟨a, by rw [hset, h.params]⟩
  bytes hi := (k.bytes hi).trans (h.bytes hi)
  words hi := (k.words hi).trans (h.words hi)

/-! ### The parts of an operation -/

theorem LinkOnly.frame {s t : State} (h : LinkOnly s t) (i : Instr) : Frame i s t :=
  KeepsOutside.frame ⟨h.pwr, h.pollcnt, h.params, h.inputs, h.waitIn, h.waits⟩ h.window h.bytes h.words i

theorem ReportOnly.frame {s t : State} (h : ReportOnly s t) (i : Instr) : Frame i s t :=
  KeepsOutside.frame ⟨h.pwr, h.pollcnt, h.params, h.inputs, h.waitIn, h.waits⟩ h.window h.bytes h.words i

theorem accept_frame (i : Instr) (s : State) : Frame i s (accept i s) :=
  KeepsOutside.frame (t := accept i s) (KeepsOutside.refl s) rfl rfl rfl i

theorem setWindow_frame {i : Instr} (hi : movesWindow i = true) (a : Word) (s : State) : Frame i s (setWindow a s) := by
  obtain ⟨u, hu, hset⟩ := setWindow_linkOnly a s
  rw [hset]
  exact { hu.frame i with
    windowKept := fun hkeeps => absurd (hi.symm.trans hkeeps) (by decide)
    windowSet := fun _ => .inr ⟨a, rfl⟩ }

theorem storeBytes_frame (a : Word) (buf n : Nat) (m : Memory 8) (s : State) : Frame (.bpRdBlk a buf n) s { s with bytes := m } :=
  { Frame.refl _ s with bytes := fun hi => absurd rfl (hi a buf n) }

theorem storeWords_frame (wbuf n : Nat) (m : Memory 32) (s : State) : Frame (.dataRd wbuf n) s { s with words := m } :=
  { Frame.refl _ s with words := fun hi => absurd rfl (hi wbuf n) }

/-- `INIT` may change everything off the link but the parameters, what the host presents next and the host's buffers. -/
theorem init_frame {s t : State} (hparams : t.params = s.params) (hinputs : t.inputs = s.inputs) (hbytes : t.bytes = s.bytes)
    (hwords : t.words = s.words) : Frame .init s t :=
  ⟨hparams, hinputs, fun hi => absurd rfl hi, fun hi => absurd hi (by decide), fun hi => absurd rfl hi, fun _ => hbytes, fun _ => hwords⟩

theorem initCache_frame (s : State) : Frame .init s (initCache s) := init_frame rfl rfl rfl rfl

theorem powerPulse_frame (s : State) : Frame .init s (powerPulse s) := init_frame rfl rfl rfl rfl

theorem countPoll_frame (s : State) : Frame .init s { s with pollcnt := s.pollcnt + 1 } := init_frame rfl rfl rfl rfl

/-! ### Operations behind checks -/

theorem checked_frame {i : Instr} (check : Option ErrRecord) {body : State → State × Completion} {s : State} (h : Frame i s (body s).1) :
    Frame i s (checked check body s).1 := by
  cases check with
  | some e => exact .refl i s
  | none => exact h

theorem readFunction_frame (i : Instr) (f a n : Nat) (s : State) : Frame i s (readFunction f a n s).1 :=
  checked_frame _ ((memRead_linkOnly f a n s).frame i)

theorem writeFunction_frame (i : Instr) (f a n : Nat) (v : Word) (s : State) : Frame i s (writeFunction f a n v s).1 :=
  checked_frame _ ((memWrite_linkOnly f a n v s).frame i)

theorem readBackplane_frame {i : Instr} (hi : movesWindow i = true) (a : Word) (n : Nat) (s : State) : Frame i s (readBackplane a n s).1 :=
  checked_frame _ ((setWindow_frame hi a s).trans ((memRead_linkOnly _ _ n _).frame i))

theorem writeBackplane_frame {i : Instr} (hi : movesWindow i = true) (a : Word) (n : Nat) (v : Word) (s : State) :
    Frame i s (writeBackplane a n v s).1 :=
  checked_frame _ ((setWindow_frame hi a s).trans ((memWrite_linkOnly _ _ n v _).frame i))

/-! ### Blocks -/

theorem readChunks_frame (a : Word) (buf n : Nat) (cs : List (Nat × Nat)) (dst : Nat) (s : State) :
    Frame (.bpRdBlk a buf n) s (readChunks cs dst s) := by
  induction cs generalizing dst s with
  | nil => exact .refl _ s
  | cons x cs ih =>
    have hreceived : Frame (.bpRdBlk a buf n) s (receiveChunk x.1 x.2 s).1 :=
      (setWindow_frame rfl _ s).trans ((readTransaction_linkOnly _ _ _ _).frame _)
    exact hreceived.trans ((storeBytes_frame a buf n _ _).trans (ih _ _))

theorem writeChunks_frame {i : Instr} (hi : movesWindow i = true) (cs : List (Nat × Nat)) (src : Nat) (s : State) :
    Frame i s (writeChunks cs src s) := by
  induction cs generalizing src s with
  | nil => exact .refl _ s
  | cons x cs ih => exact (setWindow_frame hi _ s).trans (((writeTransaction_linkOnly _ _ _ _ _).frame i).trans (ih _ _))

/-! ### The bring-up handshake -/

theorem pollOnce_frame (s : State) : Frame .init s (pollOnce s).1 :=
  ((memReadRotated_linkOnly _ s).frame _).trans (countPoll_frame _)

theorem pollLoop_frame (fuel : Nat) (s : State) : Frame .init s (pollLoop fuel s).1 := by
  induction fuel generalizing s with
  | zero => exact .refl _ s
  | succ fuel ih =>
    have hpoll := pollOnce_frame s
    simp only [pollLoop]
    split
    · exact hpoll
    · split
      · exact hpoll
      · exact hpoll.trans (ih _)

theorem handshake_frame (s : State) : Frame .init s (handshake s).1 := by
  refine PartsKeep.andThen (PartsKeep.andThen (PartsKeep.andThen (PartsKeep.andThen ?poll ?swapped) ?configured) ?magic) ?pattern
  case poll => exact (initCache_frame s).trans ((powerPulse_frame _).trans (pollLoop_frame _ _))
  case swapped =>
    exact fun u hu => PartsKeep.expectValue _ _
      (hu.trans (((memWriteRotated_linkOnly _ _ u).trans (memReadRotated_linkOnly _ _)).frame _))
  case configured => exact fun u hu => hu.trans ((memWriteRotated_linkOnly _ _ u).frame _)
  case magic => exact fun u hu => PartsKeep.expectValue _ _ (hu.trans ((memRead_linkOnly _ _ 4 u).frame _))
  case pattern => exact fun u hu => PartsKeep.expectValue _ _ (hu.trans ((memRead_linkOnly _ _ 4 u).frame _))

/-! ### Every operation -/

theorem bodyOf_frame (i : Instr) (s : State) : Frame i s (bodyOf i s).1 := by
  cases i with
  | tWrite ws => exact (txWords_linkOnly ws s).frame _
  | tRead n => exact (rxWords_linkOnly n s).frame _
  | tFlush | cwDec | rot16 => exact .refl _ s
  | cwEnc w i f a l => exact checked_frame _ (.refl _ s)
  | rd8 f a | rd16 f a | rd32 f a => exact readFunction_frame _ f a _ s
  | wr8 f a v | wr16 f a v | wr32 f a v => exact writeFunction_frame _ f a _ v s
  | rd32s a => exact checked_frame _ ((memReadRotated_linkOnly a s).frame _)
  | wr32s a v => exact checked_frame _ ((memWriteRotated_linkOnly a v s).frame _)
  | setWin a => exact setWindow_frame rfl a s
  | bpRd8 a | bpRd16 a | bpRd32 a => exact readBackplane_frame rfl a _ s
  | bpWr8 a v | bpWr16 a v | bpWr32 a v => exact writeBackplane_frame rfl a _ v s
  | bpRdBlk a buf n => exact checked_frame _ (readChunks_frame a buf n _ buf s)
  | bpWrBlk a buf n => exact checked_frame _ (writeChunks_frame rfl _ buf s)
  | dataRd wbuf n => exact checked_frame _ (((readTransaction_linkOnly _ 0 n s).frame _).trans (storeWords_frame wbuf n _ _))
  | dataWr wbuf m => exact checked_frame _ ((writeTransaction_linkOnly _ 0 _ _ s).frame _)
  | init => exact handshake_frame s

/-- The frame of an operation from acceptance to report. -/
theorem exec_frame {i : Instr} {s t : State} (h : exec i s = .next t) : Frame i s t := by
  obtain ⟨-, rfl⟩ := exec_cases h
  exact (accept_frame i s).trans ((bodyOf_frame i _).trans ((report_only _ _).frame i))

/-- `SETWIN` sets `WINDOW` to the window of its address (43_window.md R194). -/
theorem exec_setWin_window {a : Word} {s t : State} (h : exec (.setWin a) s = .next t) : t.window = windowOf s.params a := by
  obtain ⟨-, rfl⟩ := exec_cases h
  exact (report_only _ _).window

/-- Settles O34: `SETWIN` and the backplane operations only ever set `WINDOW` to the window of an address, whose masked bits are zero. -/
theorem maskedWindowBitsStayZero : Obligations.MaskedWindowBitsStayZero := by
  constructor
  · intro a s t h
    rw [exec_setWin_window h, (exec_frame h).params]
    exact windowOf_and_mask s.params a
  · intro i s t hi hmasked h
    have hframe := exec_frame h
    rw [hframe.params]
    rcases hframe.windowSet hi with hkept | ⟨a, hset⟩
    · rw [hkept]; exact hmasked
    · rw [hset]; exact windowOf_and_mask s.params a

/-- Settles O56, by the frame of an operation. -/
theorem onlyInitDrivesPower : Obligations.OnlyInitDrivesPower := by
  intro i s t h
  have hframe := exec_frame h
  exact ⟨hframe.outside, hframe.params, hframe.inputs⟩

/-- Settles O57, by the frame of an operation. -/
theorem onlyBackplaneAndInitChangeWindow : Obligations.OnlyBackplaneAndInitChangeWindow := by
  intro i s t h
  have hkept := (exec_frame h).windowKept
  cases i with
  | setWin | bpRd8 | bpRd16 | bpRd32 | bpWr8 | bpWr16 | bpWr32 | bpRdBlk | bpWrBlk | init => trivial
  | _ => exact hkept rfl

/-- Settles O58, by the frame of an operation: the stores it leaves read the same at every index. -/
theorem onlyReadsStoreIntoBuffers : Obligations.OnlyReadsStoreIntoBuffers := by
  intro i s t h
  have hframe := exec_frame h
  exact ⟨fun hi k => by rw [hframe.bytes hi], fun hi k => by rw [hframe.words hi]⟩

end Sys2Proof.Machine
end

section
/-! PROOFS. Where a run starts and what its steps run: the reset state meets the invariant, and a presented record is run as the operation it decodes to
(10_state.md R28, R30, R45). -/

namespace Sys2Proof.Machine

/-- The default parameters are within the constraints of 00_scope.md R7, whatever the two open ones are. -/
theorem defaults_wf : Config.defaults.Wf where
  window_mask := by decide
  window_size := by decide
  max_transfer := by decide
  access32_one_bit := by decide
  access32_disjoint := by decide
  functions := by decide
  functions_distinct := by decide
  reg_win := by decide
  sentinel := by decide
  reg_bus := by decide
  max_polls := Nat.le_add_left 1 _
  pwr_low := by decide
  boot := by decide
  half := Nat.succ_pos _

/-- Settles O9: idle lines, the sentinel in `WINDOW`, empty buffers, no event and no error. -/
theorem resetMeetsInvariant : Obligations.ResetMeetsInvariant where
  params := defaults_wf
  framing := rfl
  quiet := ⟨rfl, rfl, rfl, rfl⟩
  window := .inl rfl
  bitcnt := Nat.zero_le _
  bytes := ⟨.nil, fun _ h => nomatch h⟩
  words := ⟨.nil, fun _ h => nomatch h⟩
  wire := .start
  err := ruleErrors_none

/-- Settles O4, by the two matches a step makes: on what the host presents, and on what its record decodes to. -/
theorem stepRunsPresentedOperation : Obligations.StepRunsPresentedOperation := by
  intro s record rest i hinputs hdecode
  simp only [step, hinputs, hdecode]

end Sys2Proof.Machine
end

section
/-! PROOFS. The decoder reads back what the encoder wrote (30_encoding.md R95, in the record layout of log 3). Each operand reader takes its operand off
the front of the words and leaves the words behind it, whatever they are; so do the operands of every operation, in a row. -/

namespace Sys2Proof

/-! ### One operand -/

/-- What follows an operand that was read runs on its value and on the words behind it. -/
theorem ok_bind_eq {ε α β : Type} (a : α) (f : α → Except ε β) : ((Except.ok a : Except ε α) >>= f) = f a := rfl

theorem pure_eq_ok {ε α : Type} (a : α) : (pure a : Except ε α) = .ok a := rfl

@[simp] theorem takeWord_cons (w : Word) (r : List Word) : takeWord (w :: r) = .ok (w, r) := rfl

/-- The two words of a natural number hold it, when it fits the 64 bits a record gives it. -/
theorem natWords_toNat {n : Nat} (h : natFits n = true) :
    (BitVec.ofNat 32 n).toNat + 2 ^ 32 * (BitVec.ofNat 32 (n / 2 ^ 32)).toNat = n := by
  have hn : n < 2 ^ 64 := of_decide_eq_true h
  simp only [BitVec.toNat_ofNat]
  omega

@[simp] theorem takeNat_natWords {n : Nat} (h : natFits n = true) (r : List Word) : takeNat (natWords n ++ r) = .ok (n, r) :=
  congrArg (fun m => Except.ok (m, r)) (natWords_toNat h)

@[simp] theorem takeWords_append (ws r : List Word) : takeWords ws.length (ws ++ r) = .ok (ws, r) := by
  induction ws with
  | nil => cases r <;> rfl
  | cons w ws ih => simp only [List.length_cons, List.cons_append, takeWords, ih]

/-! ### All operands of an operation -/

/-- The operands of an operation are read back from the front of any words that begin with them. -/
theorem decodeOperands_encodeOperands {i : Instr} (h : i.wellFormed = true) (r : List Word) :
    decodeOperands i.number (encodeOperands i ++ r) = .ok (i, r) := by
  cases i with
  | tFlush | init | cwDec | rot16 | setWin | bpRd8 | bpRd16 | bpRd32 | bpWr8 | bpWr16 | bpWr32 => rfl
  | tWrite ws =>
    have hlength : natFits ws.length = true := h
    simp [decodeOperands, Instr.number, encodeOperands, hlength, ok_bind_eq, pure_eq_ok]
  | tRead n | rd32s n | wr32s n =>
    have hn : natFits n = true := h
    simp [decodeOperands, Instr.number, encodeOperands, hn, ok_bind_eq, pure_eq_ok]
  | rd8 m n | rd16 m n | rd32 m n | wr8 m n | wr16 m n | wr32 m n | bpRdBlk _ m n | bpWrBlk _ m n | dataRd m n | dataWr m n =>
    obtain ⟨hm, hn⟩ := Bool.and_eq_true_iff.mp h
    simp [decodeOperands, Instr.number, encodeOperands, hm, hn, ok_bind_eq, pure_eq_ok]
  | cwEnc w i f a l =>
    simp only [Instr.wellFormed, Bool.and_eq_true] at h
    obtain ⟨⟨⟨⟨hw, hi⟩, hf⟩, ha⟩, hl⟩ := h
    simp [decodeOperands, Instr.number, encodeOperands, hw, hi, hf, ha, hl, ok_bind_eq, pure_eq_ok]

/-! ### The record -/

theorem Instr.number_mem_range (i : Instr) : 1 ≤ i.number ∧ i.number ≤ 26 := by cases i <;> simp [Instr.number]

/-- The word that holds an operation's number holds it whole. -/
theorem Instr.number_word_toNat (i : Instr) : (BitVec.ofNat 32 i.number).toNat = i.number := by
  obtain ⟨-, hle⟩ := i.number_mem_range
  exact (BitVec.toNat_ofNat ..).trans (Nat.mod_eq_of_lt (hle.trans_lt (by decide)))

/-- No operation's number is the zero that stands beside a header. -/
theorem Instr.number_word_ne_zero (i : Instr) : BitVec.ofNat 32 i.number ≠ 0 := by
  intro hzero
  have hnumber : i.number = 0 := i.number_word_toNat.symm.trans (congrArg BitVec.toNat hzero)
  obtain ⟨hone, -⟩ := i.number_mem_range
  exact Nat.one_le_iff_ne_zero.mp hone hnumber

/-- A record with an operation number is the operation whose operands follow. -/
theorem decodePrefix_number {k : Word} (hk : k ≠ 0) (r : List Word) : decodePrefix (0#32 :: k :: r) = decodeOperands k.toNat r :=
  (if_neg hk).trans (if_pos rfl)

/-- The record of an operation is read back from the front of any words that begin with it. -/
theorem decodePrefix_encode {i : Instr} (h : i.wellFormed = true) (r : List Word) : decodePrefix (encode i ++ r) = .ok (i, r) :=
  calc decodePrefix (encode i ++ r)
    _ = decodeOperands (BitVec.ofNat 32 i.number).toNat (encodeOperands i ++ r) := decodePrefix_number i.number_word_ne_zero _
    _ = decodeOperands i.number (encodeOperands i ++ r) := by rw [i.number_word_toNat]
    _ = .ok (i, r) := decodeOperands_encodeOperands h r

/-- Zeros may follow the operation a record begins with. -/
theorem decode_of_decodePrefix {record rest : List Word} {i : Instr} (h : decodePrefix record = .ok (i, rest))
    (hrest : rest.all (· == 0) = true) : decode record = .ok i := by
  rw [decode, h, ok_bind_eq]
  exact if_pos hrest

/-- Settles O7: the record's operands are read back one after the other, and nothing follows them. -/
theorem decodeOfEncodeIsIdentity : Obligations.DecodeOfEncodeIsIdentity := by
  intro i h
  have hprefix := decodePrefix_encode h []
  rw [List.append_nil] at hprefix
  exact decode_of_decodePrefix hprefix rfl

/-- Settles O8: the four headers by running the decoder on them, the two records with a number as records the encoder writes. -/
theorem decodeReadsHandWrittenWords : Obligations.DecodeReadsHandWrittenWords := by
  refine ⟨?rd8, ?wr8, ?bpRd8, ?dataRd, ?setWin, ?init⟩
  case rd8 | wr8 | bpRd8 | dataRd => decide
  case setWin => exact decodeOfEncodeIsIdentity (.setWin 0x18008004#32) rfl
  case init => exact decodeOfEncodeIsIdentity .init rfl

end Sys2Proof
end

section
/-! PROOFS. Unit U1, the transport: what `T.WRITE`, `T.READ` and `T.FLUSH` put on the lines and what they leave as it was. The line-level traces are
`txWords_link` and `rxWords_link`; an operation whose body is one of these calls has that trace from its acceptance to its report. -/

namespace Sys2Proof.Machine

/-! ### A call that does nothing -/

/-- An operation whose body leaves the accepted state as it is touches no line, no transport register and no trace. -/
theorem exec_silent_keepsTransport {i : Instr} {s t : State} {c : Completion} (h : exec i s = .next t)
    (hc : bodyOf i (accept i s) = (accept i s, c)) : KeepsTransport s t := by
  rw [exec_eq_runOp] at h
  obtain ⟨hb, -⟩ := runOp_cases h
  obtain ⟨hnext, hkeeps, -⟩ := runOp_silent hb hc
  obtain rfl := Host.Outcome.next.inj (h.symm.trans hnext)
  exact hkeeps

/-! ### `T.WRITE`, `T.READ`, `T.FLUSH` -/

/-- `T.WRITE` from an idle block (40_transport.md R112). -/
theorem exec_tWrite_exchange (ws : List Word) {s : State} (hq : Quiet s) :
    ∃ t, exec (.tWrite ws) s = .next t ∧ Completed t ∧ Exchange s t (txEvents ws) 0 ∧ KeepsRest s t := by
  have ⟨_, hclk, hoe, _⟩ := hq
  rw [exec_eq_runOp]
  exact runOp_link_doneNothing hq rfl (txWords_link ws (accept (.tWrite ws) s) hclk hoe)

/-- `T.READ` from an idle block returns the words the device's next levels make (40_transport.md R118). -/
theorem exec_tRead_exchange (n : Nat) {s : State} (hq : Quiet s) (hf : s.params.readFraming = .rsf) :
    ∃ t, exec (.tRead n) s = .next t ∧ Completed t ∧ t.result = .words (s.deviceWords n) ∧
      Exchange s t (rxEvents (s.deviceWords n)) (32 * n) ∧ KeepsRest s t := by
  have ⟨_, hclk, hoe, _⟩ := hq
  have hlevels : (accept (.tRead n) s).deviceWords n = s.deviceWords n := deviceWords_congr n (accept_deviceLevel _ s)
  obtain ⟨hlink, hwords⟩ := rxWords_link n (accept (.tRead n) s) hclk hoe hf
  rw [hlevels] at hlink hwords
  rw [exec_eq_runOp]
  exact runOp_link_done hq (by simp only [bodyOf, hwords]) hlink

/-- `T.FLUSH` from an idle block (40_transport.md R123). -/
theorem exec_tFlush_exchange {s : State} (hq : Quiet s) :
    ∃ t, exec .tFlush s = .next t ∧ Completed t ∧ Exchange s t [] 0 ∧ KeepsRest s t := by
  have ⟨_, hclk, hoe, _⟩ := hq
  rw [exec_eq_runOp]
  exact runOp_link_doneNothing hq rfl (.nothing hclk hoe)

/-- Bit `31 - j` of word `k` is the level at sample `32k + j` (40_transport.md R118, R121). -/
theorem deviceWords_getLsbD (s : State) {n k j : Nat} (hk : k < n) (hj : j < 32) :
    ((s.deviceWords n).getD k 0).getLsbD (31 - j) = s.deviceLevel (32 * k + j) := by
  have hword : (s.deviceWords n).getD k 0 = levelsWord s.deviceLevel (32 * k) := by simp [State.deviceWords, hk]
  rw [hword, levelsWord_getLsbD s.deviceLevel (32 * k) j hj]

/-- Settles O11: the trace of a write call; for no words the call returns at once (R117). -/
theorem transportWriteEmitsBitTimes : Obligations.TransportWriteEmitsBitTimes := by
  intro ws s hq
  obtain ⟨t, hexec, hdone, hexchange, hrest⟩ := exec_tWrite_exchange ws hq
  refine ⟨t, hexec, hdone, hexchange, hrest, ?_⟩
  rintro rfl
  exact exec_silent_keepsTransport hexec rfl

/-- Settles O12: the words are those the device's levels make, bit by bit; for `n = 0` the call returns at once (R122). -/
theorem transportReadReturnsSampledWords : Obligations.TransportReadReturnsSampledWords := by
  intro n s hq hf
  obtain ⟨t, hexec, hdone, hresult, hexchange, hrest⟩ := exec_tRead_exchange n hq hf
  refine ⟨t, s.deviceWords n, hexec, hdone, hresult, deviceWords_length s n, fun k hk j hj => deviceWords_getLsbD s hk hj,
    hexchange, hrest, ?_⟩
  rintro rfl
  exact exec_silent_keepsTransport hexec rfl

/-- Settles O13: the body of `T.FLUSH` does nothing. -/
theorem flushHasNoEffectOnLink : Obligations.FlushHasNoEffectOnLink := by
  intro s hq
  obtain ⟨t, hexec, hdone, -, hrest⟩ := exec_tFlush_exchange hq
  exact ⟨t, hexec, hdone, exec_silent_keepsTransport hexec rfl, hrest⟩

/-! ### One write or two -/

theorem withoutHold_append (es fs : List Event) : withoutHold (es ++ fs) = withoutHold es ++ withoutHold fs :=
  List.filter_append es fs

/-- No bit-time of a written word takes or releases the data line (40_transport.md R114). -/
theorem withoutHold_writtenWordEvents (w : Word) : withoutHold (writtenWordEvents w) = writtenWordEvents w := by
  refine List.filter_eq_self.2 fun e he => ?_
  obtain ⟨b, -, hb⟩ := List.mem_flatMap.1 he
  obtain rfl | rfl | rfl : e = .drive b ∨ e = .rise ∨ e = .fall := by simpa using hb
  all_goals rfl

/-- Apart from `Take` and `Release` a write call is the bit-times of its words (40_transport.md R115). -/
theorem withoutHold_txEvents (ws : List Word) : withoutHold (txEvents ws) = ws.flatMap writtenWordEvents := by
  have hwords : withoutHold (ws.flatMap writtenWordEvents) = ws.flatMap writtenWordEvents := by
    rw [withoutHold, List.filter_flatMap]
    exact List.flatMap_congr fun w _ => withoutHold_writtenWordEvents w
  cases ws with
  | nil => rfl
  | cons w ws =>
    calc withoutHold (txEvents (w :: ws))
        = withoutHold ((w :: ws).flatMap writtenWordEvents) ++ withoutHold [.release] := withoutHold_append _ _
      _ = (w :: ws).flatMap writtenWordEvents := by rw [hwords]; exact List.append_nil _

/-- Settles O14: without `Take` and `Release` both sides are the bit-times of the words of `xs` and of `ys` in order. -/
theorem splitWriteHasSameLineActions : Obligations.SplitWriteHasSameLineActions := by
  intro xs ys s hq
  obtain ⟨t, ht, -, ⟨htrace, -⟩, -⟩ := exec_tWrite_exchange (xs ++ ys) hq
  obtain ⟨u, hu, ⟨hquiet, -⟩, ⟨hutrace, -⟩, -⟩ := exec_tWrite_exchange xs hq
  obtain ⟨v, hv, -, ⟨hvtrace, -⟩, -⟩ := exec_tWrite_exchange ys hquiet
  refine ⟨t, u, v, txEvents (xs ++ ys), txEvents xs ++ txEvents ys, ht, hu, hv, htrace, ?_, ?_⟩
  · rw [hvtrace, hutrace, List.append_assoc]
  · rw [withoutHold_append, withoutHold_txEvents, withoutHold_txEvents, withoutHold_txEvents, List.flatMap_append]

/-! ### The pulses of a transaction -/

/-- `n` clock pulses: `Rise` and `Fall` in turn (40_transport.md R125). -/
def pulses (n : Nat) : List Event := (List.replicate n [Event.rise, Event.fall]).flatten

theorem pulses_add (m n : Nat) : pulses (m + n) = pulses m ++ pulses n := by
  rw [pulses, ← List.replicate_append_replicate, List.flatten_append]; rfl

theorem clockEdges_append (es fs : List Event) : clockEdges (es ++ fs) = clockEdges es ++ clockEdges fs :=
  List.filter_append es fs

/-- Parts of `k` pulses each, one after the other. -/
theorem clockEdges_flatMap {α : Type} {f : α → List Event} {k : Nat} (hf : ∀ x, clockEdges (f x) = pulses k) (xs : List α) :
    clockEdges (xs.flatMap f) = pulses (k * xs.length) := by
  induction xs with
  | nil => rfl
  | cons x xs ih =>
    rw [List.flatMap_cons, clockEdges_append, hf, ih, ← pulses_add, List.length_cons, Nat.mul_succ, Nat.add_comm]

theorem wordBits_length (w : Word) : (wordBits w).length = 32 := by rw [wordBits, List.length_map, List.length_range]

/-- A written word is 32 pulses (40_transport.md R114, R125). -/
theorem clockEdges_writtenWordEvents (w : Word) : clockEdges (writtenWordEvents w) = pulses 32 := by
  rw [writtenWordEvents, clockEdges_flatMap (k := 1) fun _ => rfl, wordBits_length]

/-- A received word is 32 pulses (40_transport.md R120, R125). -/
theorem clockEdges_receivedWordEvents (w : Word) : clockEdges (receivedWordEvents w) = pulses 32 := by
  rw [receivedWordEvents, clockEdges_flatMap (k := 1) fun _ => rfl, wordBits_length]

theorem clockEdges_txEvents (ws : List Word) : clockEdges (txEvents ws) = pulses (32 * ws.length) := by
  cases ws with
  | nil => rfl
  | cons w ws =>
    calc clockEdges (txEvents (w :: ws))
        = clockEdges ((w :: ws).flatMap writtenWordEvents) ++ clockEdges [.release] := clockEdges_append _ _
      _ = pulses (32 * (w :: ws).length) := by rw [clockEdges_flatMap clockEdges_writtenWordEvents]; exact List.append_nil _

theorem clockEdges_rxEvents (rs : List Word) : clockEdges (rxEvents rs) = pulses (32 * rs.length) :=
  clockEdges_flatMap clockEdges_receivedWordEvents rs

/-- Settles O15: 32 pulses for each word of the trace of the transaction, the header and the turnaround word among them. -/
theorem transactionHasExactPulses : Obligations.TransactionHasExactPulses := by
  rintro f a len payload s ⟨-, hclk, hoe, -⟩ hf
  obtain ⟨⟨-, ⟨hread, -⟩, -, -⟩, -⟩ := readTransaction_link f a len s hclk hoe hf
  obtain ⟨-, ⟨hwrite, -⟩, -, -⟩ := writeTransaction_link f a len payload s hclk hoe
  refine ⟨⟨_, hwrite, ?_⟩, ⟨_, hread, ?_⟩⟩
  · rw [clockEdges_txEvents, List.length_cons, Nat.add_comm]; rfl
  · rw [clockEdges_append, clockEdges_txEvents, clockEdges_rxEvents, deviceWords_length, ← pulses_add, ← Nat.mul_add]; rfl

end Sys2Proof.Machine
end

section
/-! PROOFS. Unit U2, the command-word unit: `CW.ENC`, `CW.DEC` and `ROT16`. Their bodies leave the accepted state as it is, so what they answer is a
matter of the pure functions `checkCommand`, `cw`, `cwFields` and `rotate16`, and the laws between those. -/

namespace Sys2Proof.Machine

/-! ### The operand checks -/

theorem checkField_of_le {v max : Nat} (h : v ≤ max) : checkField v max = none := if_pos h

theorem checkField_of_lt {v max : Nat} (h : max < v) : checkField v max = some (errRecord .fieldRange (.operand v)) :=
  if_neg (Nat.not_le.2 h)

@[simp] theorem firstOf_none (b : Option ErrRecord) : firstOf none b = b := rfl

@[simp] theorem firstOf_some (e : ErrRecord) (b : Option ErrRecord) : firstOf (some e) b = some e := rfl

/-- With `w` and `i` one bit each, the checks of `CW.ENC` name the first of `f`, `a`, `l` that does not fit (41_cmdword.md R141). -/
theorem checkCommand_of_bits {w i : Nat} (f a l : Nat) (hw : w ≤ 1) (hi : i ≤ 1) :
    checkCommand w i f a l = firstOf (checkField f 3) (firstOf (checkField a 0x1FFFF) (checkField l 0x7FF)) := by
  rw [checkCommand, checkField_of_le hw, checkField_of_le hi, firstOf_none, firstOf_none]

/-! ### The fields of a CommandWord -/

/-- Every field of the tuple fits its width (30_encoding.md R80). -/
structure FieldsFit (w i f a l : Nat) : Prop where
  write : w ≤ 1
  increment : i ≤ 1
  function : f ≤ 3
  address : a ≤ 0x1FFFF
  length : l ≤ 0x7FF

theorem FieldsFit.checkCommand_eq_none {w i f a l : Nat} (h : FieldsFit w i f a l) : checkCommand w i f a l = none := by
  rw [checkCommand_of_bits f a l h.write h.increment, checkField_of_le h.function, checkField_of_le h.address,
    checkField_of_le h.length, firstOf_none, firstOf_none]

/-- `CW(w, i, f, a, l)` as a number, for fields that fit. -/
theorem FieldsFit.toNat_cw {w i f a l : Nat} (h : FieldsFit w i f a l) :
    (cw w i f a l).toNat = w * 2 ^ 31 + i * 2 ^ 30 + f * 2 ^ 28 + a * 2 ^ 11 + l :=
  cw_toNat w i f a l h.write h.increment h.function h.address h.length

/-- The fields of every word fit, being bit vectors of those widths. -/
theorem fieldsFit_fields (r : CommandWord) :
    FieldsFit r.write.toNat r.increment.toNat r.function.toNat r.address.toNat r.length.toNat :=
  ⟨Nat.le_of_lt_succ r.write.isLt, Nat.le_of_lt_succ r.increment.isLt, Nat.le_of_lt_succ r.function.isLt,
    Nat.le_of_lt_succ r.address.isLt, Nat.le_of_lt_succ r.length.isLt⟩

/-- Extracting the fields of an assembled word reproduces them (41_cmdword.md R143). -/
theorem FieldsFit.cwFields_cw {w i f a l : Nat} (h : FieldsFit w i f a l) :
    (cwFields (cw w i f a l)).write.toNat = w ∧ (cwFields (cw w i f a l)).increment.toNat = i ∧
      (cwFields (cw w i f a l)).function.toNat = f ∧ (cwFields (cw w i f a l)).address.toNat = a ∧
      (cwFields (cw w i f a l)).length.toNat = l := by
  obtain ⟨ewrite, eincrement, efunction, eaddress, elength⟩ := cwFields_toNat (cw w i f a l)
  rw [ewrite, eincrement, efunction, eaddress, elength, h.toNat_cw]
  obtain ⟨hw, hi, hf, ha, hl⟩ := h
  omega

/-- Assembling the fields of a word reproduces it (41_cmdword.md R144). -/
theorem cw_cwFields (c : Word) :
    cw (cwFields c).write.toNat (cwFields c).increment.toNat (cwFields c).function.toNat (cwFields c).address.toNat
      (cwFields c).length.toNat = c := by
  obtain ⟨ewrite, eincrement, efunction, eaddress, elength⟩ := cwFields_toNat c
  apply BitVec.eq_of_toNat_eq
  rw [(fieldsFit_fields (cwFields c)).toNat_cw, ewrite, eincrement, efunction, eaddress, elength]
  omega

/-- Tuples that fit and assemble to one word are one tuple: each is what that word's fields are (41_cmdword.md R144). -/
theorem FieldsFit.cw_injective {w i f a l w' i' f' a' l' : Nat} (h : FieldsFit w i f a l) (h' : FieldsFit w' i' f' a' l')
    (heq : cw w i f a l = cw w' i' f' a' l') : (w, i, f, a, l) = (w', i', f', a', l') := by
  obtain ⟨ewrite, eincrement, efunction, eaddress, elength⟩ := h.cwFields_cw
  obtain ⟨ewrite', eincrement', efunction', eaddress', elength'⟩ := h'.cwFields_cw
  rw [← heq] at ewrite' eincrement' efunction' eaddress' elength'
  simp only [Prod.mk.injEq]
  exact ⟨ewrite.symm.trans ewrite', eincrement.symm.trans eincrement', efunction.symm.trans efunction', eaddress.symm.trans eaddress',
    elength.symm.trans elength'⟩

/-! ### `CW.ENC`, `CW.DEC`, `ROT16` -/

/-- An operation whose body only yields a result: the result is reported, and nothing but the host port changes (41_cmdword.md R140). -/
theorem exec_pure {i : Instr} {s : State} {r : OpResult} (hq : Quiet s) (hc : bodyOf i (accept i s) = (accept i s, .done r)) :
    ∃ t, exec i s = .next t ∧ Completed t ∧ KeepsTransport s t ∧ KeepsRest s t ∧ t.result = r := by
  have ⟨hb, hclk, hoe, _⟩ := hq
  rw [exec_eq_runOp]
  obtain ⟨t, hexec, hdone, hresult, -, hrest⟩ := runOp_link_done hq hc (.nothing hclk hoe)
  exact ⟨t, hexec, hdone, exec_silent_keepsTransport (exec_eq_runOp i s ▸ hexec) hc, hrest, hresult⟩

theorem exec_cwEnc_of_fit {w i f a l : Nat} {s : State} (hq : Quiet s) (h : FieldsFit w i f a l) :
    ∃ t, exec (.cwEnc w i f a l) s = .next t ∧ Completed t ∧ KeepsTransport s t ∧ KeepsRest s t ∧ t.result = .value (cw w i f a l) :=
  exec_pure hq (by rw [bodyOf, checked_of_none _ _ h.checkCommand_eq_none])

/-- `CW.ENC` rejects what its checks reject, before anything else happens (41_cmdword.md R142). -/
theorem exec_cwEnc_of_rejected {w i f a l : Nat} {s : State} {cause : ErrCause} {info : ErrInfo} (hq : Quiet s)
    (h : checkCommand w i f a l = some (errRecord cause info)) :
    ∃ t, exec (.cwEnc w i f a l) s = .next t ∧ KeepsTransport s t ∧ KeepsRest s t ∧ Reported cause info t := by
  rw [exec_eq_runOp]
  obtain ⟨t, hexec, hreport, htransport, hrest⟩ := runOp_rejected (i := .cwEnc w i f a l) hq (checked_of_some _ _ h)
  exact ⟨t, hexec, htransport, hrest, hreport⟩

theorem exec_cwDec (c : Word) {s : State} (hq : Quiet s) :
    ∃ t, exec (.cwDec c) s = .next t ∧ Completed t ∧ KeepsTransport s t ∧ KeepsRest s t ∧ t.result = .fields (cwFields c) :=
  exec_pure hq rfl

/-- Settles O16: the branches are those of the checks; where all fields fit, the word is the sum. -/
theorem encoderAssemblesOrRejects : Obligations.EncoderAssemblesOrRejects := by
  intro w i f a l s hq hw hi
  have hcheck := checkCommand_of_bits f a l hw hi
  split_ifs with hf ha hl
  · rw [checkField_of_lt hf, firstOf_some] at hcheck
    exact exec_cwEnc_of_rejected hq hcheck
  · rw [checkField_of_le (Nat.not_lt.1 hf), checkField_of_lt ha, firstOf_none, firstOf_some] at hcheck
    exact exec_cwEnc_of_rejected hq hcheck
  · rw [checkField_of_le (Nat.not_lt.1 hf), checkField_of_le (Nat.not_lt.1 ha), checkField_of_lt hl, firstOf_none, firstOf_none] at hcheck
    exact exec_cwEnc_of_rejected hq hcheck
  · have hfit : FieldsFit w i f a l := ⟨hw, hi, Nat.not_lt.1 hf, Nat.not_lt.1 ha, Nat.not_lt.1 hl⟩
    obtain ⟨t, hexec, hdone, htransport, hrest, hresult⟩ := exec_cwEnc_of_fit hq hfit
    refine ⟨t, hexec, htransport, hrest, hdone, ?_⟩
    rw [hresult, ← hfit.toNat_cw, BitVec.ofNat_toNat, BitVec.setWidth_eq]

/-- Settles O17: the body of `CW.DEC` yields the fields, which are the quotients and remainders of the word. -/
theorem decoderExtractsFields : Obligations.DecoderExtractsFields := by
  intro c s hq
  obtain ⟨t, hexec, hdone, htransport, hrest, hresult⟩ := exec_cwDec c hq
  exact ⟨t, cwFields c, hexec, hdone, htransport, hrest, hresult, cwFields_toNat c⟩

/-- Settles O18: `CW.ENC` leaves the block idle with the assembled word, and `CW.DEC` of that word returns its fields. -/
theorem encodeThenDecodeFields : Obligations.EncodeThenDecodeFields := by
  intro w i f a l s hq hw hi hf ha hl
  have hfit : FieldsFit w i f a l := ⟨hw, hi, hf, ha, hl⟩
  obtain ⟨t, hencode, ⟨hquiet, -⟩, -, -, hword⟩ := exec_cwEnc_of_fit hq hfit
  obtain ⟨u, hdecode, -, -, -, hfields⟩ := exec_cwDec (cw w i f a l) hquiet
  exact ⟨t, _, u, _, hencode, hword, hdecode, hfields, hfit.cwFields_cw⟩

/-- Settles O19: the fields of a word fit and assemble to it again; and two words are equal only for equal tuples. -/
theorem decodeThenEncodeWord : Obligations.DecodeThenEncodeWord := by
  constructor
  · intro c s hq
    obtain ⟨t, hdecode, ⟨hquiet, -⟩, -, -, hfields⟩ := exec_cwDec c hq
    obtain ⟨u, hencode, ⟨-, herr⟩, -, -, hword⟩ := exec_cwEnc_of_fit hquiet (fieldsFit_fields (cwFields c))
    exact ⟨t, _, u, hdecode, hfields, hencode, herr, hword.trans (congrArg _ (cw_cwFields c))⟩
  · intro w i f a l w' i' f' a' l' s t t' hq hw hi hf ha hl hw' hi' hf' ha' hl' ht ht' hsame
    have hfit : FieldsFit w i f a l := ⟨hw, hi, hf, ha, hl⟩
    have hfit' : FieldsFit w' i' f' a' l' := ⟨hw', hi', hf', ha', hl'⟩
    obtain ⟨u, hu, -, -, -, hword⟩ := exec_cwEnc_of_fit hq hfit
    obtain ⟨u', hu', -, -, -, hword'⟩ := exec_cwEnc_of_fit hq hfit'
    obtain rfl := Host.Outcome.next.inj (ht.symm.trans hu)
    obtain rfl := Host.Outcome.next.inj (ht'.symm.trans hu')
    exact hfit.cw_injective hfit' (OpResult.value.inj (hword.symm.trans (hsame.trans hword')))

/-! ### One bit, one field -/

theorem getLsbD_xor_oneBit (c : Word) {k : Nat} (hk : k < 32) (j : Nat) :
    (c ^^^ (1#32 <<< k)).getLsbD j = (c.getLsbD j ^^ decide (k = j)) := by
  rw [BitVec.getLsbD_xor, ← BitVec.twoPow_eq, BitVec.getLsbD_twoPow, decide_eq_true hk, Bool.true_and]

/-- Inverting bit `k` changes the part `c[lo + n - 1 : lo]` of a word exactly when the part holds that bit. -/
theorem extractLsb'_xor_oneBit_ne_iff (c : Word) {k : Nat} (hk : k < 32) (lo n : Nat) :
    c.extractLsb' lo n ≠ (c ^^^ (1#32 <<< k)).extractLsb' lo n ↔ lo ≤ k ∧ k < lo + n := by
  constructor
  · intro hne
    by_contra hout
    refine hne (BitVec.eq_of_getLsbD_eq fun j hj => ?_)
    have hother : k ≠ lo + j := by omega
    rw [BitVec.getLsbD_extractLsb', BitVec.getLsbD_extractLsb', getLsbD_xor_oneBit c hk, decide_eq_false hother, Bool.xor_false]
  · rintro ⟨hlo, hhi⟩ heq
    have hbit := congrArg (·.getLsbD (k - lo)) heq
    have hin : k - lo < n := by omega
    simp [hin, Nat.add_sub_cancel' hlo, getLsbD_xor_oneBit c hk] at hbit

/-- Settles O20: a field changes exactly when its bits hold bit `k`, and the five ranges partition the bits 31 to 0. -/
theorem oneBitChangesOneField : Obligations.OneBitChangesOneField := by
  intro c k hk
  simp only [cwFields, extractLsb'_xor_oneBit_ne_iff c hk]
  obtain hin | hin | hin | hin | hin :
      31 ≤ k ∨ (30 ≤ k ∧ k < 31) ∨ (28 ≤ k ∧ k < 30) ∨ (11 ≤ k ∧ k < 28) ∨ k < 11 := by omega
  -- With `k` in one range, that field's test is true and the other four are false.
  all_goals simp (disch := omega) [List.count_cons, if_pos, if_neg]

/-! ### The rotation -/

/-- The rotation exchanges the halves of a word (41_cmdword.md R148). -/
theorem rotate16_eq_append (x : Word) : rotate16 x = x.extractLsb' 0 16 ++ x.extractLsb' 16 16 := by
  refine BitVec.eq_of_getLsbD_eq fun j hj => ?_
  rw [rotate16_getLsbD, BitVec.getLsbD_append]
  by_cases hlow : j < 16
  · simp [hlow, Nat.add_comm]
  · have hhigh : j - 16 < 16 := by omega
    simp [hlow, hj, hhigh]

/-- Settles O21: the body of `ROT16` yields the rotated word. -/
theorem rotationExchangesHalves : Obligations.RotationExchangesHalves := by
  intro x s hq
  rw [← rotate16_eq_append]
  exact exec_pure hq rfl

/-- Settles O22: bit `j` goes to bit `j + 16` or `j - 16` and back. -/
theorem rotationTwiceIsIdentity : Obligations.RotationTwiceIsIdentity := by
  intro x
  refine BitVec.eq_of_getLsbD_eq fun j hj => ?_
  rw [rotate16_getLsbD, rotate16_getLsbD, rotate16_getLsbD]
  by_cases hlow : j < 16
  · simp [hlow]; omega
  · have hhigh : j - 16 < 16 := by omega
    simp [hlow, hj, hhigh, Nat.sub_add_cancel (Nat.not_lt.1 hlow)]

end Sys2Proof.Machine
end

section
/-! PROOFS. Function-addressed access (spec/42_function_access.md): the narrow reads and writes and the two rotated operations. Each is one transaction
behind its operand checks; what the transactions do to the link is `memRead_link`, `memWrite_link` and the two rotated ones. What stands here besides is
which operand the checks name, and which of the received words a read returns. -/

namespace Sys2Proof.Machine

/-! ### The operand checks -/

/-- An operation whose checks fail reports their error, and nothing happens on the link (60_exceptions.md R292). -/
theorem exec_rejected {i : Instr} {check : Option ErrRecord} {body : State → State × Completion} {s : State} {cause : ErrCause}
    {info : ErrInfo} (hq : Quiet s) (hi : bodyOf i = checked check body) (hc : check = some (errRecord cause info)) :
    ∃ t, exec i s = .next t ∧ Reported cause info t ∧ KeepsTransport s t ∧ KeepsRest s t := by
  rw [exec_eq_runOp]
  exact runOp_rejected hq (by rw [hi, checked_of_some _ _ hc])

theorem checkRead_of_wide_function {f : Nat} (a : Nat) (hf : 3 < f) : checkRead f a = some (errRecord .fieldRange (.operand f)) := by
  rw [checkRead, checkField_of_lt hf, firstOf_some]

theorem checkRead_of_wide_address {f a : Nat} (hf : f ≤ 3) (ha : 0x1FFFF < a) :
    checkRead f a = some (errRecord .fieldRange (.operand a)) := by
  rw [checkRead, checkField_of_le hf, checkField_of_lt ha, firstOf_none]

theorem checkRead_of_fit {f a : Nat} (hf : f ≤ 3) (ha : a ≤ 0x1FFFF) : checkRead f a = none := by
  rw [checkRead, checkField_of_le hf, checkField_of_le ha, firstOf_none]

theorem checkValue_of_wide {n : Nat} {v : Word} (hv : 2 ^ (8 * n) ≤ v.toNat) :
    checkValue n v = some (errRecord .fieldRange (.operand v.toNat)) :=
  checkField_of_lt (lt_of_lt_of_le (Nat.sub_one_lt_of_lt (Nat.two_pow_pos _)) hv)

theorem checkValue_of_fit {n : Nat} {v : Word} (hv : v.toNat < 2 ^ (8 * n)) : checkValue n v = none :=
  checkField_of_le (Nat.le_sub_one_of_lt hv)

theorem checkWrite_of_fit {f a n : Nat} {v : Word} (hf : f ≤ 3) (ha : a ≤ 0x1FFFF) (hv : v.toNat < 2 ^ (8 * n)) :
    checkWrite f a n v = none := by
  rw [checkWrite, checkRead_of_fit hf ha, firstOf_none, checkValue_of_fit hv]

/-- The checks of a narrow access: a read has no written value, a write has one of `n` bytes (42_function_access.md R163). -/
def accessCheck (f a : Nat) (v : Word) : Option Nat → Option ErrRecord
  | none => checkRead f a
  | some n => checkWrite f a n v

/-- What a narrow access rejects for its function or address it rejects whether it reads or writes. -/
theorem accessCheck_of_checkRead {f a : Nat} (v : Word) {e : ErrRecord} (h : checkRead f a = some e) (width : Option Nat) :
    accessCheck f a v width = some e := by
  cases width with
  | none => exact h
  | some n => rw [accessCheck, checkWrite, h, firstOf_some]

/-- `bad` is the first of function, address and written value that does not fit (42_function_access.md R163). -/
def FirstMisfit (f a : Nat) (v : Word) (width : Option Nat) (bad : Nat) : Prop :=
  (3 < f ∧ bad = f) ∨ (f ≤ 3 ∧ 0x1FFFF < a ∧ bad = a) ∨
    (f ≤ 3 ∧ a ≤ 0x1FFFF ∧ (∃ n, width = some n ∧ 2 ^ (8 * n) ≤ v.toNat) ∧ bad = v.toNat)

theorem FirstMisfit.accessCheck_eq {f a : Nat} {v : Word} {width : Option Nat} {bad : Nat} (h : FirstMisfit f a v width bad) :
    accessCheck f a v width = some (errRecord .fieldRange (.operand bad)) := by
  obtain ⟨hf, rfl⟩ | ⟨hf, ha, rfl⟩ | ⟨hf, ha, ⟨n, rfl, hv⟩, rfl⟩ := h
  · exact accessCheck_of_checkRead v (checkRead_of_wide_function a hf) width
  · exact accessCheck_of_checkRead v (checkRead_of_wide_address hf ha) width
  · rw [accessCheck, checkWrite, checkRead_of_fit hf ha, firstOf_none, checkValue_of_wide hv]

/-- Every narrow access stands behind the checks of its form. -/
theorem bodyOf_narrow_eq_checked (f a : Nat) (v : Word) :
    ∀ p ∈ [(Instr.rd8 f a, none), (Instr.rd16 f a, none), (Instr.rd32 f a, none), (Instr.wr8 f a v, some 1),
      (Instr.wr16 f a v, some 2), (Instr.wr32 f a v, some 4)], ∃ body, bodyOf p.1 = checked (accessCheck f a v p.2) body := by
  simp only [List.forall_mem_cons]
  exact ⟨⟨_, rfl⟩, ⟨_, rfl⟩, ⟨_, rfl⟩, ⟨_, rfl⟩, ⟨_, rfl⟩, ⟨_, rfl⟩, List.forall_mem_nil _⟩

/-- Settles O25: the checks name the first operand that does not fit, and they come before the transaction. -/
theorem functionAccessChecksInOrder : Obligations.FunctionAccessChecksInOrder := by
  intro f a v s hq p hp bad hbad
  obtain ⟨body, hbody⟩ := bodyOf_narrow_eq_checked f a v p hp
  exact exec_rejected hq hbody (FirstMisfit.accessCheck_eq hbad)

/-- Settles O28: both rotated operations check their address before the transaction. -/
theorem rotatedAccessRejectsWideAddress : Obligations.RotatedAccessRejectsWideAddress := by
  intro a v s hq ha
  simp only [List.forall_mem_cons]
  exact ⟨exec_rejected hq rfl (checkField_of_lt ha), exec_rejected hq rfl (checkField_of_lt ha), List.forall_mem_nil _⟩

/-! ### Narrow writes -/

/-- A narrow write whose operands fit is one write transaction (42_function_access.md R165). -/
theorem exec_functionWrite {i : Instr} {f a n : Nat} {v : Word} {s : State} (hi : bodyOf i = writeFunction f a n v) (hq : Quiet s)
    (hf : f ≤ 3) (ha : a ≤ 0x1FFFF) (hv : v.toNat < 2 ^ (8 * n)) :
    ∃ t, exec i s = .next t ∧ Completed t ∧ Exchange s t (txEvents [cw 1 1 f a n, v]) 0 ∧ KeepsRest s t := by
  have ⟨_, hclk, hoe, _⟩ := hq
  rw [exec_eq_runOp]
  exact runOp_link_doneNothing hq (by rw [hi, writeFunction, checked_of_none _ _ (checkWrite_of_fit hf ha hv)])
    (memWrite_link f a n v (accept i s) hclk hoe)

/-- Settles O24: the three widths are one write transaction each, of header and value. -/
theorem functionWriteSendsValue : Obligations.FunctionWriteSendsValue := by
  intro f a v s hq hf ha p hp hv
  have hbody : bodyOf p.1 = writeFunction f a p.2 v := by
    simp only [List.mem_cons, List.not_mem_nil, or_false] at hp
    obtain rfl | rfl | rfl := hp <;> rfl
  obtain ⟨t, hexec, hdone, hexchange, hrest⟩ := exec_functionWrite hbody hq hf ha hv
  exact ⟨t, hexec, hdone, hrest, hexchange⟩

/-! ### Narrow reads -/

/-- The words a narrow read receives: its payload word after the turnaround word, if the function has one (42_function_access.md R162). -/
theorem turnaround_add_one (p : Params) (f : Nat) : turnaround p f + 1 = if f = p.fnBackplane then 2 else 1 := by
  rw [turnaround]; split <;> rfl

theorem deviceWords_succ_getLastD (s : State) (n : Nat) : (s.deviceWords (n + 1)).getLastD 0 = levelsWord s.deviceLevel (32 * n) := by
  rw [State.deviceWords, List.range_succ, List.map_append, List.map_singleton, List.getLastD_concat]

theorem readFunction_of_fit {f a : Nat} (n : Nat) (s : State) (hf : f ≤ 3) (ha : a ≤ 0x1FFFF) :
    readFunction f a n s = ((memRead f a n s).1, .done (.value (truncBytes n (memRead f a n s).2))) :=
  checked_of_none _ _ (checkRead_of_fit hf ha)

/-- A narrow read whose operands fit is one read transaction, and its result the low bytes of the last word received
(42_function_access.md R161, R164). -/
theorem exec_functionRead {i : Instr} {f a n : Nat} {s : State} (hi : bodyOf i = readFunction f a n) (hn : n = 1 ∨ n = 2 ∨ n = 4)
    (hq : Quiet s) (hrsf : s.params.readFraming = .rsf) (hf : f ≤ 3) (ha : a ≤ 0x1FFFF) :
    ∃ t, exec i s = .next t ∧ Completed t ∧ t.result = .value (truncBytes n (levelsWord s.deviceLevel (32 * turnaround s.params f))) ∧
      Exchange s t (txEvents [cw 0 1 f a n] ++ rxEvents (s.deviceWords (turnaround s.params f + 1)))
        (32 * (turnaround s.params f + 1)) ∧
      KeepsRest s t := by
  have ⟨_, hclk, hoe, _⟩ := hq
  obtain ⟨hlink, hword⟩ := memRead_link f a n (accept i s) hn hclk hoe hrsf
  rw [exec_eq_runOp]
  refine runOp_link_done hq ?_ hlink
  rw [hi, readFunction_of_fit n _ hf ha, hword]
  rfl

/-- The narrow reads are `MemRead` of 1, 2 and 4 bytes behind its checks (42_function_access.md R166 to R168). -/
theorem bodyOf_narrow_read (f a : Nat) :
    ∀ p ∈ [(Instr.rd8 f a, 1), (Instr.rd16 f a, 2), (Instr.rd32 f a, 4)],
      bodyOf p.1 = readFunction f a p.2 ∧ (p.2 = 1 ∨ p.2 = 2 ∨ p.2 = 4) := by
  intro p hp
  simp only [List.mem_cons, List.not_mem_nil, or_false] at hp
  obtain rfl | rfl | rfl := hp
  · exact ⟨rfl, .inl rfl⟩
  · exact ⟨rfl, .inr (.inl rfl)⟩
  · exact ⟨rfl, .inr (.inr rfl)⟩

/-- Settles O23: the transaction receives `t + 1` words, and the low bytes of the last are the result. -/
theorem functionReadReturnsPayload : Obligations.FunctionReadReturnsPayload := by
  intro f a s hq hrsf hf ha p hp
  obtain ⟨hbody, hn⟩ := bodyOf_narrow_read f a p hp
  obtain ⟨t, hexec, hdone, hresult, hexchange, hrest⟩ := exec_functionRead hbody hn hq hrsf hf ha
  refine ⟨t, s.deviceWords (turnaround s.params f + 1), hexec, hdone, hrest, by rw [turnaround_add_one], ?_, ?_⟩
  · rwa [deviceWords_length]
  · rw [hresult, deviceWords_succ_getLastD, truncBytes_eq _ _ hn]

/-! ### Rotated accesses -/

theorem deviceWords_one (s : State) : s.deviceWords 1 = [levelsWord s.deviceLevel 0] := rfl

/-- Settles O26: the body of `RD32S` is the rotated read (R175). -/
theorem rotatedReadExchangesHalves : Obligations.RotatedReadExchangesHalves := by
  intro a s hq hrsf ha
  have ⟨_, hclk, hoe, _⟩ := hq
  obtain ⟨hlink, hword⟩ := memReadRotated_link a (accept (.rd32s a) s) hclk hoe hrsf
  have hbody : bodyOf (.rd32s a) (accept (.rd32s a) s) =
      ((memReadRotated a (accept (.rd32s a) s)).1, .done (.value (rotate16 (levelsWord s.deviceLevel 0)))) := by
    rw [bodyOf, checked_of_none _ _ (checkField_of_le ha), hword]; rfl
  obtain ⟨t, hexec, hdone, hresult, hexchange, hrest⟩ := runOp_link_done hq hbody hlink
  exact ⟨t, _, (exec_eq_runOp _ s).trans hexec, hdone, hrest, deviceWords_one s, hexchange, hresult⟩

/-- Settles O27: the body of `WR32S` is the rotated write (R176). -/
theorem rotatedWriteExchangesHalves : Obligations.RotatedWriteExchangesHalves := by
  intro a v s hq ha
  have ⟨_, hclk, hoe, _⟩ := hq
  have hlink := memWriteRotated_link a v (accept (.wr32s a v) s) hclk hoe
  obtain ⟨t, hexec, hdone, hexchange, hrest⟩ :=
    runOp_link_doneNothing (body := bodyOf (.wr32s a v)) hq (by rw [bodyOf, checked_of_none _ _ (checkField_of_le ha)]) hlink
  exact ⟨t, (exec_eq_runOp _ s).trans hexec, hdone, hrest, hexchange⟩

/-! ### The turnaround word -/

theorem turnaround_fnBackplane (p : Params) : turnaround p p.fnBackplane = 1 := if_pos rfl

/-- A word depends on its own 32 levels, which come after those of the words before it. -/
theorem levelsWord_congr {level level' : Nat → Bool} {k : Nat} (h : ∀ j, k ≤ j → level' j = level j) :
    levelsWord level' k = levelsWord level k := by
  have hlevels : (fun j => level' (k + j)) = fun j => level (k + j) := funext fun j => h _ (Nat.le_add_right k j)
  rw [levelsWord_eq_shiftedIn, levelsWord_eq_shiftedIn, hlevels]

theorem readBackplane_of_aligned {b : Word} {n : Nat} (s : State) (hb : b.toNat % n = 0) :
    readBackplane b n s =
      ((memRead s.params.fnBackplane (busAddr s.params b n) n (setWindow b s)).1,
        .done (.value (truncBytes n (memRead s.params.fnBackplane (busAddr s.params b n) n (setWindow b s)).2))) :=
  checked_of_none _ _ (if_pos hb)

/-- A naturally aligned narrow backplane read returns the low bytes of the second word it receives: `SETWIN` receives none, and the first is the
turnaround word (43_window.md R204 to R206). -/
theorem exec_backplaneRead_result {i : Instr} {b : Word} {n : Nat} {s : State} (hi : bodyOf i = readBackplane b n)
    (hn : n = 1 ∨ n = 2 ∨ n = 4) (hq : Quiet s) (hrsf : s.params.readFraming = .rsf) (hb : b.toNat % n = 0) :
    ∃ t, exec i s = .next t ∧ t.result = .value (truncBytes n (levelsWord s.deviceLevel 32)) := by
  have ⟨hbusy, hclk, hoe, _⟩ := hq
  have hwindow := setWindow_window_link b (accept i s) hclk hoe
  obtain ⟨-, hword⟩ := memRead_link s.params.fnBackplane (busAddr s.params b n) n (setWindow b (accept i s)) hn hwindow.clk hwindow.oe
    (by rw [setWindow_params]; exact hrsf)
  have hlevels : (setWindow b (accept i s)).deviceLevel = s.deviceLevel := funext fun k => setWindow_deviceLevel b (accept i s) k hclk hoe
  rw [hlevels, setWindow_params, accept_params, turnaround_fnBackplane] at hword
  refine ⟨_, by rw [exec_eq_runOp, runOp_idle _ _ _ hbusy], ?_⟩
  rw [hi, readBackplane_of_aligned _ hb, report_done_result, accept_params, hword]

/-- From every idle state with the parameters `p` the operation returns low bytes of the second word received, the word of the 32 levels from
level 32 on. -/
def ReturnsSecondWord (p : Params) (i : Instr) : Prop :=
  ∃ n, ∀ s, Quiet s → s.params = p → ∃ t, exec i s = .next t ∧ t.result = .value (truncBytes n (levelsWord s.deviceLevel 32))

theorem functionRead_returnsSecondWord {i : Instr} {p : Params} {a n : Nat} (hi : bodyOf i = readFunction p.fnBackplane a n)
    (hn : n = 1 ∨ n = 2 ∨ n = 4) (hrsf : p.readFraming = .rsf) (hf : p.fnBackplane ≤ 3) (ha : a ≤ 0x1FFFF) : ReturnsSecondWord p i := by
  refine ⟨n, fun s hq hp => ?_⟩
  subst hp
  obtain ⟨t, hexec, -, hresult, -⟩ := exec_functionRead hi hn hq hrsf hf ha
  rw [turnaround_fnBackplane] at hresult
  exact ⟨t, hexec, hresult⟩

theorem backplaneRead_returnsSecondWord {i : Instr} {p : Params} {b : Word} {n : Nat} (hi : bodyOf i = readBackplane b n)
    (hn : n = 1 ∨ n = 2 ∨ n = 4) (hrsf : p.readFraming = .rsf) (hb : b.toNat % 4 = 0) : ReturnsSecondWord p i := by
  have haligned : b.toNat % n = 0 := by obtain rfl | rfl | rfl := hn <;> omega
  exact ⟨n, fun s hq hp => exec_backplaneRead_result hi hn hq (hp ▸ hrsf) haligned⟩

/-- Every narrow read on the backplane, function-addressed or through the window, drops the turnaround word (42_function_access.md R162). -/
theorem backplane_reads_return_secondWord {p : Params} {a : Nat} {b : Word} (hrsf : p.readFraming = .rsf) (hf : p.fnBackplane ≤ 3)
    (ha : a ≤ 0x1FFFF) (hb : b.toNat % 4 = 0) :
    ∀ i ∈ [Instr.rd8 p.fnBackplane a, .rd16 p.fnBackplane a, .rd32 p.fnBackplane a, .bpRd8 b, .bpRd16 b, .bpRd32 b],
      ReturnsSecondWord p i := by
  intro i hi
  simp only [List.mem_cons, List.not_mem_nil, or_false] at hi
  obtain rfl | rfl | rfl | rfl | rfl | rfl := hi
  · exact functionRead_returnsSecondWord (n := 1) rfl (by decide) hrsf hf ha
  · exact functionRead_returnsSecondWord (n := 2) rfl (by decide) hrsf hf ha
  · exact functionRead_returnsSecondWord (n := 4) rfl (by decide) hrsf hf ha
  · exact backplaneRead_returnsSecondWord (n := 1) rfl (by decide) hrsf hb
  · exact backplaneRead_returnsSecondWord (n := 2) rfl (by decide) hrsf hb
  · exact backplaneRead_returnsSecondWord (n := 4) rfl (by decide) hrsf hb

/-- Settles O29: what either state returns is made of the levels from 32 on, in which they agree. -/
theorem turnaroundWordIsIgnored : Obligations.TurnaroundWordIsIgnored := by
  intro a b s s' hq hq' hparams hrsf hlevels hf ha hb i hi
  obtain ⟨n, hread⟩ := backplane_reads_return_secondWord hrsf hf ha hb i hi
  obtain ⟨t, hexec, hresult⟩ := hread s hq rfl
  obtain ⟨t', hexec', hresult'⟩ := hread s' hq' hparams
  exact ⟨t, t', hexec, hexec', by rw [hresult, hresult', levelsWord_congr hlevels]⟩

end Sys2Proof.Machine
end

section
/-! PROOFS. Unit U3, the window (spec/43_window.md): `SETWIN` and the narrow backplane accesses. What `SETWIN` does to the link is
`setWindow_window_link`, a `Link` from the state whose `WINDOW` is already the new one; a narrow access is that link and one transaction's. What stands
here besides is the events of each window byte, what the checks name, and the arithmetic of the window. -/

namespace Sys2Proof.Machine

/-! ### Operations that move the window -/

/-- A body run from acceptance to report depends on the accepted state it starts in, not on the `WINDOW` before it. -/
theorem exec_eq_runOp_window (i : Instr) (s : State) (w : Word) :
    exec i s = runOp i (fun _ => bodyOf i (accept i s)) { s with window := w } := exec_eq_runOp i s

/-- An operation that sets `WINDOW` to `w`, does the rest of its work on the link and completes without a result. -/
theorem exec_window_doneNothing {i : Instr} {s u : State} {w : Word} {es : List Event} {n : Nat} (hq : Quiet s)
    (hbody : bodyOf i (accept i s) = (u, .doneNothing)) (hlink : Link { accept i s with window := w } u es n) :
    ∃ t, exec i s = .next t ∧ Completed t ∧ Exchange s t es n ∧ KeepsRest { s with window := w } t := by
  rw [exec_eq_runOp_window i s w]
  exact runOp_link_doneNothing hq hbody hlink

/-- An operation that sets `WINDOW` to `w`, does the rest of its work on the link and completes with a result. -/
theorem exec_window_done {i : Instr} {s u : State} {w : Word} {es : List Event} {n : Nat} {r : OpResult} (hq : Quiet s)
    (hbody : bodyOf i (accept i s) = (u, .done r)) (hlink : Link { accept i s with window := w } u es n) :
    ∃ t, exec i s = .next t ∧ Completed t ∧ t.result = r ∧ Exchange s t es n ∧ KeepsRest { s with window := w } t := by
  rw [exec_eq_runOp_window i s w]
  exact runOp_link_done hq hbody hlink

/-- `SETWIN` from an idle block (43_window.md R192 to R194). -/
theorem exec_setWin_exchange (a : Word) {s : State} (hq : Quiet s) :
    ∃ t, exec (.setWin a) s = .next t ∧ Completed t ∧ Exchange s t (windowEvents s.params s.window a) 0 ∧
      KeepsRest { s with window := windowOf s.params a } t := by
  have ⟨_, hclk, hoe, _⟩ := hq
  exact exec_window_doneNothing hq rfl (setWindow_window_link a (accept (.setWin a) s) hclk hoe)

/-! ### The events of one window byte -/

/-- What `SETWIN` puts on the link for the window byte `new`, whose register is `reg`, when the cached byte is `cached` (43_window.md R193). -/
def windowByteEvents (p : Params) (reg : Nat) (new cached : Byte) : List Event :=
  if new = cached then [] else txEvents [cw 1 1 p.fnBackplane reg 1, new.setWidth 32]

theorem windowByteEvents_of_ne {p : Params} {reg : Nat} {new cached : Byte} (h : new ≠ cached) :
    windowByteEvents p reg new cached = txEvents [cw 1 1 p.fnBackplane reg 1, new.setWidth 32] := if_neg h

theorem windowByteEvents_self (p : Params) (reg : Nat) (x : Byte) : windowByteEvents p reg x x = [] := if_pos rfl

/-- The events of `SETWIN` are those of the high, the middle and the low byte, in this order (43_window.md R192). -/
theorem windowEvents_eq (p : Params) (cached a : Word) :
    windowEvents p cached a = windowByteEvents p p.regWinHigh (topByte (windowOf p a)) (topByte cached) ++
      windowByteEvents p p.regWinMid (midByte (windowOf p a)) (midByte cached) ++
      windowByteEvents p p.regWinLow (lowByte (windowOf p a)) (lowByte cached) := by
  have hbyte (reg : Nat) (new old : Byte) :
      (if new = old then [] else [[cw 1 1 p.fnBackplane reg 1, new.setWidth 32]]).flatMap txEvents = windowByteEvents p reg new old := by
    rw [windowByteEvents]; split
    · rfl
    · exact List.flatMap_singleton txEvents _
  simp only [windowEvents, windowWrites, List.flatMap_append, hbyte]

/-- Into the window that is already cached nothing is written (43_window.md R196). -/
theorem windowEvents_windowOf_self (p : Params) (a : Word) : windowEvents p (windowOf p a) a = [] := by
  rw [windowEvents_eq, windowByteEvents_self, windowByteEvents_self, windowByteEvents_self]; rfl

/-- Settles O30: the byte writes of `SETWIN`, in order, and its frame with `WINDOW` at the new window. -/
theorem setWindowWritesDifferingBytes : Obligations.SetWindowWritesDifferingBytes := by
  intro a s hq
  obtain ⟨t, hexec, hdone, hexchange, houtside, hbytes, hwords, hwindow⟩ := exec_setWin_exchange a hq
  rw [windowEvents_eq] at hexchange
  exact ⟨t, hexec, hdone, hwindow, hexchange, houtside, hbytes, hwords⟩

/-! ### Counting the byte writes -/

/-- A written word is made of `Drive`, `Rise` and `Fall` (40_transport.md R114). -/
theorem mem_writtenWordEvents {e : Event} {w : Word} (h : e ∈ writtenWordEvents w) : (∃ b, e = .drive b) ∨ e = .rise ∨ e = .fall := by
  obtain ⟨b, -, hb⟩ := List.mem_flatMap.1 h
  obtain rfl | rfl | rfl : e = .drive b ∨ e = .rise ∨ e = .fall := by simpa using hb
  · exact .inl ⟨b, rfl⟩
  · exact .inr (.inl rfl)
  · exact .inr (.inr rfl)

/-- No bit-time of the words of a write call takes the line, and none samples it (40_transport.md R114). -/
theorem not_mem_writtenWords {e : Event} (hdrive : ∀ b, e ≠ .drive b) (hrise : e ≠ .rise) (hfall : e ≠ .fall) (ws : List Word) :
    e ∉ ws.flatMap writtenWordEvents := by
  intro he
  obtain ⟨w, -, hw⟩ := List.mem_flatMap.1 he
  obtain ⟨b, hb⟩ | h | h := mem_writtenWordEvents hw
  · exact hdrive b hb
  · exact hrise h
  · exact hfall h

theorem sample_not_mem_txEvents (b : Bool) (ws : List Word) : Event.sample b ∉ txEvents ws := by
  cases ws with
  | nil => exact List.not_mem_nil
  | cons w ws =>
    have hwords := not_mem_writtenWords (e := .sample b) (by simp) (by simp) (by simp) (w :: ws)
    simpa [txEvents] using hwords

/-- A write call takes the line once (40_transport.md R113). -/
theorem count_take_txEvents {ws : List Word} (h : ws ≠ []) : (txEvents ws).count .take = 1 := by
  cases ws with
  | nil => exact absurd rfl h
  | cons w ws =>
    have hwords := List.count_eq_zero.2 (not_mem_writtenWords (e := .take) (by simp) (by simp) (by simp) (w :: ws))
    rw [txEvents, List.cons_append, List.count_cons_self, List.count_append, hwords]; rfl

theorem pulses_length (n : Nat) : (pulses n).length = 2 * n := by simp [pulses, Nat.mul_comm]

/-- What `d` byte writes show on the link: the line taken `d` times, the clock edges of `2 * d` words, no sample (43_window.md R195). -/
structure WritesBytes (es : List Event) (d : Nat) : Prop where
  takes : es.count .take = d
  edges : (clockEdges es).length = 64 * (2 * d)
  samples : ∀ b, Event.sample b ∉ es

theorem WritesBytes.append {es fs : List Event} {d e : Nat} (h : WritesBytes es d) (k : WritesBytes fs e) : WritesBytes (es ++ fs) (d + e) where
  takes := by rw [List.count_append, h.takes, k.takes]
  edges := by rw [clockEdges_append, List.length_append, h.edges, k.edges]; omega
  samples b hb := (List.mem_append.1 hb).elim (h.samples b) (k.samples b)

/-- One window byte is one byte write if it differs from the cached one, and none if not. -/
theorem windowByteEvents_writesBytes (p : Params) (reg : Nat) (new cached : Byte) :
    WritesBytes (windowByteEvents p reg new cached) ([decide (new ≠ cached)].count true) := by
  by_cases h : new = cached
  · subst h
    rw [windowByteEvents_self]
    exact ⟨by simp, by simp [clockEdges], fun _ => List.not_mem_nil⟩
  · rw [windowByteEvents_of_ne h, show [decide (new ≠ cached)].count true = 1 by simp [h]]
    exact ⟨count_take_txEvents (List.cons_ne_nil _ _), by rw [clockEdges_txEvents, pulses_length]; rfl,
      fun b => sample_not_mem_txEvents b _⟩

/-- Settles O31: the counts of the three window bytes, added up. -/
theorem setWindowCountsDifferingBytes : Obligations.SetWindowCountsDifferingBytes := by
  intro a s t hq ht
  obtain ⟨t', hexec, -, ⟨htrace, -⟩, -⟩ := exec_setWin_exchange a hq
  obtain rfl := Host.Outcome.next.inj (ht.symm.trans hexec)
  rw [windowEvents_eq] at htrace
  refine ⟨_, htrace, List.count_le_length, ?_⟩
  obtain ⟨htakes, hedges, hsamples⟩ := ((windowByteEvents_writesBytes s.params s.params.regWinHigh _ _).append
    (windowByteEvents_writesBytes s.params s.params.regWinMid _ _)).append (windowByteEvents_writesBytes s.params s.params.regWinLow _ _)
  rw [← List.count_append, ← List.count_append] at htakes hedges
  exact ⟨htakes, hedges, hsamples⟩

/-! ### Two requests in a row, and two requests for one window -/

/-- Settles O32: the second `SETWIN` finds the window of the first in `WINDOW`. -/
theorem setWindowAgainWritesDifference : Obligations.SetWindowAgainWritesDifference := by
  intro a b s t hq ht
  obtain ⟨t', hexec, ⟨hquiet, -⟩, -, ⟨-, -, hparams, -⟩, -, -, hwindow⟩ := exec_setWin_exchange a hq
  obtain rfl := Host.Outcome.next.inj (ht.symm.trans hexec)
  obtain ⟨u, hexec', -, ⟨htrace, -⟩, -, -, -, hwindow'⟩ := exec_setWin_exchange b hquiet
  replace hparams : t.params = s.params := hparams
  replace hwindow : t.window = windowOf s.params a := hwindow
  replace hwindow' : u.window = windowOf t.params b := hwindow'
  rw [hparams] at htrace hwindow'
  rw [hwindow] at htrace
  refine ⟨u, hexec', htrace, fun hsame => ⟨?_, by rw [hwindow', hwindow, hsame]⟩⟩
  rw [htrace, ← hsame, windowEvents_windowOf_self, List.append_nil]

/-- `SETWIN` uses its address only for its window (43_window.md R199). -/
theorem setWindow_congr {a b : Word} {s : State} (h : windowOf s.params a = windowOf s.params b) : setWindow a s = setWindow b s := by
  simp only [setWindow, h]

/-- The operation recorded in `OP` passes through a window byte's write (log 35). -/
theorem writeWindowByte_with_op (reg : Nat) (new cached : Byte) {s : State} (o : Option Instr) (hclk : s.clk = false)
    (hoe : s.dioOe = false) :
    writeWindowByte reg new cached { s with op := o } = { writeWindowByte reg new cached s with op := o } := by
  unfold writeWindowByte
  split
  · rfl
  · simp only [memWrite, writeTransaction]
    rw [txWords_eq_sent _ s (List.cons_ne_nil _ _) hclk hoe, txWords_eq_sent _ { s with op := o } (List.cons_ne_nil _ _) hclk hoe]
    rfl

theorem setWindow_with_op (a : Word) {s : State} (o : Option Instr) (hclk : s.clk = false) (hoe : s.dioOe = false) :
    setWindow a { s with op := o } = { setWindow a s with op := o } := by
  have hhigh := writeWindowByte_link s.params.regWinHigh (topByte (windowOf s.params a)) (topByte s.window) s hclk hoe
  have hmid := writeWindowByte_link s.params.regWinMid (midByte (windowOf s.params a)) (midByte s.window) _ hhigh.clk hhigh.oe
  simp only [setWindow]
  rw [writeWindowByte_with_op _ _ _ o hclk hoe, writeWindowByte_with_op _ _ _ o hhigh.clk hhigh.oe,
    writeWindowByte_with_op _ _ _ o hmid.clk hmid.oe]

/-- `SETWIN` between acceptance and report, from a block that is not busy. -/
theorem exec_setWin_eq (a : Word) {s : State} (h : s.busy = false) :
    exec (.setWin a) s = .next (report .doneNothing (setWindow a (accept (.setWin a) s))) :=
  (exec_eq_runOp _ s).trans (runOp_idle _ (bodyOf (.setWin a)) s h)

/-- Settles O33: accepting the other operation changes `OP` only, and the window is all that `SETWIN` uses of its address. -/
theorem sameWindowIsSameRequest : Obligations.SameWindowIsSameRequest := by
  intro a b s t hq hsame ht
  have ⟨hbusy, hclk, hoe, _⟩ := hq
  obtain rfl := Host.Outcome.next.inj (ht.symm.trans (exec_setWin_eq a hbusy))
  have hwindow : setWindow b (accept (.setWin b) s) = { setWindow a (accept (.setWin a) s) with op := some (.setWin b) } := calc
    setWindow b (accept (.setWin b) s) = setWindow a (accept (.setWin b) s) :=
      setWindow_congr (s := accept (.setWin b) s) hsame.symm
    _ = setWindow a { accept (.setWin a) s with op := some (.setWin b) } := rfl
    _ = { setWindow a (accept (.setWin a) s) with op := some (.setWin b) } := setWindow_with_op a _ hclk hoe
  rw [exec_setWin_eq b hbusy, hwindow]
  rfl

/-! ### The checks of a narrow access -/

theorem checkAligned_of_aligned {n : Nat} {a : Word} (h : a.toNat % n = 0) : checkAligned n a = none := if_pos h

theorem checkAligned_of_misaligned {n : Nat} {a : Word} (h : a.toNat % n ≠ 0) :
    checkAligned n a = some (errRecord .misaligned (.address a)) := if_neg h

/-- A misaligned write is rejected for its address, whatever its value (43_window.md R202). -/
theorem checkBackplaneWrite_of_misaligned {n : Nat} {a : Word} (v : Word) (h : a.toNat % n ≠ 0) :
    checkBackplaneWrite n a v = some (errRecord .misaligned (.address a)) := by
  rw [checkBackplaneWrite, checkAligned_of_misaligned h, firstOf_some]

theorem checkBackplaneWrite_of_wide {n : Nat} {a v : Word} (h : a.toNat % n = 0) (hv : 2 ^ (8 * n) ≤ v.toNat) :
    checkBackplaneWrite n a v = some (errRecord .fieldRange (.operand v.toNat)) := by
  rw [checkBackplaneWrite, checkAligned_of_aligned h, firstOf_none, checkValue_of_wide hv]

theorem checkBackplaneWrite_of_fit {n : Nat} {a v : Word} (h : a.toNat % n = 0) (hv : v.toNat < 2 ^ (8 * n)) :
    checkBackplaneWrite n a v = none := by
  rw [checkBackplaneWrite, checkAligned_of_aligned h, firstOf_none, checkValue_of_fit hv]

/-- Settles O38: each form stands behind its checks, which name the address before the value. -/
theorem backplaneAccessChecksInOrder : Obligations.BackplaneAccessChecksInOrder := by
  intro a v s hq
  constructor
  · simp only [List.forall_mem_cons]
    exact ⟨fun h => exec_rejected hq rfl (checkAligned_of_misaligned h), fun h => exec_rejected hq rfl (checkAligned_of_misaligned h),
      fun h => exec_rejected hq rfl (checkBackplaneWrite_of_misaligned v h),
      fun h => exec_rejected hq rfl (checkBackplaneWrite_of_misaligned v h), List.forall_mem_nil _⟩
  · simp only [List.forall_mem_cons]
    exact ⟨fun h hv => exec_rejected hq rfl (checkBackplaneWrite_of_wide h hv),
      fun h hv => exec_rejected hq rfl (checkBackplaneWrite_of_wide h hv), List.forall_mem_nil _⟩

/-! ### Narrow backplane accesses -/

/-- The bus address of an access: the offset, with the 32-bit flag for four bytes only (43_window.md R201). -/
theorem busAddr_eq (p : Params) (a : Word) (n : Nat) :
    busAddr p a n = (if n = 4 then (a &&& p.windowMask) ||| p.access32Flag else a &&& p.windowMask).toNat := by
  unfold busAddr
  split <;> rfl

/-- The narrow backplane reads are one read of 1, 2 and 4 bytes (43_window.md R204 to R206). -/
theorem bodyOf_backplane_read (a : Word) :
    ∀ p ∈ [(Instr.bpRd8 a, 1), (Instr.bpRd16 a, 2), (Instr.bpRd32 a, 4)],
      bodyOf p.1 = readBackplane a p.2 ∧ (p.2 = 1 ∨ p.2 = 2 ∨ p.2 = 4) := by
  rw [List.forall_mem_cons, List.forall_mem_cons, List.forall_mem_cons]
  exact ⟨⟨rfl, .inl rfl⟩, ⟨rfl, .inr (.inl rfl)⟩, ⟨rfl, .inr (.inr rfl)⟩, List.forall_mem_nil _⟩

/-- The narrow backplane writes are one write of 1, 2 and 4 bytes (43_window.md R207 to R209). -/
theorem bodyOf_backplane_write (a v : Word) :
    ∀ p ∈ [(Instr.bpWr8 a v, 1), (Instr.bpWr16 a v, 2), (Instr.bpWr32 a v, 4)], bodyOf p.1 = writeBackplane a p.2 v := by
  simp only [List.forall_mem_cons]
  exact ⟨rfl, rfl, rfl, List.forall_mem_nil _⟩

theorem deviceWords_two (s : State) : s.deviceWords 2 = [levelsWord s.deviceLevel 0, levelsWord s.deviceLevel 32] := rfl

/-- An aligned narrow backplane read: `SETWIN`, then the header and two words received, of which the second is the payload (43_window.md R204,
R210). -/
theorem readBackplane_link {a : Word} {n : Nat} {s : State} (hn : n = 1 ∨ n = 2 ∨ n = 4) (hclk : s.clk = false) (hoe : s.dioOe = false)
    (hrsf : s.params.readFraming = .rsf) (ha : a.toNat % n = 0) :
    ∃ u, readBackplane a n s = (u, .done (.value (truncBytes n (levelsWord s.deviceLevel 32)))) ∧
      Link { s with window := windowOf s.params a } u
        (windowEvents s.params s.window a ++
          (txEvents [cw 0 1 s.params.fnBackplane (busAddr s.params a n) n] ++ rxEvents (s.deviceWords 2))) 64 := by
  have hwindow := setWindow_window_link a s hclk hoe
  have hlevels : (setWindow a s).deviceLevel = s.deviceLevel := funext fun k => setWindow_deviceLevel a s k hclk hoe
  obtain ⟨hread, hword⟩ := memRead_link s.params.fnBackplane (busAddr s.params a n) n (setWindow a s) hn hwindow.clk hwindow.oe
    (by rw [setWindow_params]; exact hrsf)
  rw [setWindow_params, turnaround_fnBackplane] at hread hword
  rw [deviceWords_congr _ (congrFun hlevels)] at hread
  rw [hlevels] at hword
  exact ⟨_, by rw [readBackplane_of_aligned s ha, hword], hwindow.append hread⟩

/-- An aligned narrow backplane write of a value that fits passes its checks (43_window.md R202, R207, R210). -/
theorem writeBackplane_of_fit {a v : Word} {n : Nat} (s : State) (ha : a.toNat % n = 0) (hv : v.toNat < 2 ^ (8 * n)) :
    writeBackplane a n v s = (memWrite s.params.fnBackplane (busAddr s.params a n) n v (setWindow a s), .doneNothing) :=
  checked_of_none _ _ (checkBackplaneWrite_of_fit ha hv)

/-- Settles O37: `SETWIN`'s link, then that of one write. -/
theorem backplaneWriteSendsValue : Obligations.BackplaneWriteSendsValue := by
  intro a v s hq p hp ha hv
  have ⟨_, hclk, hoe, _⟩ := hq
  have hwindow := setWindow_window_link a (accept p.1 s) hclk hoe
  have hwrite := memWrite_link s.params.fnBackplane (busAddr s.params a p.2) p.2 v (setWindow a (accept p.1 s)) hwindow.clk hwindow.oe
  have hbody := writeBackplane_of_fit (accept p.1 s) ha hv
  rw [← bodyOf_backplane_write a v p hp] at hbody
  obtain ⟨t, hexec, hdone, hexchange, houtside, hbytes, hwords, hset⟩ := exec_window_doneNothing hq hbody (hwindow.append hwrite)
  rw [busAddr_eq] at hexchange
  exact ⟨t, hexec, hdone, hexchange, hset, houtside, hbytes, hwords⟩

/-- Settles O36: `SETWIN`'s link, then that of one read, whose second word is the payload. -/
theorem backplaneReadReturnsPayload : Obligations.BackplaneReadReturnsPayload := by
  intro a s hq hrsf p hp ha
  have ⟨_, hclk, hoe, _⟩ := hq
  obtain ⟨hbody, hn⟩ := bodyOf_backplane_read a p hp
  obtain ⟨u, hread, hlink⟩ := readBackplane_link (s := accept p.1 s) hn hclk hoe hrsf ha
  rw [← hbody] at hread
  obtain ⟨t, hexec, hdone, hresult, hexchange, houtside, hbytes, hwords, hset⟩ := exec_window_done hq hread hlink
  rw [← List.append_assoc, busAddr_eq] at hexchange
  exact ⟨t, _, _, hexec, hdone, deviceWords_two s, hexchange, hset, by rw [hresult, truncBytes_eq _ _ hn]; rfl, houtside, hbytes, hwords⟩

/-! ### The arithmetic of the window -/

/-- The window size is a multiple of an access width, so an access that starts at a multiple of its width ends in its window
(43_window.md R203). -/
theorem offsetOf_add_le {p : Params} (h : p.Wf) {a : Word} {n : Nat} (hn : n = 1 ∨ n = 2 ∨ n = 4) (ha : a.toNat % n = 0) :
    (offsetOf p a).toNat + n ≤ p.windowSize := by
  obtain ⟨k, hk, -, hsize, -⟩ := Params.Wf.mask_shape h
  have hwidth : n ∣ p.windowSize := by
    have hfour : 4 ∣ p.windowSize := hsize ▸ pow_dvd_pow 2 (show 2 ≤ k by omega)
    obtain rfl | rfl | rfl := hn <;> omega
  have hpos : 0 < p.windowSize := hsize ▸ Nat.two_pow_pos k
  have hoffset : n ∣ a.toNat % p.windowSize := (Nat.dvd_mod_iff hwidth).2 (Nat.dvd_of_mod_eq_zero ha)
  rw [offsetOf_toNat h]
  exact Nat.ModEq.add_le_of_lt ((Nat.modEq_zero_iff_dvd.2 hoffset).trans (Nat.modEq_zero_iff_dvd.2 hwidth).symm) (Nat.mod_lt _ hpos)

/-- The offset and the 32-bit flag are numbers of 17 bits (43_window.md R201). -/
theorem busAddr_le {p : Params} (h : p.Wf) (a : Word) (n : Nat) : busAddr p a n ≤ 0x1FFFF := by
  obtain ⟨k, -, hk, hsize, -⟩ := Params.Wf.mask_shape h
  have hoffset : (offsetOf p a).toNat < 2 ^ 17 := by
    have hlt : a.toNat % p.windowSize < 2 ^ k := hsize ▸ Nat.mod_lt _ (hsize ▸ Nat.two_pow_pos k)
    rw [offsetOf_toNat h]
    exact hlt.trans (Nat.pow_lt_pow_right (by decide) (by omega))
  have hflag : p.access32Flag.toNat < 2 ^ 17 := by
    obtain ⟨j, hj, e⟩ := h.access32_one_bit
    rw [e]
    exact Nat.pow_lt_pow_right (by decide) (List.mem_range.1 hj)
  refine Nat.le_of_lt_succ ?_
  unfold busAddr
  split
  · rw [BitVec.toNat_or]; exact Nat.or_lt_two_pow hoffset hflag
  · exact hoffset

/-- Settles O39: the end of an aligned access by divisibility, its bus address by the 17 bits of offset and flag. -/
theorem narrowAccessStaysInWindow : Obligations.NarrowAccessStaysInWindow :=
  fun _ a n h hn ha => ⟨offsetOf_add_le h hn ha, busAddr_le h a n⟩

/-! ### The first `SETWIN` after reset -/

/-- A byte of the window is the byte of the address without the mask's bits (43_window.md R190, R191). -/
theorem extractLsb'_windowOf (p : Params) (a : Word) {lo n : Nat} (h : lo + n ≤ 32) :
    (windowOf p a).extractLsb' lo n = a.extractLsb' lo n &&& ~~~p.windowMask.extractLsb' lo n := by
  refine BitVec.eq_of_getLsbD_eq fun j hj => ?_
  simp [windowOf, hj, show lo + j < 32 by omega]

theorem topByte_windowOf_defaults (a : Word) : topByte (windowOf Config.defaults a) = a.extractLsb' 24 8 := by
  rw [topByte, extractLsb'_windowOf _ _ (by decide), show ~~~Config.defaults.windowMask.extractLsb' 24 8 = BitVec.allOnes 8 by decide,
    BitVec.and_allOnes]

theorem midByte_windowOf_defaults (a : Word) : midByte (windowOf Config.defaults a) = a.extractLsb' 16 8 := by
  rw [midByte, extractLsb'_windowOf _ _ (by decide), show ~~~Config.defaults.windowMask.extractLsb' 16 8 = BitVec.allOnes 8 by decide,
    BitVec.and_allOnes]

/-- With the default window of 32 KB the low window byte holds bit 15 of the address only. -/
theorem lowByte_windowOf_defaults (a : Word) : lowByte (windowOf Config.defaults a) = if a.getLsbD 15 then 0x80#8 else 0#8 := by
  rw [lowByte, extractLsb'_windowOf _ _ (by decide), show ~~~Config.defaults.windowMask.extractLsb' 8 8 = BitVec.twoPow 8 7 by decide,
    BitVec.and_twoPow]
  simp [BitVec.twoPow]

/-- Settles O35: the byte writes of `SETWIN` with the default parameters, the sentinel's bytes being 0xAA. -/
theorem firstSetWindowSkipsSentinelBytes : Obligations.FirstSetWindowSkipsSentinelBytes := by
  intro a
  obtain ⟨t, hexec, -, ⟨htrace, -⟩, -⟩ := exec_setWin_exchange a (s := State.reset) ⟨rfl, rfl, rfl, rfl⟩
  refine ⟨t, hexec, ?_⟩
  have hlow : (if a.getLsbD 15 then 0x80#8 else 0#8) ≠ 0xAA#8 := by split <;> decide
  rw [htrace, windowEvents_eq]
  change [] ++ (windowByteEvents Config.defaults 0x1000C (topByte (windowOf Config.defaults a)) 0xAA#8 ++
    windowByteEvents Config.defaults 0x1000B (midByte (windowOf Config.defaults a)) 0xAA#8 ++
    windowByteEvents Config.defaults 0x1000A (lowByte (windowOf Config.defaults a)) 0xAA#8) = _
  rw [topByte_windowOf_defaults, midByte_windowOf_defaults, lowByte_windowOf_defaults, windowByteEvents_of_ne hlow, List.nil_append,
    apply_ite (BitVec.setWidth 32)]
  rfl

end Sys2Proof.Machine
end

section
/-! PROOFS. The chunk plan of a block (spec/44_block.md R222, R223). With parameters within their constraints the fuel of `chunks` never runs out, so the
plan unfolds as R223 writes it; the laws of the plan follow by the induction `chunks_induction`, which cuts one chunk off a block. -/

namespace Sys2Proof.Machine

/-! ### The plan unfolds -/

@[simp] theorem chunks_zero (p : Params) (a : Nat) : chunks p a 0 = [] := rfl

theorem chunks_of_ne_zero {p : Params} (h : p.Wf) (a : Nat) {n : Nat} (hn : n ≠ 0) :
    chunks p a n = (a, chunkLength p a n) :: chunks p (a + chunkLength p a n) (n - chunkLength p a n) := by
  obtain ⟨m, rfl⟩ := Nat.exists_eq_succ_of_ne_zero hn
  obtain ⟨hpos, -⟩ := chunkLength_bounds h a (m + 1) hn
  have hfuel := chunksUpTo_fuel h m (m + 1 - chunkLength p a (m + 1)) (a + chunkLength p a (m + 1)) _ (by omega) le_rfl
  rw [chunks, chunksUpTo, if_neg hn]
  exact congrArg _ hfuel

/-- Settles O40: a block of some bytes starts with the chunk of the model's chunk length, which is R222's minimum. -/
theorem chunkPlanUnfolds : Obligations.ChunkPlanUnfolds := by
  intro p a n h
  split
  · next hn => rw [hn, chunks_zero]
  · next hn => exact chunks_of_ne_zero h a hn

/-- Induction along the plan: from the block that one chunk leaves over to the whole block. -/
theorem chunks_induction {p : Params} (h : p.Wf) {motive : Nat → Nat → Prop} (empty : ∀ a, motive a 0)
    (chunk : ∀ a n, n ≠ 0 → motive (a + chunkLength p a n) (n - chunkLength p a n) → motive a n) (a n : Nat) : motive a n := by
  induction n using Nat.strong_induction_on generalizing a with
  | _ n ih =>
    by_cases hn : n = 0
    · exact hn ▸ empty a
    · obtain ⟨hpos, -⟩ := chunkLength_bounds h a n hn
      exact chunk a n hn (ih _ (by omega) _)

/-! ### The limits of a chunk -/

/-- A chunk is not empty, and neither the maximum transfer nor its window ends before it (44_block.md R222). -/
theorem chunk_le_limits {p : Params} (h : p.Wf) (a n : Nat) :
    ∀ x ∈ chunks p a n, 1 ≤ x.2 ∧ x.2 ≤ p.maxTransferSize ∧ x.2 ≤ windowRemaining p (BitVec.ofNat 32 x.1) := by
  induction a, n using chunks_induction h with
  | empty a => exact List.forall_mem_nil _
  | chunk a n hn ih =>
    obtain ⟨hpos, -, hmax, hwindow⟩ := chunkLength_bounds h a n hn
    rw [chunks_of_ne_zero h a hn, List.forall_mem_cons]
    exact ⟨⟨hpos, hmax, hwindow⟩, ih⟩

/-- A chunk ends inside the window it starts in (44_block.md R222). -/
theorem chunk_ends_in_window {p : Params} (h : p.Wf) {a n : Nat} {x : Nat × Nat} (hx : x ∈ chunks p a n) :
    (offsetOf p (BitVec.ofNat 32 x.1)).toNat + x.2 ≤ p.windowSize := by
  obtain ⟨hpos, -, hwindow⟩ := chunk_le_limits h a n x hx
  rw [windowRemaining] at hwindow
  omega

theorem chunk_inside_block {p : Params} (h : p.Wf) (a n : Nat) : ∀ x ∈ chunks p a n, a ≤ x.1 ∧ x.1 + x.2 ≤ a + n := by
  induction a, n using chunks_induction h with
  | empty a => exact List.forall_mem_nil _
  | chunk a n hn ih =>
    obtain ⟨-, hle, -⟩ := chunkLength_bounds h a n hn
    rw [chunks_of_ne_zero h a hn, List.forall_mem_cons]
    refine ⟨⟨le_rfl, by omega⟩, fun x hx => ?_⟩
    obtain ⟨hstart, hend⟩ := ih x hx
    omega

/-- The maximum transfer and the window size are multiples of 4, so a chunk from an aligned address that is not the last one has a length that is. -/
theorem chunkLength_aligned {p : Params} (h : p.Wf) {a n : Nat} (ha : a % 4 = 0) :
    chunkLength p a n = n ∨ chunkLength p a n % 4 = 0 := by
  obtain ⟨k, hk, -, hsize, -⟩ := Params.Wf.mask_shape h
  obtain ⟨hmax, -⟩ := h.max_transfer
  have hwindow : 4 ∣ p.windowSize := hsize ▸ pow_dvd_pow 2 (show 2 ≤ k by omega)
  have haddr : 4 ∣ (BitVec.ofNat 32 a).toNat := by rw [BitVec.toNat_ofNat]; omega
  have hoffset : 4 ∣ (offsetOf p (BitVec.ofNat 32 a)).toNat := by rw [offsetOf_toNat h]; exact (Nat.dvd_mod_iff hwindow).2 haddr
  unfold chunkLength windowRemaining
  omega

theorem chunk_aligned {p : Params} (h : p.Wf) (a n : Nat) (ha : a % 4 = 0) : ∀ x ∈ chunks p a n, x.1 % 4 = 0 := by
  induction a, n using chunks_induction h with
  | empty a => exact List.forall_mem_nil _
  | chunk a n hn ih =>
    rw [chunks_of_ne_zero h a hn, List.forall_mem_cons]
    refine ⟨ha, ?_⟩
    obtain hlast | hlength := chunkLength_aligned (n := n) h ha
    · rw [hlast, Nat.sub_self, chunks_zero]; exact List.forall_mem_nil _
    · exact ih (by omega)

/-- Settles O41: the bounds of the chunk length hold of every chunk, and the chunks stay inside the block and aligned. -/
theorem chunksStayWithinLimits : Obligations.ChunksStayWithinLimits := by
  intro p a n h _ x hx
  obtain ⟨hpos, hmax, -⟩ := chunk_le_limits h a n x hx
  obtain ⟨-, -, hmax'⟩ := h.max_transfer
  obtain ⟨hstart, hend⟩ := chunk_inside_block h a n x hx
  exact ⟨hpos, hmax, hmax.trans hmax', chunk_ends_in_window h hx, hstart, hend, fun ha => chunk_aligned h a n ha x hx⟩

/-! ### The chunks together -/

theorem sum_chunks {p : Params} (h : p.Wf) (a n : Nat) : ((chunks p a n).map (·.2)).sum = n := by
  induction a, n using chunks_induction h with
  | empty a => rfl
  | chunk a n hn ih =>
    obtain ⟨-, hle, -⟩ := chunkLength_bounds h a n hn
    rw [chunks_of_ne_zero h a hn, List.map_cons, List.sum_cons, ih, Nat.add_sub_cancel' hle]

/-- Each chunk starts where those before it end (44_block.md R223). -/
theorem chunks_contiguous {p : Params} (h : p.Wf) (a n : Nat) (k : Nat) (hk : k < (chunks p a n).length) :
    ((chunks p a n)[k]).1 = a + (((chunks p a n).take k).map (·.2)).sum := by
  induction a, n using chunks_induction h generalizing k with
  | empty a => exact absurd hk (Nat.not_lt_zero k)
  | chunk a n hn ih =>
    simp only [chunks_of_ne_zero h a hn] at hk ⊢
    cases k with
    | zero => rfl
    | succ k =>
      rw [List.getElem_cons_succ, ih k (Nat.lt_of_succ_lt_succ hk), List.take_succ_cons, List.map_cons, List.sum_cons, Nat.add_assoc]

theorem le_length_chunks_mul {p : Params} (h : p.Wf) (a n : Nat) : n ≤ (chunks p a n).length * p.maxTransferSize := by
  have hlengths : ∀ c ∈ (chunks p a n).map (·.2), c ≤ p.maxTransferSize := by
    rw [List.forall_mem_map]
    intro x hx
    obtain ⟨-, hmax, -⟩ := chunk_le_limits h a n x hx
    exact hmax
  calc n = ((chunks p a n).map (·.2)).sum := (sum_chunks h a n).symm
    _ ≤ ((chunks p a n).map (·.2)).length * p.maxTransferSize := List.sum_le_card_nsmul _ _ hlengths
    _ = (chunks p a n).length * p.maxTransferSize := by rw [List.length_map]

/-- Settles O42: the three laws, each by induction along the plan. -/
theorem chunksCoverTransfer : Obligations.ChunksCoverTransfer :=
  fun _ a n h => ⟨sum_chunks h a n, chunks_contiguous h a n, le_length_chunks_mul h a n⟩

/-! ### One window -/

/-- Up to the end of its window, an address has the window of the addresses before it (43_window.md R190). -/
theorem windowOf_add {p : Params} (h : p.Wf) {b j : Nat} (hb : b + j < 2 ^ 32)
    (hj : (offsetOf p (BitVec.ofNat 32 b)).toNat + j < p.windowSize) :
    windowOf p (BitVec.ofNat 32 (b + j)) = windowOf p (BitVec.ofNat 32 b) := by
  have hstart : (BitVec.ofNat 32 b).toNat = b := Nat.mod_eq_of_lt (by omega)
  have haddr : (BitVec.ofNat 32 (b + j)).toNat = b + j := Nat.mod_eq_of_lt hb
  rw [offsetOf_toNat h, hstart] at hj
  have hoffset : (b + j) % p.windowSize = b % p.windowSize + j := by
    rw [← Nat.mod_add_mod, Nat.mod_eq_of_lt hj]
  refine BitVec.eq_of_toNat_eq ?_
  rw [windowOf_toNat h, windowOf_toNat h, hstart, haddr, hoffset, Nat.add_sub_add_right]

/-- Settles O43: a chunk ends inside its window, and below `2 ^ 32` the addresses do not wrap. -/
theorem chunkLiesInOneWindow : Obligations.ChunkLiesInOneWindow := by
  intro p a n h hn x hx j hj
  obtain ⟨-, hend⟩ := chunk_inside_block h a n x hx
  exact windowOf_add h (by omega) (lt_of_lt_of_le (Nat.add_lt_add_left hj _) (chunk_ends_in_window h hx))

end Sys2Proof.Machine
end

section
/-! PROOFS. The block operations `BP.RDBLK` and `BP.WRBLK` (spec/44_block.md R221 to R231). What the chunks do to the link is `readChunks_link` and
`writeChunks_link`; what stands here besides is the checks before them, how many bytes a read delivers, and that a write's events depend on the buffer
only from its first index on. -/

namespace Sys2Proof.Machine

/-! ### The checks -/

/-- The two low address bits that the check reads are the remainder by 4 (44_block.md R221). -/
theorem extractLsb'_low_two_eq_zero_iff (a : Word) : a.extractLsb' 0 2 = 0 ↔ a.toNat % 4 = 0 := by
  rw [← BitVec.toNat_inj, BitVec.extractLsb'_toNat]
  rfl

/-- A misaligned block is rejected for its address, whatever its count. -/
theorem checkBlock_of_misaligned {a : Word} (n : Nat) (h : a.toNat % 4 ≠ 0) :
    checkBlock a n = some (errRecord .misaligned (.address a)) := by
  rw [checkBlock, if_neg (mt (extractLsb'_low_two_eq_zero_iff a).1 h), firstOf_some]

theorem checkBlock_of_outside {a : Word} {n : Nat} (h : a.toNat % 4 = 0) (hn : 2 ^ 32 < a.toNat + n) :
    checkBlock a n = some (errRecord .addressRange (.addressCount a n)) := by
  rw [checkBlock, if_pos ((extractLsb'_low_two_eq_zero_iff a).2 h), firstOf_none, if_neg (Nat.not_le.2 hn)]

theorem checkBlock_of_inside {a : Word} {n : Nat} (h : a.toNat % 4 = 0) (hn : a.toNat + n ≤ 2 ^ 32) : checkBlock a n = none := by
  rw [checkBlock, if_pos ((extractLsb'_low_two_eq_zero_iff a).2 h), firstOf_none, if_pos hn]

/-- Settles O46: both operations stand behind the same checks, alignment before range. -/
theorem blockChecksInOrder : Obligations.BlockChecksInOrder := by
  intro a buf n s hq i hi
  obtain ⟨body, hbody⟩ : ∃ body, bodyOf i = checked (checkBlock a n) body := by
    simp only [List.mem_cons, List.not_mem_nil, or_false] at hi
    obtain rfl | rfl := hi
    · exact ⟨_, rfl⟩
    · exact ⟨_, rfl⟩
  exact ⟨fun h => exec_rejected hq hbody (checkBlock_of_misaligned n h),
    fun h hn => exec_rejected hq hbody (checkBlock_of_outside h hn)⟩

theorem bodyOf_bpRdBlk_of_inside {a : Word} (buf : Nat) {n : Nat} (s : State) (h : a.toNat % 4 = 0) (hn : a.toNat + n ≤ 2 ^ 32) :
    bodyOf (.bpRdBlk a buf n) s = (readChunks (chunks s.params a.toNat n) buf s, .doneNothing) := by
  rw [bodyOf, checked_of_none _ _ (checkBlock_of_inside h hn)]

theorem bodyOf_bpWrBlk_of_inside {a : Word} (buf : Nat) {n : Nat} (s : State) (h : a.toNat % 4 = 0) (hn : a.toNat + n ≤ 2 ^ 32) :
    bodyOf (.bpWrBlk a buf n) s = (writeChunks (chunks s.params a.toNat n) buf s, .doneNothing) := by
  rw [bodyOf, checked_of_none _ _ (checkBlock_of_inside h hn)]

/-! ### The empty block -/

/-- An operation whose body leaves the accepted state as it is and has no result completes, and nothing but the host port changes. -/
theorem exec_doneNothing_of_silent {i : Instr} {s : State} (hq : Quiet s) (hbody : bodyOf i (accept i s) = (accept i s, .doneNothing)) :
    ∃ t, exec i s = .next t ∧ Completed t ∧ KeepsTransport s t ∧ KeepsRest s t := by
  have ⟨hbusy, hclk, hoe, _⟩ := hq
  rw [exec_eq_runOp]
  obtain ⟨hnext, htransport, hrest⟩ := runOp_silent hbusy hbody
  exact ⟨_, hnext, ⟨⟨rfl, hclk, hoe, rfl⟩, rfl⟩, htransport, hrest⟩

/-- Settles O47: the plan of no bytes has no chunk. -/
theorem emptyBlockDoesNothing : Obligations.EmptyBlockDoesNothing := by
  intro a buf s hq ha
  have hn : a.toNat + 0 ≤ 2 ^ 32 := a.isLt.le
  simp only [List.forall_mem_cons]
  exact ⟨exec_doneNothing_of_silent hq (bodyOf_bpRdBlk_of_inside buf _ ha hn),
    exec_doneNothing_of_silent hq (bodyOf_bpWrBlk_of_inside buf _ ha hn), List.forall_mem_nil _⟩

/-! ### `BP.WRBLK` -/

/-- The buffer seen from index `src` on, with a cursor that counts from there (44_block.md R228). -/
theorem blockWriteEvents_shift (p : Params) (byte : Nat → Byte) (cached : Word) (src cur : Nat) (cs : List (Nat × Nat)) :
    blockWriteEvents p (fun k => byte (src + k)) cached cur cs = blockWriteEvents p byte cached (src + cur) cs := by
  induction cs generalizing cached cur with
  | nil => rfl
  | cons x cs ih => simp only [blockWriteEvents, ih, Nat.add_assoc]

/-- Settles O45: the link of the chunks, the buffer read from its first index on. -/
theorem blockWriteSendsBytes : Obligations.BlockWriteSendsBytes := by
  intro a buf n s hq ha hn
  have ⟨_, hclk, hoe, _⟩ := hq
  have hlink := writeChunks_link (chunks s.params a.toNat n) buf (accept (.bpWrBlk a buf n) s) hclk hoe s.params s.window s.bytes rfl rfl rfl
  obtain ⟨t, hexec, hdone, hexchange, houtside, hbytes, hwords, hwindow⟩ :=
    exec_window_doneNothing hq (bodyOf_bpWrBlk_of_inside buf _ ha hn) hlink
  refine ⟨t, hexec, hdone, ?_, hwindow, houtside, hbytes, hwords⟩
  rw [blockWriteEvents_shift _ (Memory.read s.bytes) _ buf 0]
  exact hexchange

/-! ### `BP.RDBLK` -/

/-- A block read delivers of each chunk as many bytes as its length (44_block.md R225). -/
theorem blockReadBytes_length (level : Nat → Bool) (k : Nat) (cs : List (Nat × Nat)) :
    (blockReadBytes level k cs).length = (cs.map (·.2)).sum := by
  induction cs generalizing k with
  | nil => rfl
  | cons x cs ih => rw [blockReadBytes, List.length_append, unpackBytes_length, ih, List.map_cons, List.sum_cons]

/-- An operation that sets `WINDOW` to `w` and the host's bytes to `m`, does the rest of its work on the link and completes without a result. -/
theorem exec_stored_doneNothing {i : Instr} {s u : State} {w : Word} {m : Memory 8} {es : List Event} {n : Nat} (hq : Quiet s)
    (hbody : bodyOf i (accept i s) = (u, .doneNothing)) (hlink : Link { accept i s with window := w, bytes := m } u es n) :
    ∃ t, exec i s = .next t ∧ Completed t ∧ Exchange s t es n ∧ KeepsRest { s with window := w, bytes := m } t := by
  have hrun : exec i s = runOp i (fun _ => bodyOf i (accept i s)) { s with window := w, bytes := m } := exec_eq_runOp i s
  rw [hrun]
  exact runOp_link_doneNothing hq hbody hlink

/-- Settles O44: the link of the chunks, which leaves in the buffer what storing the delivered bytes from its first index on leaves. -/
theorem blockReadDeliversBytes : Obligations.BlockReadDeliversBytes := by
  intro a buf n s hq hrsf hwf hcanonical ha hn plan bs
  have ⟨_, hclk, hoe, _⟩ := hq
  have hlength : bs.length = n := (blockReadBytes_length _ _ _).trans (sum_chunks hwf _ _)
  have hlevels (j : Nat) : (accept (.bpRdBlk a buf n) s).deviceLevel j = s.deviceLevel (32 * 0 + j) := by
    rw [accept_deviceLevel, Nat.mul_zero, Nat.zero_add]
  have hlink := readChunks_link plan buf 0 s.deviceLevel (accept (.bpRdBlk a buf n) s) hclk hoe hrsf hlevels s.params s.window s.bytes
    rfl rfl rfl
  obtain ⟨t, hexec, hdone, hexchange, houtside, hbytes, hwords, hwindow⟩ :=
    exec_stored_doneNothing hq (bodyOf_bpRdBlk_of_inside buf _ ha hn) hlink
  refine ⟨t, hexec, hdone, hlength, hexchange, hwindow, fun k => ?_, houtside, hwords⟩
  calc Memory.read t.bytes k = Memory.read (Memory.writeList s.bytes buf bs) k := hbytes k
    _ = if buf ≤ k ∧ k < buf + n then bs.getD (k - buf) 0 else Memory.read s.bytes k := by
      rw [Memory.read_writeList bs _ _ _ hcanonical, hlength]

end Sys2Proof.Machine
end

section
/-! PROOFS. The data path (spec/45_datapath.md): `DATA.RD` and `DATA.WR` are one transaction each on the data function, behind the length check. What
the transactions do to the link is `readTransaction_link` and `writeTransaction_link`; what stands here besides is which lengths the check lets through,
that the data function has no turnaround word, and where the received words are stored. -/

namespace Sys2Proof.Machine

/-! ### The length check -/

theorem checkLength_of_fit {n max : Nat} (h : 1 ≤ n) (hn : n ≤ max) : checkLength n max = none := if_pos ⟨h, hn⟩

theorem checkLength_of_outside {n max : Nat} (h : n = 0 ∨ max < n) : checkLength n max = some (errRecord .lengthRange (.length n)) :=
  if_neg (by omega)

/-- Settles O50: both operations check their length, each against its own bound, before the transaction. -/
theorem dataLengthIsChecked : Obligations.DataLengthIsChecked := by
  intro wbuf n s hq p hp hn
  obtain ⟨body, hbody⟩ : ∃ body, bodyOf p.1 = checked (checkLength n p.2) body := by
    simp only [List.mem_cons, List.not_mem_nil, or_false] at hp
    obtain rfl | rfl := hp
    · exact ⟨_, rfl⟩
    · exact ⟨_, rfl⟩
  exact exec_rejected hq hbody (checkLength_of_outside hn)

/-! ### `DATA.WR` -/

theorem bodyOf_dataWr_of_fit (wbuf : Nat) {m : Nat} (s : State) (h : 1 ≤ m) (hm : m ≤ 511) :
    bodyOf (.dataWr wbuf m) s = (writeTransaction s.params.fnData 0 (4 * m) (Memory.readList s.words wbuf m) s, .doneNothing) := by
  rw [bodyOf, checked_of_none _ _ (checkLength_of_fit h hm)]

/-- Settles O49: one write transaction, whose payload is read from the buffer as it is. -/
theorem dataWriteSendsWords : Obligations.DataWriteSendsWords := by
  intro wbuf m s hq h hm
  have ⟨_, hclk, hoe, _⟩ := hq
  have hlink := writeTransaction_link s.params.fnData 0 (4 * m) (Memory.readList s.words wbuf m) (accept (.dataWr wbuf m) s) hclk hoe
  obtain ⟨t, hexec, hdone, hexchange, hrest⟩ := runOp_link_doneNothing hq (bodyOf_dataWr_of_fit wbuf _ h hm) hlink
  exact ⟨t, (exec_eq_runOp _ s).trans hexec, hdone, hrest, hexchange⟩

/-! ### `DATA.RD` -/

/-- The data function is not the backplane function: no word is dropped (45_datapath.md R241, R242). -/
theorem turnaround_fnData {p : Params} (h : p.Wf) : turnaround p p.fnData = 0 := by
  obtain ⟨-, -, hne⟩ := h.functions_distinct
  exact if_neg hne.symm

/-- A read transaction on the data function receives `ceil4(n)` words, and all of them are its payload. -/
theorem readTransaction_fnData_link (n : Nat) (s : State) (hclk : s.clk = false) (hoe : s.dioOe = false)
    (hrsf : s.params.readFraming = .rsf) (hwf : s.params.Wf) :
    Link s (readTransaction s.params.fnData 0 n s).1
        (txEvents [cw 0 1 s.params.fnData 0 n] ++ rxEvents (s.deviceWords (ceil4 n))) (32 * ceil4 n) ∧
      (readTransaction s.params.fnData 0 n s).2 = s.deviceWords (ceil4 n) := by
  have h := readTransaction_link s.params.fnData 0 n s hclk hoe hrsf
  rwa [turnaround_fnData hwf, Nat.zero_add, List.drop_zero] at h

/-- Work on the link does not look at the host's words: with `m` in their place at both ends it is the same work (10_state.md R33). -/
theorem Link.replaceWords {s t : State} {es : List Event} {n : Nat} (h : Link s t es n) (m : Memory 32) :
    Link { s with words := m } { t with words := m } es n :=
  ⟨{ h.rest with words := rfl }, h.exchange, h.clk, h.oe⟩

/-- The body of `DATA.RD` in range: the words received are stored from the buffer's first index on (45_datapath.md R242). -/
theorem bodyOf_dataRd_of_fit (wbuf : Nat) {n : Nat} (s : State) (hclk : s.clk = false) (hoe : s.dioOe = false)
    (hrsf : s.params.readFraming = .rsf) (hwf : s.params.Wf) (h : 1 ≤ n) (hn : n ≤ 2047) :
    bodyOf (.dataRd wbuf n) s =
      ({ (readTransaction s.params.fnData 0 n s).1 with words := Memory.writeList s.words wbuf (s.deviceWords (ceil4 n)) },
        .doneNothing) := by
  obtain ⟨hlink, hwords⟩ := readTransaction_fnData_link n s hclk hoe hrsf hwf
  rw [bodyOf, checked_of_none _ _ (checkLength_of_fit h hn), hwords, hlink.rest.words]

/-- An operation that sets the host's words to `m`, does the rest of its work on the link and completes without a result. -/
theorem exec_storedWords_doneNothing {i : Instr} {s u : State} {m : Memory 32} {es : List Event} {n : Nat} (hq : Quiet s)
    (hbody : bodyOf i (accept i s) = (u, .doneNothing)) (hlink : Link { accept i s with words := m } u es n) :
    ∃ t, exec i s = .next t ∧ Completed t ∧ Exchange s t es n ∧ KeepsRest { s with words := m } t := by
  have hrun : exec i s = runOp i (fun _ => bodyOf i (accept i s)) { s with words := m } := exec_eq_runOp i s
  rw [hrun]
  exact runOp_link_doneNothing hq hbody hlink

/-- Settles O48: the link of the transaction, which leaves in the buffer what storing its words from the first index on leaves. -/
theorem dataReadStoresWords : Obligations.DataReadStoresWords := by
  intro wbuf n s hq hrsf hwf hcanonical h hn
  have ⟨_, hclk, hoe, _⟩ := hq
  have hlevels : (accept (.dataRd wbuf n) s).deviceWords (ceil4 n) = s.deviceWords (ceil4 n) :=
    deviceWords_congr _ (accept_deviceLevel _ s)
  have hbody := bodyOf_dataRd_of_fit wbuf (accept (.dataRd wbuf n) s) hclk hoe hrsf hwf h hn
  obtain ⟨hlink, -⟩ := readTransaction_fnData_link n (accept (.dataRd wbuf n) s) hclk hoe hrsf hwf
  rw [hlevels] at hbody hlink
  obtain ⟨t, hexec, hdone, hexchange, houtside, hbytes, hwords, hwindow⟩ :=
    exec_storedWords_doneNothing hq hbody (hlink.replaceWords _)
  refine ⟨t, s.deviceWords (ceil4 n), hexec, hdone, rfl, ?_, fun k => ?_, hwindow, houtside, hbytes⟩
  · rw [deviceWords_length]
    exact hexchange
  · exact (hwords k).trans (Memory.read_writeList _ _ _ _ hcanonical)

end Sys2Proof.Machine
end

section
/-! PROOFS. The bring-up handshake (spec/46_init.md R250 to R262). The power step is `powerPulse_trace` and one poll is `pollOnce_link`; what stands here
besides is where the poll loop stops, what each later step does to the link and which error it raises, and what `INIT` leaves when it ends. -/

namespace Sys2Proof.Machine

/-! ### The words the device presents -/

/-- The `k`-th word that the device's next levels make (40_transport.md R118). -/
def State.deviceWord (s : State) (k : Nat) : Word := levelsWord s.deviceLevel (32 * k)

theorem deviceWord_zero (s : State) : s.deviceWord 0 = levelsWord s.deviceLevel 0 := rfl

theorem deviceWord_congr {s t : State} (h : ∀ k, t.deviceLevel k = s.deviceLevel k) (k : Nat) : t.deviceWord k = s.deviceWord k := by
  simp only [State.deviceWord, levelsWord, h]

/-- After `m` received words the device presents the words from the `m`-th on. -/
theorem Exchange.deviceWord {s t : State} {es : List Event} {m : Nat} (h : Exchange s t es (32 * m)) (k : Nat) :
    t.deviceWord k = s.deviceWord (m + k) := by
  have hlevels (i : Nat) : t.deviceLevel (32 * k + i) = s.deviceLevel (32 * (m + k) + i) := by
    rw [h.deviceLevel]; congr 1; omega
  simp only [State.deviceWord, levelsWord, hlevels]

/-! ### Steps of the handshake on the link -/

/-- What every step of the handshake supposes: an idle wire, the normative framing, parameters within their constraints. -/
structure Ready (s : State) : Prop where
  clk : s.clk = false
  oe : s.dioOe = false
  framing : s.params.readFraming = .rsf
  wf : s.params.Wf

theorem Link.ready {s t : State} {es : List Event} {n : Nat} (h : Link s t es n) (hs : Ready s) : Ready t :=
  ⟨h.clk, h.oe, h.rest.params ▸ hs.framing, h.rest.params ▸ hs.wf⟩

/-- The error of a step that wants the value `want` and reads `v` (60_exceptions.md R280 to R283). -/
def mismatch (want : Word) (cause : ErrCause) (v : Word) : Option ErrRecord :=
  if v = want then none else some (errRecord cause (.value v))

theorem expectValue_eq (want : Word) (cause : ErrCause) (r : State × Word) : expectValue want cause r = (r.1, mismatch want cause r.2) := by
  unfold expectValue mismatch
  split <;> rfl

theorem mismatch_of_eq {want v : Word} (cause : ErrCause) (h : v = want) : mismatch want cause v = none := if_pos h

theorem mismatch_of_ne {want v : Word} (cause : ErrCause) (h : v ≠ want) :
    mismatch want cause v = some (errRecord cause (.value v)) := if_neg h

/-- From `s` the step `h` makes the events `es` on the link, receives `m` words and raises `err`. -/
structure StepLink (s : State) (h : Handshake) (es : List Event) (m : Nat) (err : Option ErrRecord) : Prop where
  link : Link s h.1 es (32 * m)
  err : h.2 = err

/-- A step whose last value is the one it wants raises nothing. -/
theorem StepLink.of_match {s : State} {h : Handshake} {es : List Event} {m : Nat} {want v : Word} {cause : ErrCause}
    (hstep : StepLink s h es m (mismatch want cause v)) (hv : v = want) : StepLink s h es m none := by
  rwa [mismatch_of_eq cause hv] at hstep

theorem andThen_of_none {h : Handshake} (next : State → Handshake) (hnone : h.2 = none) : andThen h next = next h.1 := by
  rw [andThen, hnone]

theorem andThen_of_some {h : Handshake} {e : ErrRecord} (next : State → Handshake) (hsome : h.2 = some e) : andThen h next = h := by
  rw [andThen, hsome]

/-- Work on the link before, and a step that starts where it ends. -/
theorem StepLink.after {s t : State} {h : Handshake} {es fs : List Event} {m k : Nat} {err : Option ErrRecord}
    (hbefore : Link s t es (32 * m)) (hstep : StepLink t h fs k err) : StepLink s h (es ++ fs) (m + k) err := by
  refine ⟨?_, hstep.err⟩
  rw [Nat.mul_add]
  exact hbefore.append hstep.link

/-- What the step `next` does from any state it may start in: its events and its error depend on the parameters and on the next word of the device,
and it receives `k` words. -/
def StepSpec (next : State → Handshake) (events : Params → Word → List Event) (k : Nat) (err : Params → Word → Option ErrRecord) : Prop :=
  ∀ s, Ready s → StepLink s (next s) (events s.params (s.deviceWord 0)) k (err s.params (s.deviceWord 0))

/-- After a step that raised nothing the next one runs, on the device's next word. -/
theorem StepLink.followedBy {s : State} {h : Handshake} {next : State → Handshake} {es : List Event} {m k : Nat}
    {events : Params → Word → List Event} {err : Params → Word → Option ErrRecord} (hfirst : StepLink s h es m none) (hs : Ready s)
    (hnext : StepSpec next events k err) :
    StepLink s (andThen h next) (es ++ events s.params (s.deviceWord m)) (m + k) (err s.params (s.deviceWord m)) := by
  have hstep := hnext h.1 (hfirst.link.ready hs)
  rw [hfirst.link.rest.params, hfirst.link.exchange.deviceWord] at hstep
  rw [andThen_of_none next hfirst.err]
  exact .after hfirst.link hstep

/-- The traffic of step 3 (46_init.md R255). -/
def patternEvents (p : Params) (w : Word) : List Event :=
  rotatedWriteEvents p p.regBusTestRw p.testPattern ++ rotatedReadEvents p p.regBusTestRw w

/-- Step 3 (46_init.md R255): the pattern written, and one word read back, both rotated. -/
theorem patternSwapped_spec : StepSpec patternSwapped patternEvents 1 fun p w => mismatch p.testPattern .patternSwapped (rotate16 w) := by
  intro s hs
  have hwrite := memWriteRotated_link s.params.regBusTestRw s.params.testPattern s hs.clk hs.oe
  have hmid := hwrite.ready hs
  obtain ⟨hread, hvalue⟩ := memReadRotated_link s.params.regBusTestRw _ hmid.clk hmid.oe hmid.framing
  rw [← deviceWord_zero, hwrite.exchange.deviceWord (m := 0)] at hread hvalue
  rw [hwrite.rest.params] at hread
  rw [patternSwapped, expectValue_eq, hwrite.rest.params, hvalue]
  exact ⟨hwrite.append hread, rfl⟩

/-- Step 4 (46_init.md R256): the configuration written, rotated. -/
theorem configure_spec : StepSpec configure (fun p _ => rotatedWriteEvents p p.regBusCtrl p.busCtrlValue) 0 fun _ _ => none :=
  fun s hs => ⟨memWriteRotated_link s.params.regBusCtrl s.params.busCtrlValue s hs.clk hs.oe, rfl⟩

/-- The bus function has no turnaround word (42_function_access.md R168). -/
theorem turnaround_fnBus {p : Params} (h : p.Wf) : turnaround p p.fnBus = 0 := by
  obtain ⟨hne, -, -⟩ := h.functions_distinct
  exact if_neg hne

/-- A read of a register of the bus function that wants a value (46_init.md R257). -/
theorem busRead_stepLink {s : State} (hs : Ready s) (reg : Nat) (want : Word) (cause : ErrCause) :
    StepLink s (expectValue want cause (memRead s.params.fnBus reg 4 s)) (busReadEvents s.params reg (s.deviceWord 0)) 1
      (mismatch want cause (s.deviceWord 0)) := by
  obtain ⟨hlink, hvalue⟩ := memRead_link s.params.fnBus reg 4 s (.inr (.inr rfl)) hs.clk hs.oe hs.framing
  rw [turnaround_fnBus hs.wf, Nat.zero_add, deviceWords_one] at hlink
  rw [turnaround_fnBus hs.wf, Nat.mul_zero] at hvalue
  rw [expectValue_eq, hvalue, deviceWord_zero]
  exact ⟨hlink, rfl⟩

/-- Step 5, first half (46_init.md R257). -/
theorem magicNormal_spec : StepSpec magicNormal (fun p => busReadEvents p p.regBusTestRo) 1 fun p => mismatch p.magic .magicNormal :=
  fun _ hs => busRead_stepLink hs _ _ _

/-- Step 5, second half (46_init.md R257). -/
theorem patternNormal_spec :
    StepSpec patternNormal (fun p => busReadEvents p p.regBusTestRw) 1 fun p => mismatch p.testPattern .patternNormal :=
  fun _ hs => busRead_stepLink hs _ _ _

/-! ### The poll loop -/

theorem LinkOnly.countPoll {s t : State} (h : LinkOnly s t) :
    LinkOnly { s with pollcnt := s.pollcnt + 1 } { t with pollcnt := t.pollcnt + 1 } :=
  { h with pollcnt := congrArg (· + 1) h.pollcnt }

theorem pollOnce_linkOnly (s : State) : LinkOnly { s with pollcnt := s.pollcnt + 1 } (pollOnce s).1 :=
  (memReadRotated_linkOnly s.params.regBusTestRo s).countPoll

/-- The last poll: it returns `MAGIC`, or it is the one that `MAX_POLLS` allows last (46_init.md R254). -/
theorem pollLoop_of_stop {s : State} (fuel : Nat) (h : (pollOnce s).2 = s.params.magic ∨ s.pollcnt + 1 = s.params.maxPolls) :
    pollLoop (fuel + 1) s = ((pollOnce s).1, mismatch s.params.magic .timeout (pollOnce s).2) := by
  have hone := pollOnce_linkOnly s
  simp only [pollLoop, hone.params, hone.pollcnt]
  by_cases hmagic : (pollOnce s).2 = s.params.magic
  · rw [if_pos hmagic, mismatch_of_eq _ hmagic]
  · rw [if_neg hmagic, if_pos (h.resolve_left hmagic), mismatch_of_ne _ hmagic]

theorem pollLoop_of_miss {s : State} (fuel : Nat) (hmiss : (pollOnce s).2 ≠ s.params.magic) (hmore : s.pollcnt + 1 ≠ s.params.maxPolls) :
    pollLoop (fuel + 1) s = pollLoop fuel (pollOnce s).1 := by
  have hone := pollOnce_linkOnly s
  simp only [pollLoop, hone.params, hone.pollcnt]
  rw [if_neg hmiss, if_neg hmore]

/-- Work on the link does not look at `POLLCNT`: with `c` in its place at both ends it is the same work (10_state.md R29). -/
theorem Link.replacePollcnt {s t : State} {es : List Event} {n : Nat} (h : Link s t es n) (c : Nat) :
    Link { s with pollcnt := c } { t with pollcnt := c } es n :=
  ⟨{ h.rest with pollcnt := rfl }, h.exchange, h.clk, h.oe⟩

/-- The loop entered in `s` makes `n + 1` more polls: the first `n` neither return `MAGIC` nor are the last that `MAX_POLLS` allows, the one after them
does or is (46_init.md R254). -/
structure PollsStopAfter (s : State) (n : Nat) : Prop where
  miss : ∀ k < n, rotate16 (s.deviceWord k) ≠ s.params.magic
  stop : rotate16 (s.deviceWord n) = s.params.magic ∨ s.pollcnt + (n + 1) = s.params.maxPolls
  bound : s.pollcnt + (n + 1) ≤ s.params.maxPolls

/-- However the device answers, the loop stops at one of the polls `MAX_POLLS` allows (46_init.md R258). -/
theorem exists_pollsStopAfter {s : State} (h : s.pollcnt < s.params.maxPolls) : ∃ n, PollsStopAfter s n := by
  classical
  have hlast : ∃ n, rotate16 (s.deviceWord n) = s.params.magic ∨ s.pollcnt + (n + 1) = s.params.maxPolls :=
    ⟨s.params.maxPolls - s.pollcnt - 1, .inr (by omega)⟩
  have hle : Nat.find hlast ≤ s.params.maxPolls - s.pollcnt - 1 := Nat.find_min' hlast (.inr (by omega))
  exact ⟨Nat.find hlast, fun k hk hmagic => Nat.find_min hlast hk (.inl hmagic), Nat.find_spec hlast, by omega⟩

/-- Step 2 (46_init.md R254): the polls up to the one that stops the loop, the words they receive, and the error of the last one. -/
theorem pollLoop_stepLink {n fuel : Nat} {s : State} (hs : Ready s) (hstop : PollsStopAfter s n) (hfuel : n < fuel) :
    StepLink { s with pollcnt := s.pollcnt + (n + 1) } (pollLoop fuel s) (pollEvents s.params (s.deviceWords (n + 1))) (n + 1)
      (mismatch s.params.magic .timeout (rotate16 (s.deviceWord n))) := by
  induction n generalizing fuel s with
  | zero =>
    obtain ⟨fuel, rfl⟩ := Nat.exists_eq_add_one.2 hfuel
    obtain ⟨hlink, hvalue⟩ := pollOnce_link s hs.clk hs.oe hs.framing
    rw [pollLoop_of_stop fuel (hvalue ▸ hstop.stop), hvalue]
    refine ⟨?_, rfl⟩
    simpa [pollEvents, deviceWords_one] using hlink
  | succ n ih =>
    obtain ⟨fuel, rfl⟩ := Nat.exists_eq_add_one.2 (Nat.zero_lt_of_lt hfuel)
    obtain ⟨hlink, hvalue⟩ := pollOnce_link s hs.clk hs.oe hs.framing
    have hbound := hstop.bound
    have hmiss : (pollOnce s).2 ≠ s.params.magic := hvalue ▸ hstop.miss 0 n.succ_pos
    rw [pollLoop_of_miss fuel hmiss (by omega)]
    generalize (pollOnce s).1 = t at hlink ⊢
    have hparams : t.params = s.params := hlink.rest.params
    have hcount : t.pollcnt = s.pollcnt + 1 := hlink.rest.pollcnt
    obtain ⟨-, -, hin, hsamples⟩ := hlink.exchange
    have hwords : s.deviceWords (n + 1 + 1) = s.deviceWord 0 :: t.deviceWords (n + 1) := deviceWords_succ s t (n + 1) hin hsamples
    have hword (k : Nat) : t.deviceWord k = s.deviceWord (k + 1) :=
      (hlink.exchange.deviceWord (m := 1) k).trans (congrArg s.deviceWord (Nat.add_comm 1 k))
    have hpollcnt : t.pollcnt + (n + 1) = s.pollcnt + (n + 1 + 1) := by omega
    have hrest : PollsStopAfter t n := by
      refine ⟨fun k hk => ?_, ?_, ?_⟩
      · rw [hword, hparams]; exact hstop.miss (k + 1) (Nat.succ_lt_succ hk)
      · rw [hword, hparams, hpollcnt]; exact hstop.stop
      · rw [hparams, hpollcnt]; exact hbound
    obtain ⟨hpolls, herr⟩ := ih (hlink.ready ⟨hs.clk, hs.oe, hs.framing, hs.wf⟩) hrest (Nat.lt_of_succ_lt_succ hfuel)
    rw [hword, hparams] at herr
    have hevents : pollEvents t.params (t.deviceWords (n + 1)) = pollEvents s.params (t.deviceWords (n + 1)) := by rw [hparams]
    rw [hevents, hpollcnt] at hpolls
    refine ⟨?_, herr⟩
    rw [hwords, Nat.mul_succ, Nat.add_comm _ 32]
    exact (hlink.replacePollcnt _).append hpolls

/-! ### `INIT` from acceptance to report -/

/-- The state the polls of `INIT` start from, accepted, the cache invalidated and the device powered (46_init.md R250 to R252), but with `n` in
`POLLCNT`. -/
def poweredUp (s : State) (n : Nat) : State := { powerPulse (initCache (accept .init s)) with pollcnt := n }

@[simp] theorem poweredUp_params (s : State) (n : Nat) : (poweredUp s n).params = s.params := by simp [poweredUp, powerPulse]
@[simp] theorem poweredUp_pollcnt (s : State) (n : Nat) : (poweredUp s n).pollcnt = n := by simp [poweredUp]
@[simp] theorem poweredUp_clk (s : State) (n : Nat) : (poweredUp s n).clk = s.clk := by simp [poweredUp, powerPulse]
@[simp] theorem poweredUp_dioOe (s : State) (n : Nat) : (poweredUp s n).dioOe = s.dioOe := by simp [poweredUp, powerPulse]
@[simp] theorem poweredUp_dioOut (s : State) (n : Nat) : (poweredUp s n).dioOut = s.dioOut := by simp [poweredUp, powerPulse]
@[simp] theorem poweredUp_dioIn (s : State) (n : Nat) : (poweredUp s n).dioIn = s.dioIn := by simp [poweredUp, powerPulse]
@[simp] theorem poweredUp_samples (s : State) (n : Nat) : (poweredUp s n).samples = s.samples := by simp [poweredUp, powerPulse]
@[simp] theorem poweredUp_pwr (s : State) (n : Nat) : (poweredUp s n).pwr = true := by simp [poweredUp, powerPulse]
@[simp] theorem poweredUp_window (s : State) (n : Nat) : (poweredUp s n).window = s.params.windowSentinel := by simp [poweredUp, powerPulse]

@[simp] theorem poweredUp_deviceLevel (s : State) (n k : Nat) : (poweredUp s n).deviceLevel k = s.deviceLevel k := by
  simp [State.deviceLevel]

@[simp] theorem poweredUp_deviceWord (s : State) (n k : Nat) : (poweredUp s n).deviceWord k = s.deviceWord k :=
  deviceWord_congr (poweredUp_deviceLevel s n) k

@[simp] theorem poweredUp_deviceWords (s : State) (n k : Nat) : (poweredUp s n).deviceWords k = s.deviceWords k :=
  deviceWords_congr k (poweredUp_deviceLevel s n)

theorem poweredUp_ready {s : State} (hq : Quiet s) (hrsf : s.params.readFraming = .rsf) (hwf : s.params.Wf) (n : Nat) :
    Ready (poweredUp s n) := by
  obtain ⟨-, hclk, hoe, -⟩ := hq
  exact ⟨by simpa using hclk, by simpa using hoe, by simpa using hrsf, by simpa using hwf⟩

/-- Up to the polls nothing but the power step happens on the lines (46_init.md R252). -/
theorem poweredUp_exchange (s : State) (n : Nat) :
    ∃ t1 t2, s.params.tPwrLowMin ≤ t1 ∧ s.params.tBootMin ≤ t2 ∧ Exchange s (poweredUp s n) (powerEvents t1 t2) 0 := by
  obtain ⟨t1, t2, hlow, hboot, htrace⟩ := powerPulse_trace (initCache (accept .init s))
  exact ⟨t1, t2, hlow, hboot, htrace, poweredUp_dioOut s n, poweredUp_dioIn s n, poweredUp_samples s n⟩

/-- `INIT` from `s` ends in `t` with the error `err`, if any, after `n` polls; after the power step it has made the events `es` on the link and received
`m` words. -/
structure InitEnds (s t : State) (n : Nat) (es : List Event) (m : Nat) (err : Option ErrRecord) : Prop where
  exec : exec .init s = .next t
  quiet : Quiet t
  err : t.err = err
  exchange : ∃ t1 t2, s.params.tPwrLowMin ≤ t1 ∧ s.params.tBootMin ≤ t2 ∧ Exchange s t (powerEvents t1 t2 ++ es) (32 * m)
  pwr : t.pwr = true
  window : t.window = s.params.windowSentinel
  pollcnt : t.pollcnt = n

/-- The report ends `INIT` with what its steps did on the link (60_exceptions.md R296). -/
theorem StepLink.initEnds {s : State} {n : Nat} {es : List Event} {m : Nat} {err : Option ErrRecord}
    (h : StepLink (poweredUp s n) (handshake (accept .init s)) es m err) (hq : Quiet s) : ∃ t, InitEnds s t n es m err := by
  obtain ⟨hbusy, -, -, -⟩ := hq
  obtain ⟨hlink, herr⟩ := h
  obtain ⟨t1, t2, hlow, hboot, hpower⟩ := poweredUp_exchange s n
  have hwhole := hpower.append hlink.exchange
  rw [Nat.zero_add] at hwhole
  obtain ⟨htrace, hout, hin, hsamples⟩ := hwhole
  have hreport := report_only (handshakeCompletion (handshake (accept .init s)).2) (handshake (accept .init s)).1
  exact ⟨_, {
    exec := (exec_eq_runOp .init s).trans (runOp_idle _ _ _ hbusy)
    quiet := ⟨report_busy _ _, hreport.clk.trans hlink.clk, hreport.dioOe.trans hlink.oe, report_seq _ _⟩
    err := by rw [report_err, bodyOf, handshakeCompletion_error, herr]
    exchange := ⟨t1, t2, hlow, hboot, hreport.trace.trans htrace, hreport.dioOut.trans hout, hreport.dioIn.trans hin,
      hreport.samples.trans hsamples⟩
    pwr := hreport.pwr.trans (hlink.rest.pwr.trans (poweredUp_pwr s n))
    window := hreport.window.trans (hlink.rest.window.trans (poweredUp_window s n))
    pollcnt := hreport.pollcnt.trans (hlink.rest.pollcnt.trans (poweredUp_pollcnt s n)) }⟩

theorem PollsStopAfter.bound_poweredUp {s : State} {n : Nat} (h : PollsStopAfter (poweredUp s 0) n) : n + 1 ≤ s.params.maxPolls := by
  simpa using h.bound

/-- Step 2 of an accepted `INIT`: the loop stops within the polls the model gives it. -/
theorem pollLoop_poweredUp_stepLink {s : State} {n : Nat} (hready : Ready (poweredUp s 0)) (hstop : PollsStopAfter (poweredUp s 0) n) :
    StepLink (poweredUp s (n + 1)) (pollLoop s.params.maxPolls (poweredUp s 0)) (pollEvents s.params (s.deviceWords (n + 1))) (n + 1)
      (mismatch s.params.magic .timeout (rotate16 (s.deviceWord n))) := by
  have h := pollLoop_stepLink hready hstop hstop.bound_poweredUp
  rwa [poweredUp_pollcnt, Nat.zero_add, poweredUp_params, poweredUp_deviceWord, poweredUp_deviceWords] at h

/-! ### The handshake that succeeds -/

/-- After a step of `INIT` that raised nothing the next one runs, on the word after the `m` received, which makes `j` words in all. -/
theorem StepLink.followedBy_poweredUp {s : State} {c m k j : Nat} {h : Handshake} {next : State → Handshake} {es : List Event}
    {events : Params → Word → List Event} {err : Params → Word → Option ErrRecord} (hfirst : StepLink (poweredUp s c) h es m none)
    (hready : Ready (poweredUp s c)) (hnext : StepSpec next events k err) (hj : m + k = j) :
    StepLink (poweredUp s c) (andThen h next) (es ++ events s.params (s.deviceWord m)) j (err s.params (s.deviceWord m)) := by
  have hstep := hfirst.followedBy hready hnext
  rwa [hj, poweredUp_params, poweredUp_deviceWord] at hstep

/-- What an accepted `INIT` does when the device answers every step as it must (46_init.md R259). -/
theorem handshake_stepLink_of_success {s : State} {n : Nat} (hready : ∀ c, Ready (poweredUp s c)) (hbound : n + 1 ≤ s.params.maxPolls)
    (hmiss : ∀ k < n, rotate16 (s.deviceWord k) ≠ s.params.magic) (hmagic : rotate16 (s.deviceWord n) = s.params.magic)
    (hswapped : rotate16 (s.deviceWord (n + 1)) = s.params.testPattern) (hmagicNormal : s.deviceWord (n + 2) = s.params.magic)
    (hpatternNormal : s.deviceWord (n + 3) = s.params.testPattern) :
    StepLink (poweredUp s (n + 1)) (handshake (accept .init s))
      (pollEvents s.params (s.deviceWords (n + 1)) ++ patternEvents s.params (s.deviceWord (n + 1)) ++
        rotatedWriteEvents s.params s.params.regBusCtrl s.params.busCtrlValue ++
        busReadEvents s.params s.params.regBusTestRo (s.deviceWord (n + 2)) ++
        busReadEvents s.params s.params.regBusTestRw (s.deviceWord (n + 3))) (n + 4) none := by
  have hstop : PollsStopAfter (poweredUp s 0) n := by
    refine ⟨?_, .inl ?_, ?_⟩
    · simpa only [poweredUp_params, poweredUp_deviceWord] using hmiss
    · simpa only [poweredUp_params, poweredUp_deviceWord] using hmagic
    · simpa only [poweredUp_params, poweredUp_pollcnt, Nat.zero_add] using hbound
  have hpolled := (pollLoop_poweredUp_stepLink (hready 0) hstop).of_match hmagic
  have hwritten := (hpolled.followedBy_poweredUp (hready _) patternSwapped_spec (j := n + 2) rfl).of_match hswapped
  have hconfigured := hwritten.followedBy_poweredUp (hready _) configure_spec (j := n + 2) rfl
  have hmagicRead := (hconfigured.followedBy_poweredUp (hready _) magicNormal_spec (j := n + 3) rfl).of_match hmagicNormal
  exact (hmagicRead.followedBy_poweredUp (hready _) patternNormal_spec (j := n + 4) rfl).of_match hpatternNormal

/-- Settles O51: each step of the handshake reads the value it wants, so the next one runs. -/
theorem initSucceedsOnNthPoll : Obligations.InitSucceedsOnNthPoll := by
  intro n s hq hrsf hwf hn hmax p w hmiss hmagic hswapped hmagicNormal hpatternNormal
  obtain ⟨n, rfl⟩ := Nat.exists_eq_add_one.2 hn
  have hsteps := handshake_stepLink_of_success (poweredUp_ready hq hrsf hwf) hmax (fun k hk => hmiss k (Nat.succ_lt_succ hk)) hmagic
    hswapped hmagicNormal hpatternNormal
  obtain ⟨t, hends⟩ := hsteps.initEnds hq
  obtain ⟨t1, t2, hlow, hboot, hexchange⟩ := hends.exchange
  have hframe := exec_frame hends.exec
  refine ⟨t, t1, t2, hends.exec, ⟨hends.quiet, hends.err⟩, hlow, hboot, ?_, hends.pwr, hends.window, hends.pollcnt, hframe.params,
    hframe.inputs, fun k => by rw [hframe.bytes nofun], fun k => by rw [hframe.words nofun]⟩
  simp only [patternEvents, List.append_assoc] at hexchange ⊢
  exact hexchange

/-! ### The handshake that ends however the device answers -/

/-- If there is an error, it is of class `Handshake`. -/
def HandshakeError (err : Option ErrRecord) : Prop := ∀ e, err = some e → e.cls = .handshake

theorem handshakeError_none : HandshakeError none := nofun

theorem handshakeError_mismatch {cause : ErrCause} (want v : Word) (h : errClassOf cause = .handshake) :
    HandshakeError (mismatch want cause v) := by
  unfold mismatch
  split
  · exact handshakeError_none
  · rintro e ⟨⟩
    exact h

/-- From `s` the step `h` receives at most `m` words, and an error it raises is of class `Handshake`. -/
def EndsWithin (s : State) (m : Nat) (h : Handshake) : Prop :=
  ∃ es k err, StepLink s h es k err ∧ k ≤ m ∧ HandshakeError err

/-- The next step runs or it does not: in both cases the words received are bounded (60_exceptions.md R293). -/
theorem EndsWithin.followedBy {s : State} {m k : Nat} {h : Handshake} {next : State → Handshake} {events : Params → Word → List Event}
    {err : Params → Word → Option ErrRecord} (hfirst : EndsWithin s m h) (hs : Ready s) (hnext : StepSpec next events k err)
    (herr : ∀ p w, HandshakeError (err p w)) : EndsWithin s (m + k) (andThen h next) := by
  obtain ⟨es, j, e, hstep, hj, hclass⟩ := hfirst
  cases e with
  | none => exact ⟨_, _, _, hstep.followedBy hs hnext, Nat.add_le_add_right hj k, herr _ _⟩
  | some e =>
    rw [andThen_of_some next hstep.err]
    exact ⟨es, j, some e, hstep, Nat.le_add_right_of_le hj, hclass⟩

/-- Settles O55: the polls stop within `MAX_POLLS`, and three of the four steps after them receive one word each. -/
theorem initAlwaysEndsWithinPolls : Obligations.InitAlwaysEndsWithinPolls := by
  intro s hq hrsf hwf
  obtain ⟨n, hstop⟩ := exists_pollsStopAfter (s := poweredUp s 0) hwf.max_polls
  have hready := poweredUp_ready hq hrsf hwf (n + 1)
  have hpolled : EndsWithin (poweredUp s (n + 1)) (n + 1) (pollLoop s.params.maxPolls (poweredUp s 0)) :=
    ⟨_, _, _, pollLoop_poweredUp_stepLink (poweredUp_ready hq hrsf hwf 0) hstop, le_rfl, handshakeError_mismatch _ _ rfl⟩
  have hwritten := hpolled.followedBy hready patternSwapped_spec fun _ _ => handshakeError_mismatch _ _ rfl
  have hconfigured := hwritten.followedBy hready configure_spec fun _ _ => handshakeError_none
  have hmagicRead := hconfigured.followedBy hready magicNormal_spec fun _ _ => handshakeError_mismatch _ _ rfl
  obtain ⟨es, m, err, hsteps, hm, hclass⟩ :=
    hmagicRead.followedBy hready patternNormal_spec fun _ _ => handshakeError_mismatch _ _ rfl
  obtain ⟨t, hends⟩ := StepLink.initEnds hsteps hq
  obtain ⟨-, -, -, -, -, -, -, hsamples⟩ := hends.exchange
  have hpolls := hends.pollcnt
  have hbound := hstop.bound_poweredUp
  exact ⟨t, hends.exec, hends.quiet, hends.pwr, hends.window, by omega, by omega, by omega, hends.err ▸ hclass⟩

end Sys2Proof.Machine
end

section
/-! PROOFS. How an operation ends whatever it is (60_exceptions.md R292, R296, R297, R300, R301): refused while the block is busy, otherwise reported, with
the block ready for the next one; and a rejected one has done nothing, for only the operand checks raise a `Precondition` error, and they stand before
every part of a body that acts. -/

namespace Sys2Proof.Machine

/-- Settles O5: every operation runs between acceptance and report, and a busy block accepts none. -/
theorem busyRequestIsRefused : Obligations.BusyRequestIsRefused := by
  intro i s hbusy
  rw [exec_eq_runOp, runOp_busy i (bodyOf i) s hbusy]

/-! ### `OP` -/

/-- Once accepted, an operation stays in `OP` (log 35). -/
theorem partsKeep_op (o : Option Instr) : PartsKeep (fun t => t.op = o) where
  tx ws s h := (txWords_linkOnly ws s).op.trans h
  rx n s h := (rxWords_linkOnly n s).op.trans h
  window _ _ _ _ h := h
  initCache _ h := h
  powerPulse s h := by simpa [powerPulse] using h
  polled _ h := h
  storeBytes _ _ _ h := h
  storeWords _ _ _ h := h

/-- Settles O6: the report leaves the block ready, and no part of the body changes `OP`. -/
theorem everyOperationEndsReady : Obligations.EveryOperationEndsReady := by
  intro i s hidle
  have hop : (bodyOf i (accept i s)).1.op = some i := (partsKeep_op (some i)).bodyOf i (accept i s) (accept_op i s)
  exact ⟨_, (exec_eq_runOp i s).trans (runOp_idle i (bodyOf i) s hidle), report_busy _ _, report_seq _ _, (report_only _ _).op.trans hop⟩

/-! ### The handshake raises no `Precondition` error -/

theorem handshakeError_andThen {h : Handshake} {next : State → Handshake} (hfirst : HandshakeError h.2)
    (hnext : ∀ s, HandshakeError (next s).2) : HandshakeError (andThen h next).2 := by
  cases herr : h.2 with
  | none => rw [andThen_of_none next herr]; exact hnext h.1
  | some e => rw [andThen_of_some next herr]; exact hfirst

theorem handshakeError_expectValue (want : Word) {cause : ErrCause} (r : State × Word) (h : errClassOf cause = .handshake) :
    HandshakeError (expectValue want cause r).2 := by
  rw [expectValue_eq]
  exact handshakeError_mismatch want r.2 h

theorem handshakeError_pollLoop (fuel : Nat) (s : State) : HandshakeError (pollLoop fuel s).2 := by
  induction fuel generalizing s with
  | zero => exact handshakeError_none
  | succ fuel ih =>
    by_cases hstop : (pollOnce s).2 = s.params.magic ∨ s.pollcnt + 1 = s.params.maxPolls
    · rw [pollLoop_of_stop fuel hstop]
      exact handshakeError_mismatch _ _ rfl
    · obtain ⟨hmiss, hmore⟩ := not_or.1 hstop
      rw [pollLoop_of_miss fuel hmiss hmore]
      exact ih _

/-- In every state and under every framing, each error of the handshake is of class `Handshake` (60_exceptions.md R280 to R283). -/
theorem handshakeError_handshake (s : State) : HandshakeError (handshake s).2 := by
  refine handshakeError_andThen (handshakeError_andThen (handshakeError_andThen (handshakeError_andThen ?poll ?swapped) ?configured) ?magic)
    ?pattern
  case poll => exact handshakeError_pollLoop _ _
  case swapped => exact fun _ => handshakeError_expectValue _ _ rfl
  case configured => exact fun _ => handshakeError_none
  case magic => exact fun _ => handshakeError_expectValue _ _ rfl
  case pattern => exact fun _ => handshakeError_expectValue _ _ rfl

/-! ### Only the checks reject -/

/-- If a body that started in `s` ends with a `Precondition` error, it has left `s` as it was (60_exceptions.md R292). -/
def RejectsUntouched (s : State) (r : State × Completion) : Prop := ∀ e, r.2.error = some e → e.cls = .precondition → r.1 = s

theorem rejectsUntouched_of_no_error {s : State} {r : State × Completion} (h : r.2.error = none) : RejectsUntouched s r := by
  intro e he
  rw [h] at he
  cases he

/-- Behind its checks a body that raises nothing runs only when they pass. -/
theorem rejectsUntouched_checked (check : Option ErrRecord) {body : State → State × Completion} {s : State}
    (hbody : (body s).2.error = none) : RejectsUntouched s (checked check body s) := by
  cases check with
  | some e => exact fun _ _ _ => rfl
  | none => exact rejectsUntouched_of_no_error hbody

/-- `INIT` checks no operand, so it rejects nothing (60_exceptions.md R292). -/
theorem rejectsUntouched_init (s : State) : RejectsUntouched s (bodyOf .init s) := by
  intro e he hclass
  rw [bodyOf, handshakeCompletion_error] at he
  have hhandshake : e.cls = .handshake := handshakeError_handshake s e he
  exact absurd (hhandshake.symm.trans hclass) (by decide)

theorem bodyOf_rejectsUntouched (i : Instr) (s : State) : RejectsUntouched s (bodyOf i s) := by
  cases i with
  | tWrite | tRead | tFlush | cwDec | rot16 | setWin => exact rejectsUntouched_of_no_error rfl
  | init => exact rejectsUntouched_init s
  | cwEnc | rd8 | rd16 | rd32 | wr8 | wr16 | wr32 | rd32s | wr32s | bpRd8 | bpRd16 | bpRd32 | bpWr8 | bpWr16 | bpWr32 | bpRdBlk | bpWrBlk
  | dataRd | dataWr => exact rejectsUntouched_checked _ rfl

/-- Settles O59: the rejected body is silent, and acceptance and report touch the host port only. -/
theorem rejectedOperationChangesNothing : Obligations.RejectedOperationChangesNothing := by
  intro i s t e hexec herr hclass
  obtain ⟨hidle, rfl⟩ := exec_cases hexec
  rw [report_err] at herr
  have huntouched : (bodyOf i (accept i s)).1 = accept i s := bodyOf_rejectsUntouched i (accept i s) e herr hclass
  obtain ⟨-, htransport, hrest⟩ := runOp_silent hidle (Prod.ext huntouched rfl)
  rw [huntouched]
  exact ⟨htransport, hrest, report_busy _ _⟩

end Sys2Proof.Machine
end

section
/-! PROOFS. The errors of `INIT` (60_exceptions.md R281 to R283). A step that reads another value than the one it wants raises the error of its cause, and
no later step runs; so each error's trace is that of the steps up to the one that raised it. -/

namespace Sys2Proof.Machine

/-! ### A step that raises, and the steps after it -/

/-- A step whose last value is not the one it wants raises its error with that value. -/
theorem StepLink.of_mismatch {s : State} {h : Handshake} {es : List Event} {m : Nat} {want v : Word} {cause : ErrCause}
    (hstep : StepLink s h es m (mismatch want cause v)) (hv : v ≠ want) : StepLink s h es m (some (errRecord cause (.value v))) := by
  rwa [mismatch_of_ne cause hv] at hstep

/-- After an error the next step does not run (60_exceptions.md R293). -/
theorem StepLink.skips {s : State} {h : Handshake} {es : List Event} {m : Nat} {e : ErrRecord} (hstep : StepLink s h es m (some e))
    (next : State → Handshake) : StepLink s (andThen h next) es m (some e) := by
  rwa [andThen_of_some next hstep.err]

/-- What the host and a reader of the trace find after an `INIT` whose handshake raised an error. -/
theorem StepLink.initReports {s : State} {n : Nat} {es : List Event} {m : Nat} {cause : ErrCause} {info : ErrInfo}
    (h : StepLink (poweredUp s n) (handshake (accept .init s)) es m (some (errRecord cause info))) (hq : Quiet s) :
    ∃ t t1 t2, exec .init s = .next t ∧ Reported cause info t ∧ s.params.tPwrLowMin ≤ t1 ∧ s.params.tBootMin ≤ t2 ∧
      Exchange s t (powerEvents t1 t2 ++ es) (32 * m) ∧ t.pwr = true ∧ t.window = s.params.windowSentinel ∧ t.pollcnt = n := by
  obtain ⟨t, hends⟩ := h.initEnds hq
  obtain ⟨t1, t2, hlow, hboot, hexchange⟩ := hends.exchange
  exact ⟨t, t1, t2, hends.exec, ⟨hends.quiet, hends.err⟩, hlow, hboot, hexchange, hends.pwr, hends.window, hends.pollcnt⟩

/-! ### No poll returns `MAGIC` -/

/-- Without `MAGIC` the loop stops at the last poll that `MAX_POLLS` allows (46_init.md R254). -/
theorem pollsStopAfter_of_no_magic {s : State} {n : Nat} (hlast : s.params.maxPolls = n + 1)
    (hmiss : ∀ k < n + 1, rotate16 (s.deviceWord k) ≠ s.params.magic) : PollsStopAfter (poweredUp s 0) n := by
  have hcount : (poweredUp s 0).pollcnt + (n + 1) = (poweredUp s 0).params.maxPolls := by
    rw [poweredUp_pollcnt, poweredUp_params, hlast, Nat.zero_add]
  refine ⟨fun k hk => ?_, .inr hcount, hcount.le⟩
  rw [poweredUp_deviceWord, poweredUp_params]
  exact hmiss k (Nat.lt_succ_of_lt hk)

/-- Settles O52: the last poll that `MAX_POLLS` allows stops the loop with its error, which ends the handshake. -/
theorem initTimesOutAfterMaxPolls : Obligations.InitTimesOutAfterMaxPolls := by
  intro s hq hrsf hwf
  obtain ⟨n, hlast⟩ := Nat.exists_eq_add_one.2 hwf.max_polls
  dsimp only
  rw [hlast]
  intro hmiss
  have hstop := pollsStopAfter_of_no_magic hlast hmiss
  have hraised := (pollLoop_poweredUp_stepLink (poweredUp_ready hq hrsf hwf 0) hstop).of_mismatch (hmiss n n.lt_succ_self)
  obtain ⟨t, t1, t2, hexec, hreported, hlow, hboot, hexchange, hpwr, hwindow, hpolls⟩ :=
    StepLink.initReports ((((hraised.skips patternSwapped).skips configure).skips magicNormal).skips patternNormal) hq
  have hframe := exec_frame hexec
  exact ⟨t, t1, t2, hexec, hreported, hlow, hboot, hexchange, hpwr, hwindow, hpolls, hframe.params, hframe.inputs,
    fun k => by rw [hframe.bytes nofun], fun k => by rw [hframe.words nofun]⟩

/-! ### A poll returns `MAGIC`, a later step fails -/

/-- An accepted `INIT` from `s` finds the link ready, and its poll `n + 1` is the first to return `MAGIC` (46_init.md R254). -/
structure PollsFindMagic (s : State) (n : Nat) : Prop where
  ready : ∀ c, Ready (poweredUp s c)
  bound : n + 1 ≤ s.params.maxPolls
  miss : ∀ k < n, rotate16 (s.deviceWord k) ≠ s.params.magic
  magic : rotate16 (s.deviceWord n) = s.params.magic

theorem PollsFindMagic.pollsStopAfter {s : State} {n : Nat} (h : PollsFindMagic s n) : PollsStopAfter (poweredUp s 0) n := by
  refine ⟨?_, .inl ?_, ?_⟩
  · simpa only [poweredUp_params, poweredUp_deviceWord] using h.miss
  · simpa only [poweredUp_params, poweredUp_deviceWord] using h.magic
  · simpa only [poweredUp_params, poweredUp_pollcnt, Nat.zero_add] using h.bound

/-- Steps 2 and 3 of an accepted `INIT` whose polls find `MAGIC` (46_init.md R254, R255). -/
theorem PollsFindMagic.patternSwapped_stepLink {s : State} {n : Nat} (h : PollsFindMagic s n) :
    StepLink (poweredUp s (n + 1)) (andThen (pollLoop s.params.maxPolls (poweredUp s 0)) patternSwapped)
      (pollEvents s.params (s.deviceWords (n + 1)) ++ patternEvents s.params (s.deviceWord (n + 1))) (n + 2)
      (mismatch s.params.testPattern .patternSwapped (rotate16 (s.deviceWord (n + 1)))) := by
  have hpolled := (pollLoop_poweredUp_stepLink (h.ready 0) h.pollsStopAfter).of_match h.magic
  exact (hpolled.followedBy_poweredUp (h.ready _) patternSwapped_spec (j := n + 2) rfl :)

/-- Steps 4 and the first half of 5 after them, when the rotated read-back is the pattern (46_init.md R256, R257). -/
theorem PollsFindMagic.magicNormal_stepLink {s : State} {n : Nat} (h : PollsFindMagic s n)
    (hswapped : rotate16 (s.deviceWord (n + 1)) = s.params.testPattern) :
    StepLink (poweredUp s (n + 1))
      (andThen (andThen (andThen (pollLoop s.params.maxPolls (poweredUp s 0)) patternSwapped) configure) magicNormal)
      (pollEvents s.params (s.deviceWords (n + 1)) ++ patternEvents s.params (s.deviceWord (n + 1)) ++
        rotatedWriteEvents s.params s.params.regBusCtrl s.params.busCtrlValue ++
        busReadEvents s.params s.params.regBusTestRo (s.deviceWord (n + 2))) (n + 3)
      (mismatch s.params.magic .magicNormal (s.deviceWord (n + 2))) := by
  have hread := h.patternSwapped_stepLink.of_match hswapped
  have hconfigured := hread.followedBy_poweredUp (h.ready _) configure_spec (j := n + 2) rfl
  exact (hconfigured.followedBy_poweredUp (h.ready _) magicNormal_spec (j := n + 3) rfl :)

/-- What the bring-up obligations suppose of the polls, which they count from 1. -/
theorem pollsFindMagic_of_first {s : State} {n : Nat} (hq : Quiet s) (hrsf : s.params.readFraming = .rsf) (hwf : s.params.Wf)
    (hbound : n + 1 ≤ s.params.maxPolls) (hmiss : ∀ k, k + 1 < n + 1 → rotate16 (s.deviceWord k) ≠ s.params.magic)
    (hmagic : rotate16 (s.deviceWord n) = s.params.magic) : PollsFindMagic s n :=
  ⟨poweredUp_ready hq hrsf hwf, hbound, fun k hk => hmiss k (Nat.succ_lt_succ hk), hmagic⟩

/-- Settles O53: step 3 reads another value back than it wrote, and raises. -/
theorem initReportsPatternSwapped : Obligations.InitReportsPatternSwapped := by
  intro n s hq hrsf hwf hn hmax p w hmiss hmagic hswapped
  obtain ⟨n, rfl⟩ := Nat.exists_eq_add_one.2 hn
  have hfound := pollsFindMagic_of_first hq hrsf hwf hmax hmiss hmagic
  have hraised := hfound.patternSwapped_stepLink.of_mismatch hswapped
  have hreports := StepLink.initReports (((hraised.skips configure).skips magicNormal).skips patternNormal) hq
  simp only [patternEvents, List.append_assoc] at hreports ⊢
  exact hreports

/-- Settles O54: the first of the two normal reads that does not return the value it wants raises. -/
theorem initReportsNormalMismatch : Obligations.InitReportsNormalMismatch := by
  intro n s hq hrsf hwf hn hmax p w hmiss hmagic hswapped
  obtain ⟨n, rfl⟩ := Nat.exists_eq_add_one.2 hn
  have hfound := pollsFindMagic_of_first hq hrsf hwf hmax hmiss hmagic
  have hmagicRead := hfound.magicNormal_stepLink hswapped
  simp only [List.append_assoc]
  constructor
  · intro hbad
    have hreports := StepLink.initReports ((hmagicRead.of_mismatch hbad).skips patternNormal) hq
    simp only [patternEvents, List.append_assoc] at hreports
    obtain ⟨t, t1, t2, hexec, hreported, -, -, hafter⟩ := hreports
    exact ⟨t, t1, t2, hexec, hreported, hafter⟩
  · intro hgood hbad
    have hpatternRead := (hmagicRead.of_match hgood).followedBy_poweredUp (hfound.ready _) patternNormal_spec (j := n + 4) rfl
    have hreports := StepLink.initReports (hpatternRead.of_mismatch hbad) hq
    simp only [patternEvents, List.append_assoc] at hreports
    obtain ⟨t, t1, t2, hexec, hreported, -, -, hafter⟩ := hreports
    exact ⟨t, t1, t2, hexec, hreported, hafter⟩

end Sys2Proof.Machine
end

section
/-! PROOFS. The reset input (70_reset_and_hazards.md R320, R321, R323, R345): what the host's buffers hold when it stops an operation, by the relation
`Memory.CutStores`, and what it leaves of the block, the lines and the trace. -/

namespace Sys2Proof.Machine

/-! ### Stores that a reset cuts -/

/-- An operation that would have taken the store `m` to `full` was cut and left `cut`: the first of its stores in index order were made, and all of
them when it had `ended` (10_state.md R33, log 23). -/
structure Memory.CutStores {w : Nat} (ended : Prop) (m full cut : Memory w) : Prop where
  firstMade : ∃ k vs n, full = Memory.writeList m k vs ∧ cut = Memory.writeList m k (vs.take n)
  allMade : ended → cut = full

/-- An operation that stores nothing. -/
theorem Memory.CutStores.refl {w : Nat} (ended : Prop) (m : Memory w) : Memory.CutStores ended m m m := ⟨⟨0, [], 0, rfl, rfl⟩, fun _ => rfl⟩

/-- Where the index order puts the cut, the store reads as the whole operation leaves it below and as before above. -/
theorem Memory.CutStores.read {w : Nat} {ended : Prop} {m full cut : Memory w} (h : Memory.CutStores ended m full cut) (hm : Memory.wf m) :
    ∃ n, ∀ k, Memory.read cut k = Memory.read (if k < n then full else m) k := by
  obtain ⟨k, vs, n, rfl, rfl⟩ := h.firstMade
  exact ⟨k + n, Memory.read_writeList_take m k n vs hm⟩

theorem Memory.cutStores_writeUntil {w : Nat} (m : Memory w) (k : Nat) (vs : List (BitVec w)) (made events stores : Nat) :
    Memory.CutStores (made < events) m (Memory.writeList m k vs) (Memory.writeUntil m k vs made events stores) where
  firstMade := by
    obtain ⟨n, hcut, -⟩ := Memory.writeUntil_eq m k vs made events stores
    exact ⟨k, vs, n, rfl, hcut⟩
  allMade hended := by rw [Memory.writeUntil, if_pos hended]

/-- A reset after the last event of a block read finds the bytes of every chunk stored: no chunk's events outlast the whole. -/
theorem chunksUntil_of_ended (events stores : Nat) (cs : List (Nat × Nat)) (dst : Nat) (s : State)
    (hended : (readChunks cs dst s).log.length < events) : chunksUntil events stores cs dst s = (readChunks cs dst s).bytes := by
  induction cs generalizing dst s with
  | nil => rfl
  | cons x cs ih =>
    have hextends := (partsKeep_logExtends (readChunk x.1 x.2 dst s)).readChunks cs (dst + x.2) _ (.refl _)
    have hreceived : (receiveChunk x.1 x.2 s).1.log.length < events := Nat.lt_of_le_of_lt hextends.length_le hended
    rw [chunksUntil, if_pos hreceived]
    exact ih _ _ hended

theorem cutStores_chunksUntil (events stores : Nat) (cs : List (Nat × Nat)) (dst : Nat) (s : State) :
    Memory.CutStores ((readChunks cs dst s).log.length < events) s.bytes (readChunks cs dst s).bytes (chunksUntil events stores cs dst s) where
  firstMade := by
    obtain ⟨bs, n, hfull, hcut⟩ := chunksUntil_eq events stores cs dst s
    exact ⟨dst, bs, n, hfull, hcut⟩
  allMade := chunksUntil_of_ended events stores cs dst s

/-- Of the bytes an operation stores, those a reset after `events` events of the trace finds stored. -/
theorem cutStores_bytesUntil {i : Instr} {s u : State} (h : exec i s = .next u) (events stores : Nat) :
    Memory.CutStores (u.log.length < events) s.bytes u.bytes (bytesUntil i events stores s) := by
  cases i with
  | bpRdBlk a buf n =>
    obtain ⟨-, rfl⟩ := exec_cases h
    cases hcheck : checkBlock a n with
    | none =>
      rw [bodyOf, checked_of_none _ _ hcheck, bytesUntil, if_pos hcheck]
      exact cutStores_chunksUntil events stores _ buf (accept _ s)
    | some e =>
      rw [bodyOf, checked_of_some _ _ hcheck, bytesUntil, if_neg (by simp [hcheck])]
      exact .refl _ s.bytes
  | _ =>
    rw [(exec_frame h).bytes nofun]
    exact .refl _ s.bytes

/-- Of the words an operation stores, those a reset after `events` events of the trace finds stored. -/
theorem cutStores_wordsUntil {i : Instr} {s u : State} (h : exec i s = .next u) (events stores : Nat) :
    Memory.CutStores (u.log.length < events) s.words u.words (wordsUntil i events stores s) := by
  cases i with
  | dataRd wbuf n =>
    obtain ⟨-, rfl⟩ := exec_cases h
    cases hcheck : checkLength n 2047 with
    | none =>
      have hkept : (readTransaction s.params.fnData 0 n (accept (.dataRd wbuf n) s)).1.words = s.words :=
        (readTransaction_linkOnly _ _ _ _).words
      rw [bodyOf, checked_of_none _ _ hcheck, wordsUntil, if_pos hcheck, (report_only _ _).words, accept_params, hkept]
      exact Memory.cutStores_writeUntil s.words wbuf _ _ events stores
    | some e =>
      rw [bodyOf, checked_of_some _ _ hcheck, wordsUntil, if_neg (by simp [hcheck])]
      exact .refl _ s.words
  | _ =>
    rw [(exec_frame h).words nofun]
    exact .refl _ s.words

/-! ### The stopped block -/

theorem execThenReset_of_next {i : Instr} {s u : State} (events stores : Nat) (h : exec i s = .next u) :
    execThenReset i events stores s = .next (resetBlock (stopped i events stores s u)) := by rw [execThenReset, h]

theorem step_requestThenReset {s : State} {record : List Word} {events stores : Nat} {rest : List HostInput} {i : Instr}
    (hinputs : s.inputs = .requestThenReset record events stores :: rest) (hdecode : decode record = .ok i) :
    step s = execThenReset i events stores { s with inputs := rest } := by simp only [step, hinputs, hdecode]

/-- What the reset finds on the lines and in the environment is what the operation's events up to it have made of them (log 23). -/
structure StoppedAfter (s t : State) (cut : List Event) : Prop where
  trace : t.trace = s.trace ++ cut
  clk : t.clk = clockAfter s.clk cut
  oe : t.dioOe = heldAfter s.dioOe cut
  pwr : t.pwr = powerAfter s.pwr cut
  dioIn : t.dioIn = s.dioIn.drop (sampleCount cut)
  params : t.params = s.params
  inputs : t.inputs = s.inputs

theorem stopped_stoppedAfter {s u : State} {es : List Event} (htrace : u.trace = s.trace ++ es) (i : Instr) (events stores : Nat) :
    StoppedAfter s (stopped i events stores s u) (es.take events) := by
  rw [stopped, htrace, List.drop_left]
  obtain ⟨hclk, hoe, hpwr, hdioIn⟩ := happenAll_lines (es.take events) s
  have honly := happenAll_only (es.take events) s
  exact ⟨happenAll_trace (es.take events) s, hclk, hoe, hpwr, hdioIn, honly.params, honly.inputs⟩

theorem StoppedAfter.trace_resetBlock {s t : State} {cut : List Event} (h : StoppedAfter s t cut) :
    (resetBlock t).trace = s.trace ++ cut ++ idleEdges (clockAfter s.clk cut) (heldAfter s.dioOe cut) (powerAfter s.pwr cut) := by
  rw [resetBlock_trace, h.trace, h.clk, h.oe, h.pwr]

/-- The operation had made all its events, and the reset came later still. -/
theorem log_length_lt_of_trace {s u : State} {es : List Event} (htrace : u.trace = s.trace ++ es) {events : Nat} (h : es.length < events) :
    u.log.length < s.log.length + events := by
  have hlength := congrArg List.length htrace
  simp only [State.trace, List.length_reverse, List.length_append] at hlength
  omega

/-! ### The statements -/

/-- Settles O2: between operations there is only the reset; in one, the events and the stores before it stay, and the reset is the same. -/
theorem resetInputResetsBlock : Obligations.ResetInputResetsBlock := by
  constructor
  case left =>
    intro s rest hinputs
    have hstep : step s = .next (resetBlock { s with inputs := rest }) := by rw [step, hinputs]
    exact ⟨_, hstep, rfl, resetBlock_quiet _, rfl, rfl, resetBlock_trace _, rfl, rfl, fun _ => rfl, fun _ => rfl, rfl⟩
  case right =>
    intro s record events stores rest i hinputs hdecode hidle hbytes hwords
    obtain ⟨u, hexec, -⟩ := everyOperationEndsReady i { s with inputs := rest } hidle
    obtain ⟨es, htrace⟩ := operationsOnlyExtendTrace i _ u hexec
    have hstep := (step_requestThenReset hinputs hdecode).trans (execThenReset_of_next events stores hexec)
    have hstopped := stopped_stoppedAfter htrace i events stores
    have hcutBytes := cutStores_bytesUntil hexec (s.log.length + events) stores
    have hcutWords := cutStores_wordsUntil hexec (s.log.length + events) stores
    refine ⟨_, u, es, hexec, htrace, hstep, congrArg Params.windowSentinel hstopped.params, resetBlock_quiet _, rfl, rfl, hstopped.trace_resetBlock,
      hstopped.params, hstopped.inputs, hstopped.dioIn, hcutBytes.read hbytes, hcutWords.read hwords, fun hended => ?_⟩
    have hlate := log_length_lt_of_trace htrace hended
    exact ⟨fun k => congrArg (Memory.read · k) (hcutBytes.allMade hlate), fun k => congrArg (Memory.read · k) (hcutWords.allMade hlate)⟩

/-- Settles O1: the idle block is part of what the reset state meets of the invariant. -/
theorem resetLeavesStatedValues : Obligations.ResetLeavesStatedValues := by
  obtain ⟨hbusy, hclk, hoe, hseq⟩ := resetMeetsInvariant.quiet
  exact ⟨rfl, hclk, hoe, rfl, hbusy, rfl, hseq⟩

/-- Settles O3, by the match a step makes on what the host presents. -/
theorem stepWaitsForHost : Obligations.StepWaitsForHost := by
  intro s hinputs
  rw [step, hinputs]

end Sys2Proof.Machine
end
